-- ==== Sys2Proof/Word.lean ====
section
/-! DEFINITION. The widths of R2FFT-CORE (00_scope.md R9, 10_state.md R25, R27, 30_encoding.md R91). -/

namespace Sys2Proof

/-- A byte of memory (20_memory.md R60). -/
abbrev Byte := BitVec 8

/-- A 16-bit field: an index field of a micro-op (30_encoding.md R91), one lane of a packed word (R121). -/
abbrev Half := BitVec 16

/-- A 32-bit word: a host register, a packed sample, a command (10_state.md R27, R25, 30_encoding.md R99). -/
abbrev Word := BitVec 32

/-- A 64-bit format-U word (30_encoding.md R90). -/
abbrev UWord := BitVec 64

end Sys2Proof
end

