-- ==== Sys2Proof/Syntax.lean ====
section
/-! DEFINITION. The operations of the block: the five micro-ops and the host command codes (00_scope.md R3). -/

namespace Sys2Proof

/-- One constructor per row of spec/opcode_table.json. Operands are the unsigned 16-bit fields of 30_encoding.md R92. -/
inductive Instr where
  /-- `BFLY a, b, ic`: twiddle-stage butterfly (R93, 41_butterfly_unit.md R141). -/
  | bfly (a b ic : Half)
  /-- `BFLYN a, b`: final-stage butterfly, no rotation (R94, 41_butterfly_unit.md R142). -/
  | bflyn (a b : Half)
  /-- `BAR`: barrier (R95, 43_barrier_controller.md R191). -/
  | bar
  /-- `SWPT p`: exchange the two samples named by pair `p` (R96, 44_bit_reversal_engine.md R207). -/
  | swpt (p : Half)
  /-- `END`: the worker is done (R97, 45_launcher_and_host_commands.md R228). -/
  | endOp
  /-- Host command `NOP` (R100, 45_launcher_and_host_commands.md R231). -/
  | nop
  /-- Host command `START` (R100, 45_launcher_and_host_commands.md R223). -/
  | start
  /-- Host command `CLEAR` (R100, 45_launcher_and_host_commands.md R230). -/
  | clear
  /-- The reserved command code 3 (R101). -/
  | reservedCmd3
  deriving DecidableEq, Repr

/-- Format U (true) or format C (false) of 30_encoding.md R90. -/
def Instr.isMicroOp : Instr → Bool
  | .bfly _ _ _ => true
  | .bflyn _ _ => true
  | .bar => true
  | .swpt _ => true
  | .endOp => true
  | .nop => false
  | .start => false
  | .clear => false
  | .reservedCmd3 => false

/-- A micro-op that accesses memory (20_memory.md R60), the only ones that can fault (60_exceptions.md R270). -/
def Instr.accessesMemory : Instr → Bool
  | .bfly _ _ _ => true
  | .bflyn _ _ => true
  | .swpt _ => true
  | .bar => false
  | .endOp => false
  | .nop => false
  | .start => false
  | .clear => false
  | .reservedCmd3 => false

/-- The sample indices a scheduled micro-op names (48_invariants_and_properties.md R252). -/
def Instr.samples : Instr → List Nat
  | .bfly a b _ => [a.toNat, b.toNat]
  | .bflyn a b => [a.toNat, b.toNat]
  | .swpt _ => []
  | .bar => []
  | .endOp => []
  | .nop => []
  | .start => []
  | .clear => []
  | .reservedCmd3 => []

end Sys2Proof
end

