-- ==== Sys2Proof/Decode.lean ====
section
/-! DEFINITION. Decoding of both formats, total and rejecting by name, and the encoder (30_encoding.md R90 to R102). -/

namespace Sys2Proof

/-- A code word as it leaves its producer: format U from the stage scheduler, format C from the host (R90). The two
never share a stream (R102), so the format is known and is not read from the bits. -/
inductive Code where
  | u (w : UWord)
  | c (w : Word)
  deriving DecidableEq, Repr

/-- Why bits are no operation. -/
inductive Reject where
  /-- `op ∈ {0x0, 0x6 … 0xF}` (R98). -/
  | reservedOp
  /-- A defined `op` with a non-zero must-be-zero field (R98). -/
  | mustBeZero
  /-- Neither four bytes (format C) nor eight (format U): R102 knows no other length. -/
  | badLength
  deriving DecidableEq, Repr

/-- Field `op` of a format-U word (R91). -/
def opField (w : UWord) : BitVec 4 := w.extractLsb' 60 4
/-- Field `z` of a format-U word (R91). -/
def zField (w : UWord) : BitVec 12 := w.extractLsb' 48 12
/-- Field `f2` of a format-U word (R91). -/
def f2Field (w : UWord) : Half := w.extractLsb' 32 16
/-- Field `f1` of a format-U word (R91). -/
def f1Field (w : UWord) : Half := w.extractLsb' 16 16
/-- Field `f0` of a format-U word (R91). -/
def f0Field (w : UWord) : Half := w.extractLsb' 0 16

/-- Decode a format-U word (R91, R93 to R98). -/
def decodeU (w : UWord) : Except Reject Instr :=
  match (opField w).toNat with
  | 1 => if zField w = 0 then .ok (.bfly (f0Field w) (f1Field w) (f2Field w)) else .error .mustBeZero
  | 2 => if zField w = 0 ∧ f2Field w = 0 then .ok (.bflyn (f0Field w) (f1Field w)) else .error .mustBeZero
  | 3 => if zField w = 0 ∧ f2Field w = 0 ∧ f1Field w = 0 ∧ f0Field w = 0 then .ok .bar else .error .mustBeZero
  | 4 => if zField w = 0 ∧ f2Field w = 0 ∧ f1Field w = 0 then .ok (.swpt (f0Field w)) else .error .mustBeZero
  | 5 => if zField w = 0 ∧ f2Field w = 0 ∧ f1Field w = 0 ∧ f0Field w = 0 then .ok .endOp else .error .mustBeZero
  | _ => .error .reservedOp

/-- Decode a host command: `cmd` is bits 1:0, bits 31:2 are ignored (R99, R100, R101). -/
def decodeC (w : Word) : Instr :=
  match (w.extractLsb' 0 2).toNat with
  | 0 => .nop
  | 1 => .start
  | 2 => .clear
  | _ => .reservedCmd3

/-- The decoder of both formats: every word decodes to one operation or to "reserved" (R90). -/
def decode : Code → Except Reject Instr
  | .u w => decodeU w
  | .c w => .ok (decodeC w)

/-- The number a list of bytes stands for, first byte least significant (for code words the model's choice, log 29). -/
def leNat : List Byte → Nat
  | [] => 0
  | b :: bs => b.toNat + 256 * leNat bs

/-- The `n` bytes of a number, least significant first (for code words the model's choice, log 29). -/
def leBytes : Nat → Nat → List Byte
  | 0, _ => []
  | n + 1, v => BitVec.ofNat 8 v :: leBytes n (v / 256)

/-- Decode bytes: a command is always 32 bits, a micro-op always 64 (R102). That the first byte is the least significant
is the model's choice (DESIGN CHOICE, safe, log 29). -/
def decodeBytes (bs : List Byte) : Except Reject Instr :=
  if bs.length = 8 then decode (.u (BitVec.ofNat 64 (leNat bs)))
  else if bs.length = 4 then decode (.c (BitVec.ofNat 32 (leNat bs)))
  else .error .badLength

/-- The instruction the decoder reads from a table row's bits: a row of at most 32 bits is a command, a longer one a
micro-op. -/
def decodeTableWord (nbits w : Nat) : Option Instr :=
  (decodeBytes (leBytes (if nbits ≤ 32 then 4 else 8) w)).toOption

/-- A format-U word from its fields, `z = 0` (R91). -/
def encodeFields (op : BitVec 4) (f2 f1 f0 : Half) : UWord := op ++ 0#12 ++ f2 ++ f1 ++ f0

/-- The encoder (R93 to R97, R99, R100); the ignored bits of a command are zero. -/
def encode : Instr → Code
  | .bfly a b ic => .u (encodeFields 1 ic b a)
  | .bflyn a b => .u (encodeFields 2 0 b a)
  | .bar => .u (encodeFields 3 0 0 0)
  | .swpt p => .u (encodeFields 4 0 0 p)
  | .endOp => .u (encodeFields 5 0 0 0)
  | .nop => .c 0
  | .start => .c 1
  | .clear => .c 2
  | .reservedCmd3 => .c 3

/-- The bits of a code word. -/
def Code.bits : Code → Nat
  | .u _ => 64
  | .c _ => 32

/-- The bytes of a code word, least significant first. The spec gives code words no byte order: nothing is fetched from
memory, "so no fetch byte order" (20_memory.md R62). The order is the model's choice (DESIGN CHOICE, safe, log 29). -/
def Code.bytes : Code → List Byte
  | .u w => leBytes 8 w.toNat
  | .c w => leBytes 4 w.toNat

/-- A row of the opcode table: a word `w` of the row's width is the row's when `w &&& mask = pattern`. -/
structure OpcodeRow where
  mnemonic : String
  width : Nat
  pattern : Nat
  mask : Nat
  deriving DecidableEq, Repr

/-- spec/opcode_table.json, the match and mask of R93 to R97, R100, R101. -/
def opcodeRows : List OpcodeRow :=
  [⟨"BFLY", 64, 0x1000000000000000, 0xFFFF000000000000⟩,
   ⟨"BFLYN", 64, 0x2000000000000000, 0xFFFFFFFF00000000⟩,
   ⟨"BAR", 64, 0x3000000000000000, 0xFFFFFFFFFFFFFFFF⟩,
   ⟨"SWPT", 64, 0x4000000000000000, 0xFFFFFFFFFFFF0000⟩,
   ⟨"END", 64, 0x5000000000000000, 0xFFFFFFFFFFFFFFFF⟩,
   ⟨"NOP", 32, 0, 3⟩,
   ⟨"START", 32, 1, 3⟩,
   ⟨"CLEAR", 32, 2, 3⟩,
   ⟨"RESERVED_CMD3", 32, 3, 3⟩]

/-- The row of the opcode table an operation belongs to. -/
def Instr.mnemonic : Instr → String
  | .bfly _ _ _ => "BFLY"
  | .bflyn _ _ => "BFLYN"
  | .bar => "BAR"
  | .swpt _ => "SWPT"
  | .endOp => "END"
  | .nop => "NOP"
  | .start => "START"
  | .clear => "CLEAR"
  | .reservedCmd3 => "RESERVED_CMD3"

/-- The textual form of an operation (R103, R104): mnemonic in capitals, operands decimal, in the order `a, b, ic`. -/
def Instr.text : Instr → String
  | .bfly a b ic => "BFLY  " ++ toString a.toNat ++ ", " ++ toString b.toNat ++ ", " ++ toString ic.toNat
  | .bflyn a b => "BFLYN " ++ toString a.toNat ++ ", " ++ toString b.toNat
  | .bar => "BAR"
  | .swpt p => "SWPT  " ++ toString p.toNat
  | .endOp => "END"
  | .nop => "CMD NOP"
  | .start => "CMD START"
  | .clear => "CMD CLEAR"
  | .reservedCmd3 => "CMD 3"

/-- A format-U word in hexadecimal, sixteen digits (R103). -/
def UWord.hex (w : UWord) : String :=
  let ds := (Nat.toDigits 16 w.toNat).map Char.toUpper
  "0x" ++ String.ofList (List.replicate (16 - ds.length) '0' ++ ds)

/-- A listing line of R103: `<pc>  <64-bit word in hex>  <text>`. -/
def listingLine (pc : Nat) (i : Instr) : String :=
  match encode i with
  | .u w => toString pc ++ "  " ++ w.hex ++ "  " ++ i.text
  | .c _ => i.text

end Sys2Proof
end

