-- ==== Sys2Proof/Config.lean ====
section
/-! DEFINITION. The implementation parameters (00_scope.md R7, 10_state.md R46) and the model's one free value. -/

namespace Sys2Proof.Machine

open Sys2Proof

/-- The parameters of 00_scope.md R7 and 10_state.md R46. They are fixed for one machine; `State.params` carries
them so that one `step` speaks of every platform (DESIGN CHOICE, safe, log 1). -/
structure Params where
  /-- `MAXLOG`, largest supported log2 of the transform length (2 to 16). -/
  maxLog : Nat
  /-- `MAXCORES`, number of worker contexts (1 to 255). -/
  maxCores : Nat
  /-- `REGBASE`, bus address of the register window, a multiple of 64 (10_state.md R27). -/
  regBase : Word
  /-- The address ranges `[lo, hi)` that the platform does not back: the plain-data form of `MemValid`
  (DESIGN CHOICE, safe, log 22). -/
  holes : List (Nat × Nat)
  deriving DecidableEq, Repr

/-- The defaults of R7: `MAXLOG = 12`, `MAXCORES = 32`, `MemValid` true everywhere. The spec gives no `REGBASE`;
0 is a DESIGN CHOICE (unsafe, log 1). -/
def Params.default : Params := { maxLog := 12, maxCores := 32, regBase := 0, holes := [] }

/-- The ranges R7 gives the parameters, and R27's "a multiple of 64" for `REGBASE`. -/
def Params.legal (p : Params) : Bool :=
  2 ≤ p.maxLog && p.maxLog ≤ 16 && 1 ≤ p.maxCores && p.maxCores ≤ 255 && p.regBase.toNat % 64 == 0

/-- FREE VALUE: which agent takes the turn when `State.turns` names none. 45_launcher_and_host_commands.md R239
lets any enabled agent be next; nothing constrains this choice (log 2). -/
opaque Config.freeTurn : Nat → Nat

end Sys2Proof.Machine
end

