-- ==== Sys2Proof/Machine/State.lean ====
section
/-! DEFINITION. The state of R2FFT-CORE as plain data (10_state.md R20 to R47), and its value after reset (R310). -/

namespace Sys2Proof.Machine

open Sys2Proof

/-- Worker status `ws[c]` (10_state.md R23). -/
inductive WorkerStatus where
  | idle
  | run
  | ended
  | faulted
  deriving DecidableEq, Repr

/-- One worker context: status (R23), micro-op counter (R22) and the operand registers (R25). -/
structure Worker where
  ws : WorkerStatus
  pc : Nat
  ra : Word
  rb : Word
  rw : Word
  rt : Word
  deriving DecidableEq, Repr

/-- A context after reset: `IDLE` (R310). `pc[c]` and the operand registers are unspecified there; zero is a
DESIGN CHOICE (unsafe, log 3); what they hold between invocations is one too (unsafe, log 28). -/
def Worker.reset : Worker := { ws := .idle, pc := 0, ra := 0, rb := 0, rw := 0, rt := 0 }

/-- The configuration and control registers of 10_state.md R29 to R39. Reserved bits of `FLAGS` and `CTRL` have no storage. -/
structure Regs where
  fftLen : Word
  twidBase : Word
  twidLen : Word
  brevBase : Word
  brevLen : Word
  bufBase : Word
  bufLen : Word
  /-- `FLAGS.INV` (R36). -/
  inv : Bool
  /-- `FLAGS.BREV` (R36). -/
  brev : Bool
  scale : Word
  ncores : Word
  /-- `CTRL.IE` (R39). -/
  ie : Bool
  deriving DecidableEq, Repr

/-- The cause codes of 60_exceptions.md R271; every other code value "is reserved and never written". -/
inductive ErrCode where
  | none
  | fftLen
  | nCores
  | bufLen
  | twidLen
  | brevLen
  | addr
  | bus
  | brevIdx
  deriving DecidableEq, Repr

/-- `STATUS` (10_state.md R42), a field each; `LS = RUNNING` exactly when `busy` (R47). -/
structure Status where
  busy : Bool
  done : Bool
  err : Bool
  unsup : Bool
  invnop : Bool
  ovr : Bool
  errCode : ErrCode
  errWorker : BitVec 8
  deriving DecidableEq, Repr

/-- Memory: address and byte pairs, addresses strictly rising, below `2^32` (R43, R60). An unlisted address holds no
value (DESIGN CHOICE, safe, log 4). -/
abbrev Memory := List Host.Cell

/-- One worker access of the current epoch, for the race detector of 20_memory.md R72. -/
structure Access where
  worker : Nat
  write : Bool
  addr : Nat
  size : Nat
  deriving DecidableEq, Repr

/-- One turn: which agent of 45_launcher_and_host_commands.md R239 acts next, with what it brings. -/
inductive Turn where
  /-- Host read of `n` bytes at a bus address (R232). -/
  | regRead (addr : Word) (n : Nat)
  /-- Host write of `v`, `n` bytes wide, at a bus address, with the sideband bit `ctx` (R233, R46). -/
  | regWrite (addr : Word) (n : Nat) (v : Word) (ctx : Bool)
  /-- Host or stager reads a byte of memory (20_memory.md R73; log 23). -/
  | memRead (addr : Word)
  /-- Host or stager writes a byte of memory (20_memory.md R73; log 23). -/
  | memWrite (addr : Word) (v : Byte)
  /-- The reset input is asserted and released (70_reset_and_hazards.md R310). -/
  | reset
  /-- Worker `c` takes its step (R227). -/
  | worker (c : Nat)
  /-- The barrier controller takes its step (43_barrier_controller.md R192). -/
  | release
  /-- The launcher takes its join step (R229). -/
  | join
  /-- A hand-written format-U word is handed to worker `c` in the place of a memory micro-op of the scheduler
  (30_encoding.md R98, R103; DESIGN CHOICE, safe, log 8). -/
  | issue (c : Nat) (w : UWord)
  deriving DecidableEq, Repr

/-- The state. `params`, `log`, `cur`, `ctx`, `rdata`, `turns`, `tick` and `trace` are the model's own (INVENTORY.md, "## State"). -/
structure State where
  params : Params
  regs : Regs
  status : Status
  /-- `ERRINFO` (R42). -/
  errInfo : Word
  /-- Worker contexts `0 … MAXCORES-1` (R22, R23, R25). -/
  workers : List Worker
  mem : Memory
  /-- Barrier releases since the fork (R26, 20_memory.md R70). -/
  epoch : Nat
  /-- Worker accesses of the current epoch (20_memory.md R72; log 5). -/
  log : List Access
  /-- The worker whose micro-op is being executed (log 15). -/
  cur : Nat
  /-- The sideband bit of the `CMD` write being executed (R46; log 15). -/
  ctx : Bool
  /-- What the host's last read returned (R232; log 15). -/
  rdata : Word
  /-- The turns to come, next first: the host's pending actions and the schedule (R239; log 2). -/
  turns : List Turn
  /-- How many turns the free choice has made (log 2). -/
  tick : Nat
  /-- What the trace outputs have shown, oldest first: the worker and the format-U word (30_encoding.md R106; log 30). -/
  trace : List (Nat × UWord)
  deriving DecidableEq, Repr

/-- Why the machine stops where the spec gives the invocation no result. -/
inductive Fault where
  /-- A worker's access conflicts with another worker's in the same epoch (20_memory.md R71, U3), or
  the SampleBuffer overlaps a table that several workers use (70_reset_and_hazards.md R322; log 31). Raised by `BFLY`,
  `BFLYN` and `SWPT`. Safe: the spec assigns the run no result. -/
  | race (worker : Nat)
  /-- The host or the stager touched the buffer, or wrote a table, while `BUSY` (70_reset_and_hazards.md R321). Raised by
  the host's memory turns. Safe: the spec assigns the run no result. -/
  | hostRace
  deriving DecidableEq, Repr

/-- Why there is no transition: the treatment `refuse` of 93_implementation_defined.md. -/
inductive Refusal where
  /-- An instruction with no meaning yet; only `exec`'s arms raise it. Safe. -/
  | notModelled (mnemonic : String)
  /-- A format-U word with a reserved encoding (30_encoding.md R98, U12). Raised by a hand-issued word. Safe. -/
  | reservedMicroOp
  /-- A micro-op outside the admitted forms (30_encoding.md R105, 41_butterfly_unit.md R144). Raised by `BFLY`, `BFLYN`,
  `SWPT`; the scheduler never emits one. Safe (log 7). -/
  | notAdmitted
  /-- A byte that nothing has written since power-up is read (20_memory.md R80, U4). Raised by `BFLY`, `BFLYN`, `SWPT`
  and the host's memory read. Safe (log 4). -/
  | undefinedByte
  /-- A register access that is not an aligned 32-bit one (20_memory.md R76, U10). Raised by the host's register turns.
  Safe (log 13). -/
  | registerAccess
  deriving DecidableEq, Repr

/-- The three outcomes of one step. -/
abbrev Out := Host.Outcome State Fault Refusal

/-- Configuration registers, `CTRL` after reset (R310). -/
def Regs.reset : Regs :=
  { fftLen := 0, twidBase := 0, twidLen := 0, brevBase := 0, brevLen := 0, bufBase := 0, bufLen := 0,
    inv := false, brev := false, scale := 0, ncores := 0, ie := false }

/-- `STATUS` after reset (R310). -/
def Status.reset : Status :=
  { busy := false, done := false, err := false, unsup := false, invnop := false, ovr := false,
    errCode := .none, errWorker := 0 }

/-- The machine right after power-up and reset (70_reset_and_hazards.md R310): nothing runs, nothing is listed in
memory. The parameters are the spec's defaults (log 1); no turn is chosen (log 2). -/
def State.reset : State :=
  { params := Params.default
    regs := Regs.reset
    status := Status.reset
    errInfo := 0
    workers := List.replicate Params.default.maxCores Worker.reset
    mem := []
    epoch := 0
    log := []
    cur := 0
    ctx := false
    rdata := 0
    turns := []
    tick := 0
    trace := [] }

end Sys2Proof.Machine
end

