-- ==== Sys2Proof/Machine/Flags.lean ====
section
/-! DEFINITION. `STATUS`, `FLAGS`, `CTRL` as words, the status updates, and the interrupt line (10_state.md R36 to R42,
60_exceptions.md R271, R286). The block has no arithmetic flags (R42). -/

namespace Sys2Proof.Machine

open Sys2Proof

/-- The code written to `STATUS.ERRCODE` (60_exceptions.md R271). -/
def ErrCode.code : ErrCode → Byte
  | .none => 0x00
  | .fftLen => 0x01
  | .nCores => 0x02
  | .bufLen => 0x03
  | .twidLen => 0x04
  | .brevLen => 0x05
  | .addr => 0x06
  | .bus => 0x10
  | .brevIdx => 0x11

/-- `STATUS` as the host reads it (R42): reserved bits 7:6 and 31:24 read 0. -/
def Status.toWord (t : Status) : Word :=
  0#8 ++ t.errWorker ++ t.errCode.code ++ 0#2 ++ BitVec.ofBool t.ovr ++ BitVec.ofBool t.invnop
    ++ BitVec.ofBool t.unsup ++ BitVec.ofBool t.err ++ BitVec.ofBool t.done ++ BitVec.ofBool t.busy

/-- `FLAGS` as the host reads it (R36): bits 31:2 read 0. -/
def Regs.flagsWord (r : Regs) : Word := 0#30 ++ BitVec.ofBool r.brev ++ BitVec.ofBool r.inv

/-- `CTRL` as the host reads it (R39): bits 31:1 read 0. -/
def Regs.ctrlWord (r : Regs) : Word := 0#31 ++ BitVec.ofBool r.ie

/-- `CAP` (R28): `MAXCORES` in bits 7:0, `MAXLOG` in bits 15:8, 0 above. -/
def Params.capWord (p : Params) : Word := 0#16 ++ BitVec.ofNat 8 p.maxLog ++ BitVec.ofNat 8 p.maxCores

/-- `STATUS.OVR <- 1` (10_state.md R40, 45_launcher_and_host_commands.md R222). -/
def State.setOvr (s : State) : State := { s with status := { s.status with ovr := true } }

/-- `STATUS.UNSUP <- 1`, nothing else (R221). -/
def State.setUnsup (s : State) : State := { s with status := { s.status with unsup := true } }

/-- What an accepted `START` clears (R223): `DONE`, `ERR`, `INVNOP`, the codes and `ERRINFO`; not `UNSUP`, not `OVR`. -/
def State.acceptStart (s : State) : State :=
  { s with
    status := { s.status with done := false, err := false, invnop := false, errCode := .none, errWorker := 0 }
    errInfo := 0 }

/-- What `CLEAR` clears (R230). -/
def State.clearStatus (s : State) : State :=
  { s with
    status := { s.status with
      done := false, err := false, unsup := false, invnop := false, ovr := false, errCode := .none, errWorker := 0 }
    errInfo := 0 }

/-- Completion of an inverse request (R225): `INVNOP` and `DONE`. -/
def State.inverseDone (s : State) : State := { s with status := { s.status with invnop := true, done := true } }

/-- The interrupt output, a pure function of state (60_exceptions.md R286). -/
def State.irq (s : State) : Bool := s.regs.ie && (s.status.done || s.status.err)

end Sys2Proof.Machine
end

