-- ==== Sys2Proof/Machine/Operands.lean ====
section
/-! DEFINITION. The operand forms of the micro-ops: sample, twiddle and bit-reversal entry addresses (20_memory.md R61,
R66 to R68, 30_encoding.md R92), and the regions they lie in (10_state.md R43). Address arithmetic is exact (R66, R79). -/

namespace Sys2Proof.Machine

open Sys2Proof

/-- `fftLen` (10_state.md R29). -/
def State.fftN (s : State) : Nat := s.regs.fftLen.toNat

/-- Byte address of sample `k`: `BUF_BASE + 4k` (R61, R66). -/
def State.samplePtr (s : State) (k : Nat) : Nat := s.regs.bufBase.toNat + 4 * k

/-- Byte address of twiddle entry `ic`: `TWID_BASE + 4·ic` (R67). -/
def State.twidPtr (s : State) (ic : Nat) : Nat := s.regs.twidBase.toNat + 4 * ic

/-- Byte address of bit-reversal entry `e`: `BREV_BASE + 2e` (R68). -/
def State.brevPtr (s : State) (e : Nat) : Nat := s.regs.brevBase.toNat + 2 * e

/-- The SampleBuffer holds the byte (10_state.md R43). -/
def State.inBuffer (s : State) (a : Nat) : Bool := s.samplePtr 0 ≤ a && a < s.samplePtr s.fftN

/-- The used part of the TwiddleTable holds the byte (R43): `[TWID_BASE, TWID_BASE + 2·fftLen)`. -/
def State.inTwiddles (s : State) (a : Nat) : Bool :=
  s.twidPtr 0 ≤ a && a < s.regs.twidBase.toNat + 2 * s.fftN

/-- The BitReversalTable holds the byte (R43); it counts only with `FLAGS.BREV = 1` (70_reset_and_hazards.md R321). -/
def State.inBrevTable (s : State) (a : Nat) : Bool :=
  s.regs.brev && s.brevPtr 0 ≤ a && a < s.brevPtr s.regs.brevLen.toNat

/-- `[a, b)` and `[c, d)` have a byte in common. -/
def intervalsMeet (a b c d : Nat) : Bool := max a c < min b d

/-- The SampleBuffer overlaps a table in use (70_reset_and_hazards.md R322): the used part of the TwiddleTable or, with
`FLAGS.BREV = 1`, the BitReversalTable. The two tables may overlap each other. -/
def State.regionsOverlap (s : State) : Bool :=
  intervalsMeet (s.samplePtr 0) (s.samplePtr s.fftN) (s.twidPtr 0) (s.regs.twidBase.toNat + 2 * s.fftN) ||
    (s.regs.brev && intervalsMeet (s.samplePtr 0) (s.samplePtr s.fftN) (s.brevPtr 0) (s.brevPtr s.regs.brevLen.toNat))

end Sys2Proof.Machine
end

