-- ==== Sys2Proof/WellFormed.lean ====
section
/-! DEFINITION. Which micro-ops the block admits (30_encoding.md R105, 41_butterfly_unit.md R144). -/

namespace Sys2Proof

/-- Well-formedness that no configuration can mend: the part of 30_encoding.md R105 that speaks of the operands alone.
`BFLY a, a, ic` and `BFLYN a, a` are outside the admitted forms (41_butterfly_unit.md R144). -/
def Instr.wf : Instr → Bool
  | .bfly a b _ => a.toNat < b.toNat
  | .bflyn a b => a.toNat % 2 == 0 && b.toNat == a.toNat + 1
  | .bar => true
  | .swpt _ => true
  | .endOp => true
  | .nop => true
  | .start => true
  | .clear => true
  | .reservedCmd3 => true

/-- 30_encoding.md R105: well-formedness of a micro-op against a configuration, `n` being `FFTLEN` and `l` `BREV_LEN`. -/
def Instr.admitted (n l : Nat) : Instr → Bool
  | .bfly a b ic => a.toNat < b.toNat && b.toNat < n && ic.toNat < n / 2
  | .bflyn a b => a.toNat % 2 == 0 && b.toNat == a.toNat + 1 && b.toNat < n
  | .bar => true
  | .swpt p => 2 * p.toNat + 1 < l
  | .endOp => true
  | .nop => true
  | .start => true
  | .clear => true
  | .reservedCmd3 => true

end Sys2Proof
end

