-- ==== Sys2Proof/Machine/Ops.lean ====
section
/-! DEFINITION. The shared operations: memory, workers, the two error mechanisms (60_exceptions.md R274, R280), reset
(70_reset_and_hazards.md R310), and the guards a micro-op runs under. -/

namespace Sys2Proof.Machine

open Sys2Proof

/-! ## Memory (20_memory.md R60 to R69) -/

/-- The byte an address holds; none where nothing has written it since power-up (log 4). -/
def Memory.read : Memory → Nat → Option Byte
  | [], _ => none
  | (k, v) :: m, a => if k = a then some v else Memory.read m a

/-- Store a byte, keeping addresses strictly rising. -/
def Memory.write : Memory → Nat → Byte → Memory
  | [], a, v => [(a, v)]
  | (k, u) :: m, a, v =>
    if a < k then (a, v) :: (k, u) :: m
    else if a = k then (a, v) :: m
    else (k, u) :: Memory.write m a v

/-- The canonical form: addresses strictly rising, all below `2^32`. -/
abbrev Memory.wf (m : Memory) : Prop := m.Pairwise (fun x y => x.1 < y.1) ∧ ∀ x ∈ m, x.1 < 2 ^ 32

/-- `MemRead(addr, n)`, little-endian (R62); none where one of the bytes holds no value. -/
def Memory.readN (m : Memory) : Nat → Nat → Option Nat
  | _, 0 => some 0
  | a, n + 1 =>
    match Memory.read m a, Memory.readN m (a + 1) n with
    | some b, some r => some (b.toNat + 256 * r)
    | _, _ => none

/-- `MemWrite(addr, n, v)`, little-endian (R62). -/
def Memory.writeN (m : Memory) : Nat → Nat → Nat → Memory
  | _, 0, _ => m
  | a, n + 1, v => Memory.writeN (Memory.write m a (BitVec.ofNat 8 v)) (a + 1) n (v / 256)

/-- A 4-byte read (R65). -/
def Memory.readWord (m : Memory) (a : Nat) : Option Word := (Memory.readN m a 4).map (BitVec.ofNat 32)

/-- A 2-byte read, zero-extended (R68). -/
def Memory.readHalf (m : Memory) (a : Nat) : Option Nat := Memory.readN m a 2

/-- A 4-byte write (R65). -/
def State.storeWord (s : State) (a : Nat) (v : Word) : State := { s with mem := Memory.writeN s.mem a 4 v.toNat }

/-- The byte at an address is backed by memory the block can reach: inside the space of `2^32` bytes (R43; log 11) and
in none of the platform's holes (R7; log 22). -/
def Params.backed (p : Params) (a : Nat) : Bool :=
  a < 2 ^ 32 && !p.holes.any (fun h => h.1 ≤ a && a < h.2)

/-- `MemValid(addr, n)` (00_scope.md R7): the `n` bytes at `addr` are backed. -/
def Params.memValid (p : Params) (a n : Nat) : Bool := (List.range n).all fun i => p.backed (a + i)

/-- The first address of a check list whose access is not valid (20_memory.md R75, 60_exceptions.md R272). -/
def Params.firstInvalid (p : Params) : List (Nat × Nat) → Option Nat
  | [] => none
  | (a, n) :: l => if p.memValid a n then Params.firstInvalid p l else some a

/-! ## Worker contexts (10_state.md R22, R23) -/

/-- Worker context `c`. -/
def State.worker (s : State) (c : Nat) : Worker := s.workers.getD c Worker.reset

/-- Replace worker context `c`. -/
def State.setWorker (s : State) (c : Nat) (w : Worker) : State := { s with workers := s.workers.set c w }

/-- `coreCount` of the invocation (R38). -/
def State.cores (s : State) : Nat := s.regs.ncores.toNat

/-- Apply `f` to the first `n` worker contexts. -/
def updateFirst (f : Worker → Worker) : Nat → List Worker → List Worker
  | 0, l => l
  | _ + 1, [] => []
  | n + 1, w :: l => f w :: updateFirst f n l

/-- Every participant `c < coreCount` satisfies `p`. -/
def State.allCores (s : State) (p : Nat → Bool) : Bool := (List.range s.cores).all p

/-- The end of a micro-op that completes (R22): worker `cur` takes the operand registers of `w` and `pc[c]` grows by 1. -/
def State.retire (s : State) (w : Worker) : State := s.setWorker s.cur { w with pc := w.pc + 1 }

/-! ## The two error mechanisms, and reset -/

/-- `refuse E(info)`: a configuration error (60_exceptions.md R274). `BUSY` stays 0 and no worker leaves `IDLE`. -/
def State.refuseConfig (s : State) (e : ErrCode) (info : Word) : State :=
  { s with status := { s.status with err := true, errCode := e, errWorker := 0xFF }, errInfo := info }

/-- `raise F(c, info)` for worker `c = cur`: a worker fault (60_exceptions.md R280). The worker becomes `FAULTED`, its
`pc` stays; the record is written only if no earlier fault of the invocation wrote it (R284). -/
def State.raiseFault (s : State) (e : ErrCode) (info : Word) : State :=
  let w := s.worker s.cur
  let t := s.setWorker s.cur { w with ws := .faulted }
  if s.status.err then t
  else
    { t with
      status := { s.status with err := true, errCode := e, errWorker := BitVec.ofNat 8 s.cur }
      errInfo := info }

/-- Reset, asserted at any time (70_reset_and_hazards.md R310): the only recovery from a worker fault (R293); there is
no return from an exception (60_exceptions.md R287). Memory is not touched; the parameters, the pending turns, the
counter and the record of the trace outputs are not the block's to change. What is unspecified takes the value of
`State.reset` (log 3, log 16). -/
def State.doReset (s : State) : State :=
  { State.reset with
    params := s.params
    workers := List.replicate s.params.maxCores Worker.reset
    mem := s.mem
    turns := s.turns
    tick := s.tick
    trace := s.trace }

/-! ## The guards a micro-op runs under -/

/-- Two accesses overlap in at least one byte. -/
def Access.overlaps (x y : Access) : Bool := x.addr < y.addr + y.size && y.addr < x.addr + x.size

/-- Two accesses of one epoch conflict (20_memory.md R71): different workers, at least one a write, a common byte. -/
def Access.conflicts (x y : Access) : Bool := x.worker != y.worker && (x.write || y.write) && x.overlaps y

/-- The invocation is a race whichever accesses it makes (70_reset_and_hazards.md R322): the SampleBuffer overlaps a table in
use, and there is a second worker. One worker has no other agent to conflict with (20_memory.md R71) and runs on
(95_test_vectors.md section 11 allows it; DESIGN CHOICE, log 31). -/
def State.overlapRace (s : State) : Bool := 1 < s.cores && s.regionsOverlap

/-- The accesses belong to a race: the regions overlap (R322), or one of the accesses conflicts with an access of the
current epoch (R71). -/
def State.races (s : State) (acc : List Access) : Bool :=
  s.overlapRace || acc.any fun x => s.log.any fun y => x.conflicts y

/-- A read of worker `cur`. -/
def State.rd (s : State) (a n : Nat) : Access := { worker := s.cur, write := false, addr := a, size := n }

/-- A write of worker `cur`. -/
def State.wr (s : State) (a n : Nat) : Access := { worker := s.cur, write := true, addr := a, size := n }

/-- The validity checks of a micro-op in their order (20_memory.md R75): the first failure raises `E_BUS` with
`ERRINFO = addr` (60_exceptions.md R282), else `k` goes on. -/
def State.withBus (s : State) (l : List (Nat × Nat)) (k : Out) : Out :=
  match s.params.firstInvalid l with
  | some a => .next (s.raiseFault .bus (BitVec.ofNat 32 a))
  | none => k

/-- The race detector (20_memory.md R72): stop on a race, else record the accesses and go on. -/
def State.withAccess (s : State) (acc : List Access) (k : State → Out) : Out :=
  if s.races acc then .fault (.race s.cur) else k { s with log := acc ++ s.log }

/-- A 4-byte read of a micro-op; a byte without a value has no specified result (20_memory.md R80, U4). -/
def State.withWord (s : State) (a : Nat) (k : Word → Out) : Out :=
  match Memory.readWord s.mem a with
  | some w => k w
  | none => .refused .undefinedByte

/-- A 2-byte read of a micro-op. -/
def State.withHalf (s : State) (a : Nat) (k : Nat → Out) : Out :=
  match Memory.readHalf s.mem a with
  | some h => k h
  | none => .refused .undefinedByte

/-- 30_encoding.md R105 against the configuration registers; 41_butterfly_unit.md R144 refuses what is outside (log 7). -/
def State.ifAdmitted (s : State) (i : Instr) (k : Out) : Out :=
  if i.admitted s.regs.fftLen.toNat s.regs.brevLen.toNat then k else .refused .notAdmitted

end Sys2Proof.Machine
end

