-- ==== Sys2Proof/Machine/Scheduler.lean ====
section
/-! DEFINITION. The stage partitioner and radix-2 decimation scheduler (42_stage_scheduler.md): `block`, `prog(c)`, what
the scheduler hands to a worker, the loop registers (10_state.md R24), the trace (30_encoding.md R106). -/

namespace Sys2Proof.Machine

open Sys2Proof

/-- `ceil_div(a, b)` (00_scope.md R10). -/
def ceilDiv (a b : Nat) : Nat := (a + b - 1) / b

/-- `block(c, n, P)`, the contiguous-block partition (R162). -/
def block (c n p : Nat) : Nat × Nat :=
  let bs := ceilDiv n p
  let lo := c * bs
  if lo ≥ n then (lo, lo) else (lo, min ((c + 1) * bs) n)

/-- The items worker `c` owns of `n`, ascending (R162, R173). -/
def owned (c n p : Nat) : List Nat := List.range' (block c n p).1 ((block c n p).2 - (block c n p).1)

/-- A 16-bit index field (30_encoding.md R92). -/
def idx (k : Nat) : Half := BitVec.ofNat 16 k

/-- The group starts `i0 = j, j + n1, j + 2·n1, …` while `i0 < N` (R163). -/
def groupStarts (n n1 j : Nat) : List Nat := List.range' j (ceilDiv (n - j) n1) n1

/-- The butterflies of twiddle group `j` in the stage with group size `n1` (R163). -/
def groupOps (n n1 mod j : Nat) : List Instr :=
  (groupStarts n n1 j).map fun i0 => .bfly (idx i0) (idx (i0 + n1 / 2)) (idx (mod * j))

/-- The body of a twiddle stage for worker `c` (R163). -/
def stageBody (n n1 mod c p : Nat) : List Instr := (owned c (n1 / 2) p).flatMap (groupOps n n1 mod)

/-- The twiddle stages from group size `n1` on (R160, R161, R164): `BAR`, body, `BAR`, then `mod·2` and `n1/2`, while
`n1 > 2`. The first argument bounds the number of stages. -/
def twiddleStages (n c p : Nat) : Nat → Nat → Nat → List Instr
  | 0, _, _ => []
  | fuel + 1, n1, mod =>
    if n1 > 2 then
      .bar :: (stageBody n n1 mod c p ++ .bar :: twiddleStages n c p fuel (n1 / 2) (mod * 2))
    else []

/-- The body of the final stage: the pairs `(2p, 2p+1)` (R165). -/
def finalBody (n c p : Nat) : List Instr :=
  (owned c (n / 2) p).map fun k => .bflyn (idx (2 * k)) (idx (2 * k + 1))

/-- The bit-reversal phase (R168); empty with `BREV = 0`. -/
def brevBody (brev : Bool) (l c p : Nat) : List Instr :=
  if brev then (owned c (l / 2) p).map fun k => .swpt (idx k) else []

/-- `prog(c)` for a configuration `(N, P, brev, L)` (R160); `twidCoefModifier` starts at 1 (R164). -/
def prog (n p : Nat) (brev : Bool) (l c : Nat) : List Instr :=
  twiddleStages n c p n n 1 ++ .bar :: (finalBody n c p ++ .bar :: (brevBody brev l c p ++ [.endOp]))

/-- `prog(c)` of the configuration registers (R160). -/
def State.prog (s : State) (c : Nat) : List Instr :=
  Machine.prog s.fftN s.cores s.regs.brev s.regs.brevLen.toNat c

/-- The next micro-op `prog(c)[pc[c]]` (R160). -/
def State.nextOp (s : State) (c : Nat) : Option Instr := (s.prog c)[(s.worker c).pc]?

/-- The code word the scheduler hands to worker `c`: the next micro-op in format U (30_encoding.md R90), for a worker
that is `RUN` (R227). -/
def State.issued (s : State) (c : Nat) : Option Code :=
  if (s.worker c).ws = .run then (s.nextOp c).map encode else none

/-- Worker `c` is at the barrier (43_barrier_controller.md R191): `RUN`, and the word issued is `BAR`. -/
def State.atBar (s : State) (c : Nat) : Bool := s.issued c == some (encode .bar)

/-- `arrived`, derived from the worker state (10_state.md R26). -/
def State.arrived (s : State) : List Nat := (List.range s.cores).filter s.atBar

/-- The launcher state (10_state.md R47). -/
inductive LauncherState where
  | idle
  | running
  deriving DecidableEq, Repr

/-- `LS = RUNNING` exactly when `STATUS.BUSY = 1` (R47). -/
def State.ls (s : State) : LauncherState := if s.status.busy then .running else .idle

/-- The word of `BAR` (30_encoding.md R95). -/
def barWord : UWord := encodeFields 3 0 0 0

/-- Worker `c`'s trace output (30_encoding.md R106): the words issued to it, in issue order (log 30). -/
def State.traceOf (s : State) (c : Nat) : List UWord := (s.trace.filter fun x => x.1 == c).map Prod.snd

/-! ## The loop registers (10_state.md R24), the hardware form of `pc[c]` (R22) -/

/-- Register `PH`, 3 bits: the phase, with the place of the stage's two barriers (log 9). It shows `done` as soon as
`END` is the next micro-op, and an opening `BAR` where 42_stage_scheduler.md R175 says `INIT`: R24 and R175 give `PH` no value
there (DESIGN CHOICE, unsafe, log 27). -/
inductive Phase where
  | twOpen
  | twBody
  | twClose
  | finOpen
  | finBody
  | finClose
  | brev
  | done
  deriving DecidableEq, Repr

/-- The loop registers of one worker (R24). `MOD` doubles, `N1` halves; `J`, `JEND` serve the final and the
bit-reversal phase as pair index. What a register holds where no rule gives it a value is the model's choice
(DESIGN CHOICE, unsafe, log 27). So is the width: R24 gives each register a number of bits, and the view holds the whole
number, which differs only for a worker whose share is empty (log 27; `LoopRegs.enter`). -/
structure LoopRegs where
  c : Nat
  n1 : Nat
  n2 : Nat
  mod : Nat
  bs : Nat
  j : Nat
  jend : Nat
  i0 : Nat
  ph : Phase
  deriving DecidableEq, Repr

/-- The configuration the scheduler reads (R160). -/
structure SchedConfig where
  n : Nat
  p : Nat
  brev : Bool
  l : Nat
  deriving DecidableEq, Repr

/-- Enter a phase whose `n` items are partitioned: to `body` with the owned range, or to `skip` if it is empty (R162).
In the final and the bit-reversal phase, which have no group start, `I0` takes the first owned pair's index, and `BS` the
size of the phase's blocks (DESIGN CHOICE, unsafe, log 27). For an empty range `J`, `JEND` and `I0` take the bound `c * bs` of
R162 as it stands, though it can exceed R24's widths (MAXLOG 2, NCORES 32, c 31: 31 in 2 and 3 bits), and no rule says what
the hardware's registers then hold (DESIGN CHOICE, unsafe, log 27). -/
def LoopRegs.enter (r : LoopRegs) (cfg : SchedConfig) (n : Nat) (body skip : Phase) : LoopRegs :=
  let b := block r.c n cfg.p
  { r with bs := ceilDiv n cfg.p, j := b.1, jend := b.2, i0 := b.1, ph := if b.1 < b.2 then body else skip }

/-- The loop registers after the fork (R226). `BS`, `J`, `JEND` and `I0` are 0 until the first opening `BAR` is released:
R24, R160 and R226 give them no value there (DESIGN CHOICE, unsafe, log 27). -/
def LoopRegs.init (cfg : SchedConfig) (c : Nat) : LoopRegs :=
  { c := c, n1 := cfg.n, n2 := cfg.n / 2, mod := 1, bs := 0, j := 0, jend := 0, i0 := 0
    ph := if cfg.n > 2 then .twOpen else .finOpen }

/-- The micro-op the loop registers stand at. -/
def LoopRegs.op (r : LoopRegs) : Instr :=
  match r.ph with
  | .twOpen => .bar
  | .twBody => .bfly (idx r.i0) (idx (r.i0 + r.n2)) (idx (r.mod * r.j))
  | .twClose => .bar
  | .finOpen => .bar
  | .finBody => .bflyn (idx (2 * r.j)) (idx (2 * r.j + 1))
  | .finClose => .bar
  | .brev => .swpt (idx r.j)
  | .done => .endOp

/-- Advance the loop registers past one micro-op (R160, R171). `PH` becomes `done` where `END` is the next micro-op, the
worker still being `RUN`: R175 ties `DONE` to `ws[c] = ENDED`, and R24 gives `PH` no value for this point. Past the final
stage `N1`, `N2` and `MOD` keep its values, which R24 does not say (both DESIGN CHOICE, unsafe, log 27). -/
def LoopRegs.next (r : LoopRegs) (cfg : SchedConfig) : LoopRegs :=
  match r.ph with
  | .twOpen => r.enter cfg r.n2 .twBody .twClose
  | .twBody =>
    if r.i0 + r.n1 < cfg.n then { r with i0 := r.i0 + r.n1 }
    else if r.j + 1 < r.jend then { r with j := r.j + 1, i0 := r.j + 1 }
    else { r with ph := .twClose }
  | .twClose =>
    { r with mod := r.mod * 2, n1 := r.n2, n2 := r.n2 / 2, ph := if r.n2 > 2 then .twOpen else .finOpen }
  | .finOpen => r.enter cfg (cfg.n / 2) .finBody .finClose
  | .finBody => if r.j + 1 < r.jend then { r with j := r.j + 1 } else { r with ph := .finClose }
  | .finClose => if cfg.brev then r.enter cfg (cfg.l / 2) .brev .done else { r with ph := .done }
  | .brev => if r.j + 1 < r.jend then { r with j := r.j + 1 } else { r with ph := .done }
  | .done => r

/-- The loop registers after `k` micro-ops. -/
def LoopRegs.after (cfg : SchedConfig) (c : Nat) : Nat → LoopRegs
  | 0 => LoopRegs.init cfg c
  | k + 1 => (LoopRegs.after cfg c k).next cfg

/-- The loop registers of worker `c`, computed from `pc[c]` (R22: "the two forms carry the same information"; log 9).
Between invocations they are unspecified, and what this gives there is the model's choice (log 28). -/
def State.loopRegs (s : State) (c : Nat) : LoopRegs :=
  LoopRegs.after { n := s.fftN, p := s.cores, brev := s.regs.brev, l := s.regs.brevLen.toNat } c (s.worker c).pc

end Sys2Proof.Machine
end

