-- ==== Sys2Proof/Machine/Barrier.lean ====
section
/-! DEFINITION. The barrier controller and the meaning of `BAR` (43_barrier_controller.md R190 to R197). -/

namespace Sys2Proof.Machine

open Sys2Proof

/-- The release is enabled (R192): `LS = RUNNING` and every participant is `RUN` and at `BAR`. -/
def State.releaseEnabled (s : State) : Bool := s.status.busy && s.allCores s.atBar

/-- The release (R192), one atomic transition: every participant's `pc` grows by 1, the epoch ends. The `BAR` of each
participant is shown on its trace output here (30_encoding.md R106; log 30). -/
def State.release (s : State) : State :=
  { s with
    workers := updateFirst (fun w => { w with pc := w.pc + 1 }) s.cores s.workers
    epoch := s.epoch + 1
    log := []
    trace := s.trace ++ (List.range s.cores).map fun c => (c, barWord) }

/-- `BAR` (R191): arrival and wait. No worker passes it alone; it ends, for all participants at once, by the
controller's release when all are at it (R192), and until then `pc` does not move (log 20). -/
def execBar (s : State) : Out := if s.releaseEnabled then .next s.release else .next s

end Sys2Proof.Machine
end

