-- ==== Sys2Proof/Machine/Brev.lean ====
section
/-! DEFINITION. The meaning of `SWPT`, the bit-reversal permutation engine (44_bit_reversal_engine.md R207, R208). -/

namespace Sys2Proof.Machine

open Sys2Proof

/-- `SWPT p` (R207), executed by worker `cur`: the table entries' addresses, the entries, the index checks (R208), the
sample addresses, then the exchange of whole words through `RA` and `RB`. -/
def execSwpt (p : Half) (s : State) : Out :=
  let e0 := s.brevPtr (2 * p.toNat)
  let e1 := s.brevPtr (2 * p.toNat + 1)
  s.ifAdmitted (.swpt p) <|
  s.withBus [(e0, 2), (e1, 2)] <|
  s.withAccess [s.rd e0 2, s.rd e1 2] fun t =>
  t.withHalf e0 fun a => t.withHalf e1 fun b =>
  if a ≥ t.fftN then .next (t.raiseFault .brevIdx (BitVec.ofNat 32 a))
  else if b ≥ t.fftN then .next (t.raiseFault .brevIdx (BitVec.ofNat 32 b))
  else
    let pa := t.samplePtr a
    let pb := t.samplePtr b
    t.withBus [(pa, 4), (pb, 4)] <|
    t.withAccess [t.rd pa 4, t.rd pb 4, t.wr pa 4, t.wr pb 4] fun u =>
    u.withWord pa fun x => u.withWord pb fun y =>
    .next (((u.storeWord pa y).storeWord pb x).retire { u.worker u.cur with ra := x, rb := y })

end Sys2Proof.Machine
end

