-- ==== Sys2Proof/Machine/Arith.lean ====
section
/-! DEFINITION. Packed dual-lane Q15 arithmetic (40_packed_q15_arithmetic.md) and the butterfly functions
(41_butterfly_unit.md R140). Every function is pure and total (R130). -/

namespace Sys2Proof.Machine

open Sys2Proof

/-- `sra(v, n)`: arithmetic right shift, `floor(v / 2^n)` on integers (00_scope.md R10). -/
def sra (v : Int) (n : Nat) : Int := v / ((2 ^ n : Nat) : Int)

/-- `v[15:0]` of an integer; read as `s16` it is `wrap16(v)` (R10). -/
def low16 (v : Int) : Half := BitVec.ofInt 16 v

/-- `wrap16(v)`: keep bits 15:0, read as `s16` (R10). -/
def wrap16 (v : Int) : Int := (low16 v).toInt

/-- `sext_32(v mod 2^32)` (R126). -/
def wrap32 (v : Int) : Int := (BitVec.ofInt 32 v).toInt

/-- Lane 0 of a packed word, the real part (R121). -/
def lane0 (p : Word) : Int := (p.extractLsb' 0 16).toInt

/-- Lane 1 of a packed word, the imaginary part (R121). -/
def lane1 (p : Word) : Int := (p.extractLsb' 16 16).toInt

/-- `pack(re, im) = {im[15:0], re[15:0]}` (R121). -/
def pack (re im : Int) : Word := low16 im ++ low16 re

/-- `HALF2` (R122). -/
def half2 (p : Word) : Word := pack (sra (lane0 p) 1) (sra (lane1 p) 1)

/-- `ADD2` (R123): per lane `wrap16(P + Q)`. -/
def add2 (p q : Word) : Word := pack (lane0 p + lane0 q) (lane1 p + lane1 q)

/-- `SUB2` (R124): per lane `wrap16(P - Q)`. -/
def sub2 (p q : Word) : Word := pack (lane0 p - lane0 q) (lane1 p - lane1 q)

/-- `DOTP` (R126): an `s32`. -/
def dotp (p q : Word) : Int := wrap32 (lane0 p * lane0 q + lane1 p * lane1 q)

/-- `XDIF` (R127): the exact difference of the two exact products, an `s32`. -/
def xdif (p q : Word) : Int := wrap32 (lane1 p * lane0 q - lane0 p * lane1 q)

/-- `Q15NARROW(v) = wrap16(sra(v, 15))` (R128). -/
def q15narrow (v : Int) : Int := wrap16 (sra v 15)

/-- The difference `t` (R140 step 2), which the unit holds in `RT` (10_state.md R25). -/
def bfDiff (a b : Word) : Word := sub2 (half2 a) (half2 b)

/-- `A'` of the butterfly, both modes (R140 step 3). -/
def bfSum (a b : Word) : Word := add2 (half2 a) (half2 b)

/-- `B'` in rotation mode: `t × conj(W)` (R140 step 4). -/
def bfRot (a b w : Word) : Word := pack (q15narrow (dotp (bfDiff a b) w)) (q15narrow (xdif (bfDiff a b) w))

/-- `BF(A, B, W)` (R140). -/
def bf (a b w : Word) : Word × Word := (bfSum a b, bfRot a b w)

/-- `BFN(A, B)` (R140). -/
def bfn (a b : Word) : Word × Word := (bfSum a b, bfDiff a b)

end Sys2Proof.Machine
end

