-- ==== Sys2Proof/Machine/Butterfly.lean ====
section
/-! DEFINITION. The meanings of `BFLY` and `BFLYN` (41_butterfly_unit.md R141, R142), executed by worker `cur`. -/

namespace Sys2Proof.Machine

open Sys2Proof

/-- `BFLY a, b, ic` (R141). Checks in R272's order; all reads before the writes (20_memory.md R65). -/
def execBfly (a b ic : Half) (s : State) : Out :=
  let pa := s.samplePtr a.toNat
  let pb := s.samplePtr b.toNat
  let pw := s.twidPtr ic.toNat
  s.ifAdmitted (.bfly a b ic) <|
  s.withBus [(pa, 4), (pb, 4), (pw, 4)] <|
  s.withAccess [s.rd pa 4, s.rd pb 4, s.rd pw 4, s.wr pa 4, s.wr pb 4] fun t =>
  t.withWord pa fun x => t.withWord pb fun y => t.withWord pw fun w =>
  .next (((t.storeWord pa (bf x y w).1).storeWord pb (bf x y w).2).retire
    { t.worker t.cur with ra := x, rb := y, rw := w, rt := bfDiff x y })

/-- `BFLYN a, b` (R142): no twiddle entry is read. `RT` takes the difference, `RW` is left (DEDUCED, log 10). -/
def execBflyn (a b : Half) (s : State) : Out :=
  let pa := s.samplePtr a.toNat
  let pb := s.samplePtr b.toNat
  s.ifAdmitted (.bflyn a b) <|
  s.withBus [(pa, 4), (pb, 4)] <|
  s.withAccess [s.rd pa 4, s.rd pb 4, s.wr pa 4, s.wr pb 4] fun t =>
  t.withWord pa fun x => t.withWord pb fun y =>
  .next (((t.storeWord pa (bfn x y).1).storeWord pb (bfn x y).2).retire
    { t.worker t.cur with ra := x, rb := y, rt := bfDiff x y })

end Sys2Proof.Machine
end

