-- ==== Sys2Proof/Machine/Launcher.lean ====
section
/-! DEFINITION. The fork/join launcher, the host commands and `END` (45_launcher_and_host_commands.md R220 to R231). -/

namespace Sys2Proof.Machine

open Sys2Proof

/-- A power of two (60_exceptions.md R275: no more than one bit set). -/
def isPow2 (n : Nat) : Bool := n == 2 ^ n.log2

/-- `check_config()` (R224): the first check that fails, with its code and the value recorded; none if all pass. All
comparisons are on integers. -/
def configError (p : Params) (r : Regs) : Option (ErrCode × Word) :=
  let n := r.fftLen.toNat
  if n < 4 ∨ n > 2 ^ p.maxLog ∨ isPow2 n = false then some (.fftLen, r.fftLen)
  else if r.ncores.toNat < 1 ∨ r.ncores.toNat > p.maxCores then some (.nCores, r.ncores)
  else if r.bufLen.toNat ≠ 2 * n then some (.bufLen, r.bufLen)
  else if r.twidLen.toNat < n / 2 then some (.twidLen, r.twidLen)
  else if r.brev = true ∧ (r.brevLen.toNat % 2 = 1 ∨ r.brevLen.toNat > n) then some (.brevLen, r.brevLen)
  else if r.bufBase.toNat % 4 ≠ 0 ∨ r.bufBase.toNat + 4 * n > 2 ^ 32 then some (.addr, r.bufBase)
  else if r.twidBase.toNat % 4 ≠ 0 ∨ r.twidBase.toNat + 2 * n > 2 ^ 32 then some (.addr, r.twidBase)
  else if r.brev = true ∧ (r.brevBase.toNat % 2 ≠ 0 ∨ r.brevBase.toNat + 2 * r.brevLen.toNat > 2 ^ 32) then
    some (.addr, r.brevBase)
  else none

/-- `fork()` (R226): every `c < coreCount` becomes `RUN` at `pc = 0`, the others stay; `BUSY <- 1`; the epochs start anew. -/
def State.fork (s : State) : State :=
  { s with
    workers := updateFirst (fun w => { w with ws := .run, pc := 0 }) s.cores s.workers
    status := { s.status with busy := true }
    epoch := 0
    log := [] }

/-- `START` (R223): context check (R221), busy check (R222), then the accepted command: clear, check (R224), inverse
request (R225), fork (R226). -/
def execStart (s : State) : Out :=
  if s.ctx = false then .next s.setUnsup
  else if s.status.busy then .next s.setOvr
  else
    let t := s.acceptStart
    match configError t.params t.regs with
    | some (e, info) => .next (t.refuseConfig e info)
    | none => if t.regs.inv then .next t.inverseDone else .next t.fork

/-- `CLEAR` (R230). `ctx` is ignored. -/
def execClear (s : State) : Out := if s.status.busy then .next s.setOvr else .next s.clearStatus

/-- `NOP` (R231). `ctx` is ignored. -/
def execNop (s : State) : Out := if s.status.busy then .next s.setOvr else .next s

/-- The reserved command code 3 (30_encoding.md R101). -/
def execReservedCmd3 (s : State) : Out := if s.status.busy then .next s.setOvr else .next s

/-- `END` (R228): `ws[c] <- ENDED`, `pc[c]` unchanged, nothing else. -/
def execEnd (s : State) : Out := .next (s.setWorker s.cur { s.worker s.cur with ws := .ended })

/-- The join is enabled (R229). -/
def State.joinEnabled (s : State) : Bool := s.status.busy && s.allCores fun c => (s.worker c).ws == .ended

/-- The join (R229): every context becomes `IDLE`, `BUSY <- 0`, `DONE <- 1`. The contexts keep `pc`, `RA`, `RB`, `RW` and
`RT` until the next fork: 93_implementation_defined.md U8 leaves them unspecified between invocations (DESIGN CHOICE,
unsafe, log 28). -/
def State.join (s : State) : State :=
  { s with
    workers := s.workers.map fun w => { w with ws := .idle }
    status := { s.status with busy := false, done := true }
    log := [] }

end Sys2Proof.Machine
end

