-- ==== Sys2Proof/Machine/Dispatch.lean ====
section
/-! DEFINITION. What each operation does: one arm per constructor of `Instr`. A micro-op is executed by worker
`State.cur`, a host command with the sideband `State.ctx`. -/

namespace Sys2Proof.Machine

open Sys2Proof

def exec (i : Instr) (s : State) : Host.Outcome State Fault Refusal :=
  match i with
  | .bfly a b ic => Sys2Proof.Machine.execBfly a b ic s
  | .bflyn a b => Sys2Proof.Machine.execBflyn a b s
  | .bar => Sys2Proof.Machine.execBar s
  | .swpt p => Sys2Proof.Machine.execSwpt p s
  | .endOp => Sys2Proof.Machine.execEnd s
  | .nop => Sys2Proof.Machine.execNop s
  | .start => Sys2Proof.Machine.execStart s
  | .clear => Sys2Proof.Machine.execClear s
  | .reservedCmd3 => Sys2Proof.Machine.execReservedCmd3 s

end Sys2Proof.Machine
end

