-- ==== Sys2Proof/Machine/HostPort.lean ====
section
/-! DEFINITION. The host's register accesses (45_launcher_and_host_commands.md R232, R233, 10_state.md R27, R40), its
memory accesses (20_memory.md R73, 70_reset_and_hazards.md R321), and the turns of every agent (R239). -/

namespace Sys2Proof.Machine

open Sys2Proof

/-- The fifteen host registers (10_state.md R27). -/
inductive HostReg where
  | cap
  | fftLen
  | twidBase
  | twidLen
  | brevBase
  | brevLen
  | bufBase
  | bufLen
  | flags
  | scale
  | ncores
  | ctrl
  | cmd
  | status
  | errInfo
  deriving DecidableEq, Repr

/-- The register at a byte offset of the window; none at a reserved offset (R27). -/
def HostReg.ofOffset (o : Nat) : Option HostReg :=
  match o with
  | 0x00 => some .cap
  | 0x04 => some .fftLen
  | 0x08 => some .twidBase
  | 0x0C => some .twidLen
  | 0x10 => some .brevBase
  | 0x14 => some .brevLen
  | 0x18 => some .bufBase
  | 0x1C => some .bufLen
  | 0x20 => some .flags
  | 0x24 => some .scale
  | 0x28 => some .ncores
  | 0x2C => some .ctrl
  | 0x30 => some .cmd
  | 0x34 => some .status
  | 0x38 => some .errInfo
  | _ => none

/-- What a host read of a register returns (R232); `CMD` reads 0 (R41). -/
def State.readReg (s : State) : HostReg → Word
  | .cap => s.params.capWord
  | .fftLen => s.regs.fftLen
  | .twidBase => s.regs.twidBase
  | .twidLen => s.regs.twidLen
  | .brevBase => s.regs.brevBase
  | .brevLen => s.regs.brevLen
  | .bufBase => s.regs.bufBase
  | .bufLen => s.regs.bufLen
  | .flags => s.regs.flagsWord
  | .scale => s.regs.scale
  | .ncores => s.regs.ncores
  | .ctrl => s.regs.ctrlWord
  | .cmd => 0
  | .status => s.status.toWord
  | .errInfo => s.errInfo

/-- What a host read of an offset returns: 0 at a reserved offset (R27). -/
def State.readOffset (s : State) (o : Nat) : Word :=
  match HostReg.ofOffset o with
  | some r => s.readReg r
  | none => 0

/-- A write to a register at offsets 0x04 to 0x28 (10_state.md R40): while `BUSY` it is ignored and sets `OVR`. -/
def State.lockedWrite (s : State) (r : Regs) : State := if s.status.busy then s.setOvr else { s with regs := r }

/-- A host write of `v` to a register (R233). A `CMD` write is a command and is not made here; read-only registers
ignore the write. -/
def State.writeReg (s : State) (r : HostReg) (v : Word) : State :=
  match r with
  | .cap => s
  | .fftLen => s.lockedWrite { s.regs with fftLen := v }
  | .twidBase => s.lockedWrite { s.regs with twidBase := v }
  | .twidLen => s.lockedWrite { s.regs with twidLen := v }
  | .brevBase => s.lockedWrite { s.regs with brevBase := v }
  | .brevLen => s.lockedWrite { s.regs with brevLen := v }
  | .bufBase => s.lockedWrite { s.regs with bufBase := v }
  | .bufLen => s.lockedWrite { s.regs with bufLen := v }
  | .flags => s.lockedWrite { s.regs with inv := v.getLsbD 0, brev := v.getLsbD 1 }
  | .scale => s.lockedWrite { s.regs with scale := v }
  | .ncores => s.lockedWrite { s.regs with ncores := v }
  | .ctrl => { s with regs := { s.regs with ie := v.getLsbD 0 } }
  | .cmd => s
  | .status => s
  | .errInfo => s

/-- Byte `i` of an access at bus address `addr` lies in the register window `[REGBASE, REGBASE + 64)` (R27). -/
def Params.inWindow (p : Params) (addr : Word) (i : Nat) : Bool :=
  (addr + BitVec.ofNat 32 i - p.regBase).toNat < 64

/-- An access of `n` bytes touches the register window. -/
def Params.touchesWindow (p : Params) (addr : Word) (n : Nat) : Bool := (List.range n).any (p.inWindow addr)

/-- The offset of a bus address from `REGBASE` (20_memory.md R76). -/
def Params.offset (p : Params) (addr : Word) : Nat := (addr - p.regBase).toNat

/-- A host register access: one outside the window is not to this block and passes (log 13); one that is not an aligned
32-bit access is unspecified (20_memory.md R76, U10) and refused; else `k` at the offset. -/
def State.withOffset (s : State) (addr : Word) (n : Nat) (k : Nat → Out) : Out :=
  if s.params.touchesWindow addr n then
    if n = 4 ∧ s.params.offset addr % 4 = 0 then k (s.params.offset addr) else .refused .registerAccess
  else .next s

/-- A command: the `CMD` write `v` with the sideband `ctx` (R41, R46). -/
def State.command (s : State) (v : Word) (ctx : Bool) : Out := exec (decodeC v) { s with ctx := ctx }

/-- A host read (R232): the value goes to the bus, no state of the block changes. -/
def State.hostRead (s : State) (addr : Word) (n : Nat) : Out :=
  s.withOffset addr n fun o => .next { s with rdata := s.readOffset o }

/-- A host write (R233). -/
def State.hostWrite (s : State) (addr : Word) (n : Nat) (v : Word) (ctx : Bool) : Out :=
  s.withOffset addr n fun o =>
    match HostReg.ofOffset o with
    | some .cmd => s.command v ctx
    | some r => .next (s.writeReg r v)
    | none => .next s

/-- The host reads a byte of memory; while `BUSY` no byte of the SampleBuffer (70_reset_and_hazards.md R321; log 6). -/
def State.hostMemRead (s : State) (addr : Word) : Out :=
  if s.status.busy && s.inBuffer addr.toNat then .fault .hostRace
  else
    match Memory.read s.mem addr.toNat with
    | some b => .next { s with rdata := b.setWidth 32 }
    | none => .refused .undefinedByte

/-- The host or the stager writes a byte of memory; while `BUSY` no byte of the SampleBuffer nor of a table in use
(R321; log 6). -/
def State.hostMemWrite (s : State) (addr : Word) (v : Byte) : Out :=
  if s.status.busy && (s.inBuffer addr.toNat || s.inTwiddles addr.toNat || s.inBrevTable addr.toNat) then
    .fault .hostRace
  else .next { s with mem := Memory.write s.mem addr.toNat v }

/-- Worker `c`'s execution part takes a format-U word (30_encoding.md R90): the word shows on the trace (R106), and the
operation it decodes to is executed; a reserved word is refused (R98). -/
def State.runWord (s : State) (c : Nat) (w : UWord) : Out :=
  match decode (.u w) with
  | .ok i => exec i { s with cur := c, trace := s.trace ++ [(c, w)] }
  | .error _ => .refused .reservedMicroOp

/-- Worker `c`'s step (R227), enabled when the word issued to it is not `BAR`; a turn given while it is not enabled
passes (log 14). -/
def State.workerTurn (s : State) (c : Nat) : Out :=
  match s.issued c with
  | some (.u w) => if w = barWord then .next s else s.runWord c w
  | _ => .next s

/-- A hand-written word may stand in the place of worker `c`'s next micro-op: the worker is `RUN`, and that micro-op
accesses memory, so that the word passes neither a `BAR` (43_barrier_controller.md R197) nor the `END` (10_state.md R22). -/
def State.takesWord (s : State) (c : Nat) : Bool :=
  (s.worker c).ws == .run && (s.nextOp c).any Instr.accessesMemory

/-- A hand-written word for worker `c` (log 8). A hand-written `BAR` is no step of the worker: `pc` does not move (R191),
and the release stays the controller's (R192). -/
def State.issueTurn (s : State) (c : Nat) (w : UWord) : Out :=
  if s.takesWord c = true ∧ w ≠ barWord then s.runWord c w else .next s

/-- The launcher's join step (R229); a turn given while it is not enabled passes (log 14). -/
def State.joinTurn (s : State) : Out := if s.joinEnabled then .next s.join else .next s

/-- One turn (45_launcher_and_host_commands.md R239). The barrier controller's step is the end of the `BAR` of all
participants (log 20). -/
def takeTurn (t : Turn) (s : State) : Out :=
  match t with
  | .regRead addr n => s.hostRead addr n
  | .regWrite addr n v ctx => s.hostWrite addr n v ctx
  | .memRead addr => s.hostMemRead addr
  | .memWrite addr v => s.hostMemWrite addr v
  | .reset => .next s.doReset
  | .worker c => s.workerTurn c
  | .release => exec .bar s
  | .join => s.joinTurn
  | .issue c w => s.issueTurn c w

/-- The agent a free choice names: the barrier controller, the launcher, or a worker (R239; log 2). -/
def Turn.ofFree : Nat → Turn
  | 0 => .release
  | 1 => .join
  | c + 2 => .worker c

/-- The turn that is next, and the state once it is taken off (log 2). -/
def State.popTurn (s : State) : Turn × State :=
  match s.turns with
  | t :: rest => (t, { s with turns := rest })
  | [] => (Turn.ofFree (Config.freeTurn s.tick), { s with tick := s.tick + 1 })

/-! ## Host-side pseudo-operations (30_encoding.md R104) -/

/-- The bus address of an offset. -/
def Params.regAddr (p : Params) (o : Nat) : Word := p.regBase + BitVec.ofNat 32 o

/-- `WR <REG>, <value>`: an aligned 32-bit write at an offset. -/
def Turn.wr (p : Params) (o : Nat) (v : Word) : Turn := .regWrite (p.regAddr o) 4 v true

/-- `DESC fftLen, twBase, twLen, brBase, brLen`. -/
def Turn.desc (p : Params) (fftLen twBase twLen brBase brLen : Word) : List Turn :=
  [.wr p 0x04 fftLen, .wr p 0x08 twBase, .wr p 0x0C twLen, .wr p 0x10 brBase, .wr p 0x14 brLen]

/-- `XFORM buf, inv, brev, scale, cores` for the `FFTLEN` value `fftLen`, up to and with `CMD START` (`ctx = 1`); `WAIT`
is the host's own loop. -/
def Turn.xform (p : Params) (fftLen buf : Word) (inv brev : Bool) (scale cores : Word) : List Turn :=
  [.wr p 0x18 buf, .wr p 0x1C (2 * fftLen), .wr p 0x20 (0#30 ++ BitVec.ofBool brev ++ BitVec.ofBool inv),
   .wr p 0x24 scale, .wr p 0x28 cores, .wr p 0x30 1]

/-! ## What takes a given word to run at once (log 8) -/

/-- Store a zero where a byte holds no value. -/
def Memory.stage (m : Memory) (a : Nat) : Memory :=
  match Memory.read m a with
  | some _ => m
  | none => Memory.write m a 0

/-- Stage `n` bytes (the launch premise, 20_memory.md R80, for what one micro-op reads). -/
def Memory.stageN (m : Memory) : Nat → Nat → Memory
  | _, 0 => m
  | a, n + 1 => Memory.stageN (Memory.stage m a) (a + 1) n

/-- A running invocation of one worker, which stands at `pc`, on a platform with `MAXLOG = 16` and `FFTLEN = 65536`, so
that every 16-bit index field names a sample; the three regions stand apart and the registers pass `check_config()`. With
`pc` 0 the worker is at its first `BAR`; with `pc` 1 that `BAR` has been released and its next micro-op is a `BFLY`. -/
def State.launched (s : State) (pc : Nat) : State :=
  { s with
    params := { s.params with maxLog := 16 }
    regs := { s.regs with
      fftLen := 0x10000, bufBase := 0, bufLen := 0x20000, twidBase := 0x40000, twidLen := 0x8000
      brevBase := 0x60000, brevLen := 0x10000, brev := true, inv := false, ncores := 1 }
    status := { s.status with busy := true, done := false }
    workers := s.workers.set 0 { s.worker 0 with ws := .run, pc := pc }
    epoch := pc
    log := [] }

/-- `s` with the operands a format-U word names holding values: samples `f0` and `f1`, twiddle entry `f2`, table pair
`f0`, and sample 0, which a staged table entry names. -/
def State.withOperands (s : State) (w : UWord) : State :=
  let m1 := Memory.stageN s.mem (s.samplePtr (f0Field w).toNat) 4
  let m2 := Memory.stageN m1 (s.samplePtr (f1Field w).toNat) 4
  let m3 := Memory.stageN m2 (s.twidPtr (f2Field w).toNat) 4
  let m4 := Memory.stageN m3 (s.brevPtr (2 * (f0Field w).toNat)) 4
  { s with mem := Memory.stageN m4 (s.samplePtr 0) 4 }

/-- The state whose very next step runs the word: a command is written to `CMD` with `ctx = 1`; `BAR` is run by the
controller's release, all participants being at it; any other micro-op is handed to worker 0. -/
def State.placeWord (s : State) (nbits w : Nat) : State :=
  if nbits ≤ 32 then { s with turns := .wr s.params 0x30 (BitVec.ofNat 32 w) :: s.turns }
  else if BitVec.ofNat 64 w = barWord then
    let t := if s.releaseEnabled then s else s.launched 0
    { t with turns := .release :: t.turns }
  else
    let t := (if s.takesWord 0 then s else s.launched 1).withOperands (BitVec.ofNat 64 w)
    { t with turns := .issue 0 (BitVec.ofNat 64 w) :: t.turns }

end Sys2Proof.Machine
end

