-- ==== Sys2Proof/Machine/Step.lean ====
section
/-! DEFINITION. One step of the block: the next turn is taken (45_launcher_and_host_commands.md R239). -/

namespace Sys2Proof.Machine

open Sys2Proof

/-- One step: the agent whose turn it is acts, atomically. -/
def step (s : State) : Host.Outcome State Fault Refusal := takeTurn s.popTurn.1 s.popTurn.2

/-- `s` with a table row's word placed so that the very next step runs it (log 8). -/
def State.withFetchWord (s : State) (nbits w : Nat) : State := s.placeWord nbits w

end Sys2Proof.Machine
end

