-- ==== Sys2Proof/Safety.lean ====
section
/-! DEFINITION. What the claims speak of: the invariant of the block, the launch premises of the host, and the spec's
pseudocode on pairs, which the packed datapath is compared with. -/

namespace Sys2Proof.Machine

open Sys2Proof

/-! ## The host's obligations at a launch -/

/-- Every byte of `[a, a + n)` holds a value. -/
def Memory.defined (m : Memory) (a n : Nat) : Prop := ∀ i, i < n → (Memory.read m (a + i)).isSome

/-- The launch premise on memory contents (20_memory.md R80). -/
def State.launchPremise (s : State) : Prop :=
  Memory.defined s.mem (s.samplePtr 0) (4 * s.fftN) ∧
  Memory.defined s.mem (s.twidPtr 0) (2 * s.fftN) ∧
  (s.regs.brev = true → Memory.defined s.mem (s.brevPtr 0) (2 * s.regs.brevLen.toNat))

/-- The SampleBuffer overlaps neither table in use (70_reset_and_hazards.md R322). -/
def State.regionsApart (s : State) : Prop :=
  ∀ a, s.inBuffer a = true → s.inTwiddles a = false ∧ s.inBrevTable a = false

/-! ## The invariant -/

/-- How many `BAR` a list of micro-ops holds. -/
def barCount (l : List Instr) : Nat := l.countP (· == .bar)

/-- A configuration error's code (60_exceptions.md R271). -/
def ErrCode.isConfig : ErrCode → Bool
  | .fftLen => true
  | .nCores => true
  | .bufLen => true
  | .twidLen => true
  | .brevLen => true
  | .addr => true
  | .none => false
  | .bus => false
  | .brevIdx => false

/-- A worker fault's code (R271). -/
def ErrCode.isWorker : ErrCode → Bool
  | .bus => true
  | .brevIdx => true
  | .none => false
  | .fftLen => false
  | .nCores => false
  | .bufLen => false
  | .twidLen => false
  | .brevLen => false
  | .addr => false

/-- What holds of the block in every run without hand-issued words. -/
structure Inv (s : State) : Prop where
  /-- The parameters lie in R7's ranges. -/
  params : s.params.legal = true
  /-- There are `MAXCORES` contexts (R20). -/
  contexts : s.workers.length = s.params.maxCores
  /-- Memory keeps its canonical form. -/
  memory : Memory.wf s.mem
  /-- No hand-issued word is pending. -/
  noIssue : ∀ c w, Turn.issue c w ∉ s.turns
  /-- No worker takes part while nothing runs (R23). -/
  idle : s.status.busy = false → ∀ c, (s.worker c).ws = .idle
  /-- The detector holds nothing between invocations. -/
  idleLog : s.status.busy = false → s.log = []
  /-- A running invocation has a configuration that passed the checks, and is no inverse request (R40, R225). -/
  config : s.status.busy = true → configError s.params s.regs = none ∧ s.regs.inv = false
  /-- `DONE` and `INVNOP` are 0 while `BUSY` (R42). -/
  notDone : s.status.busy = true → s.status.done = false ∧ s.status.invnop = false
  /-- Contexts `k ≥ coreCount` take no part (43_barrier_controller.md R195). -/
  spare : ∀ c, s.cores ≤ c → (s.worker c).ws = .idle
  /-- Every participant was forked (R226). -/
  forked : s.status.busy = true → ∀ c, c < s.cores → (s.worker c).ws ≠ .idle
  /-- `pc[c] < length(prog(c))` (R22); an `ENDED` worker stands at `END`, a `FAULTED` one at a micro-op that accesses memory. -/
  inProg : s.status.busy = true → ∀ c, c < s.cores → ∃ i, s.nextOp c = some i ∧
    ((s.worker c).ws = .ended → i = .endOp) ∧ ((s.worker c).ws = .faulted → i.accessesMemory = true)
  /-- Every participant has passed as many `BAR` as there were releases: none is a barrier ahead (R193). -/
  barriers : s.status.busy = true → ∀ c, c < s.cores →
    barCount ((s.prog c).take (s.worker c).pc) = s.epoch
  /-- Nothing is recorded without `ERR` (R271). -/
  errClear : s.status.err = false → s.status.errCode = .none ∧ s.status.errWorker = 0 ∧ s.errInfo = 0
  /-- While `BUSY`, `ERR` says exactly that some participant has faulted (R280). -/
  errBusy : s.status.busy = true → (s.status.err = true ↔ ∃ c, c < s.cores ∧ (s.worker c).ws = .faulted)
  /-- The record of a worker fault names a faulted participant (R280). -/
  errWorker : s.status.busy = true → s.status.err = true →
    s.status.errCode.isWorker = true ∧ s.status.errWorker.toNat < s.cores ∧
      (s.worker s.status.errWorker.toNat).ws = .faulted
  /-- The record of a configuration error (R274). -/
  errConfig : s.status.busy = false → s.status.err = true →
    s.status.errCode.isConfig = true ∧ s.status.errWorker = 0xFF
  /-- The detector records participants only. -/
  logged : ∀ x ∈ s.log, x.worker < s.cores

/-! ## What the statements compare with -/

/-- The frame of a micro-op that accesses memory: registers, parameters, epoch, trace, the other workers and every flag but the
error record stay; the record changes only with a fault, which writes no memory (60_exceptions.md R280). -/
def microFrame (s t : State) : Prop :=
  t.regs = s.regs ∧ t.params = s.params ∧ t.epoch = s.epoch ∧ t.turns = s.turns ∧ t.tick = s.tick ∧ t.cur = s.cur ∧
  t.ctx = s.ctx ∧ t.rdata = s.rdata ∧ t.trace = s.trace ∧ t.workers.length = s.workers.length ∧
  (∀ d, d ≠ s.cur → t.worker d = s.worker d) ∧
  t.status.busy = s.status.busy ∧ t.status.done = s.status.done ∧ t.status.unsup = s.status.unsup ∧
  t.status.invnop = s.status.invnop ∧ t.status.ovr = s.status.ovr ∧
  (t.status = s.status ∧ t.errInfo = s.errInfo ∨ t.mem = s.mem ∧ s.status.err = false ∧ t.status.err = true)

/-- The configuration passes every check of 45_launcher_and_host_commands.md R224, in the rule's own terms. -/
def configLegal (p : Params) (r : Regs) : Prop :=
  let n := r.fftLen.toNat
  (4 ≤ n ∧ n ≤ 2 ^ p.maxLog ∧ ∃ k, n = 2 ^ k) ∧
  (1 ≤ r.ncores.toNat ∧ r.ncores.toNat ≤ p.maxCores) ∧
  r.bufLen.toNat = 2 * n ∧
  n / 2 ≤ r.twidLen.toNat ∧
  (r.brev = true → r.brevLen.toNat % 2 = 0 ∧ r.brevLen.toNat ≤ n) ∧
  (r.bufBase.toNat % 4 = 0 ∧ r.bufBase.toNat + 4 * n ≤ 2 ^ 32) ∧
  (r.twidBase.toNat % 4 = 0 ∧ r.twidBase.toNat + 2 * n ≤ 2 ^ 32) ∧
  (r.brev = true → r.brevBase.toNat % 2 = 0 ∧ r.brevBase.toNat + 2 * r.brevLen.toNat ≤ 2 ^ 32)

/-- A `START` turned away with a configuration error (60_exceptions.md R274): `BUSY`, `UNSUP`, `OVR` stay, `DONE` and
`INVNOP` are 0, the error is recorded. -/
def State.configRefused (s : State) (e : ErrCode) (info : Word) : State :=
  { s with
    status := { s.status with done := false, err := true, invnop := false, errCode := e, errWorker := 0xFF }
    errInfo := info }

/-! ## The spec's pseudocode on `(re, im)` pairs of integers (41_butterfly_unit.md R140) -/

/-- A packed word as the pair `(re, im)` (R121). -/
def lanes (p : Word) : Int × Int := (lane0 p, lane1 p)

/-- `BF(A, B, W)` as R140 writes it. -/
def bfPairs (a b w : Int × Int) : (Int × Int) × (Int × Int) :=
  let as := (sra a.1 1, sra a.2 1)
  let bs := (sra b.1 1, sra b.2 1)
  let t := (as.1 - bs.1, as.2 - bs.2)
  let pr := t.1 * w.1 + t.2 * w.2
  let pi := t.2 * w.1 - t.1 * w.2
  ((as.1 + bs.1, as.2 + bs.2), (wrap16 (sra pr 15), wrap16 (sra pi 15)))

/-- `BFN(A, B)` as R140 writes it. -/
def bfnPairs (a b : Int × Int) : (Int × Int) × (Int × Int) :=
  let as := (sra a.1 1, sra a.2 1)
  let bs := (sra b.1 1, sra b.2 1)
  ((as.1 + bs.1, as.2 + bs.2), (as.1 - bs.1, as.2 - bs.2))

end Sys2Proof.Machine
end

