-- ==== Sys2Proof/Certificates/Slice0/Obligations.lean ====
section
/-! DEFINITION. The statements for the provers. Each docstring names the rule of spec/ it formalises. -/

open Sys2Proof Sys2Proof.Machine

/-! ## Encoding -/

/-- 30_encoding.md R93 to R97, R100: decoding an encoded operation gives it back, from the word and from its bytes. -/
def Obligations.DecodeEncodeRoundTrip : Prop :=
  ∀ i : Instr, decode (encode i) = .ok i ∧ decodeBytes (encode i).bytes = .ok i

/-- 30_encoding.md R91, R98: a format-U word that decodes is exactly the encoding of what it decodes to. -/
def Obligations.DecodedMicroOpIsItsEncoding : Prop :=
  ∀ (w : UWord) (i : Instr), decode (.u w) = .ok i → encode i = .u w

/-- 30_encoding.md R93 to R97, R100, R101: match and mask of every row of the opcode table name exactly the words that
decode to the row's operation. -/
def Obligations.DecoderFollowsOpcodeTable : Prop :=
  ∀ row ∈ opcodeRows,
    (row.width = 64 → ∀ w : UWord,
      (w.toNat &&& row.mask = row.pattern ↔ ∃ i, decode (.u w) = .ok i ∧ i.mnemonic = row.mnemonic)) ∧
    (row.width = 32 → ∀ w : Word,
      (w.toNat &&& row.mask = row.pattern ↔ ∃ i, decode (.c w) = .ok i ∧ i.mnemonic = row.mnemonic))

/-- 30_encoding.md R98: a word with a reserved `op`, or with a defined `op` and a non-zero must-be-zero field, is
reserved, and a worker that takes one is refused: in any state, and by the turn that hands it over (log 8). -/
def Obligations.ReservedMicroOpsRefused : Prop :=
  ∀ (w : UWord) (s : State) (c : Nat),
    ((opField w).toNat = 0 ∨ 6 ≤ (opField w).toNat ∨ zField w ≠ 0 ∨
      (f2Field w ≠ 0 ∧ (opField w).toNat ≠ 1) ∨
      (f1Field w ≠ 0 ∧ (opField w).toNat ≠ 1 ∧ (opField w).toNat ≠ 2) ∨
      (f0Field w ≠ 0 ∧ ((opField w).toNat = 3 ∨ (opField w).toNat = 5))) →
    s.runWord c w = .refused .reservedMicroOp ∧
    ∀ j, (s.worker c).ws = .run → s.nextOp c = some j → j.accessesMemory = true →
      takeTurn (.issue c w) s = .refused .reservedMicroOp

/-- 30_encoding.md R99, R100: bits 31:2 of a command are ignored and bits 1:0 are the command code. -/
def Obligations.CommandCodeIsTwoBits : Prop :=
  ∀ v : Word,
    (v.toNat % 4 = 0 → decodeC v = .nop) ∧ (v.toNat % 4 = 1 → decodeC v = .start) ∧
    (v.toNat % 4 = 2 → decodeC v = .clear) ∧ (v.toNat % 4 = 3 → decodeC v = .reservedCmd3)

/-- 30_encoding.md R93 to R97, R100: words written out bit by bit from the encodings. -/
def Obligations.SpecWordsDecode : Prop :=
  decodeU 0b0001_000000000000_0000000000000011_0000000000001001_0000000000000101 = .ok (.bfly 5 9 3) ∧
  decodeU 0b0010_000000000000_0000000000000000_0000000000000011_0000000000000010 = .ok (.bflyn 2 3) ∧
  decodeU 0b0011_000000000000_0000000000000000_0000000000000000_0000000000000000 = .ok .bar ∧
  decodeU 0b0100_000000000000_0000000000000000_0000000000000000_0000000000000001 = .ok (.swpt 1) ∧
  decodeU 0b0101_000000000000_0000000000000000_0000000000000000_0000000000000000 = .ok .endOp ∧
  decodeC 0b00000000000000000000000000000000 = .nop ∧
  decodeC 0b11111111111111111111111111111101 = .start ∧
  decodeC 0b00000000000000000000000000000010 = .clear ∧
  decodeC 0b00000000000000000000000000000011 = .reservedCmd3

/-! ## Arithmetic -/

/-- 41_butterfly_unit.md R140: the packed datapath computes `BF` and `BFN` as the pseudocode writes them on pairs of
integers, for every pair of samples and every twiddle factor. -/
def Obligations.ButterflyMatchesPseudocode : Prop :=
  ∀ a b w : Word,
    (lanes (bf a b w).1, lanes (bf a b w).2) = bfPairs (lanes a) (lanes b) (lanes w) ∧
    (lanes (bfn a b).1, lanes (bfn a b).2) = bfnPairs (lanes a) (lanes b)

/-- 40_packed_q15_arithmetic.md R125: the inputs of `ADD2` and `SUB2` in a butterfly lie in [-16384, 16383], the sum in
[-32768, 32766], the difference in [-32767, 32767], and neither operation wraps. -/
def Obligations.SumAndDifferenceNeverWrap : Prop :=
  ∀ a b : Word, ∀ lane : Word → Int, (lane = lane0 ∨ lane = lane1) →
    (-16384 ≤ lane (half2 a) ∧ lane (half2 a) ≤ 16383) ∧
    lane (bfSum a b) = lane (half2 a) + lane (half2 b) ∧
    (-32768 ≤ lane (bfSum a b) ∧ lane (bfSum a b) ≤ 32766) ∧
    lane (bfDiff a b) = lane (half2 a) - lane (half2 b) ∧
    (-32767 ≤ lane (bfDiff a b) ∧ lane (bfDiff a b) ≤ 32767)

/-- 40_packed_q15_arithmetic.md R126, R127: in a butterfly the two products are exact, bounded by 2147418112. -/
def Obligations.ProductsNeverOverflow : Prop :=
  ∀ a b w : Word,
    dotp (bfDiff a b) w = lane0 (bfDiff a b) * lane0 w + lane1 (bfDiff a b) * lane1 w ∧
    xdif (bfDiff a b) w = lane1 (bfDiff a b) * lane0 w - lane0 (bfDiff a b) * lane1 w ∧
    (-2147418112 ≤ dotp (bfDiff a b) w ∧ dotp (bfDiff a b) w ≤ 2147418112) ∧
    (-2147418112 ≤ xdif (bfDiff a b) w ∧ xdif (bfDiff a b) w ≤ 2147418112)

/-- 40_packed_q15_arithmetic.md R128, 48_invariants_and_properties.md R261: with `|t.re| + |t.im| ≤ 32767` the rotated
difference is stored without a wrap, for every `W`. -/
def Obligations.HeadroomAvoidsTheWrap : Prop :=
  ∀ a b w : Word, |lane0 (bfDiff a b)| + |lane1 (bfDiff a b)| ≤ 32767 →
    lane0 (bfRot a b w) = sra (lane0 (bfDiff a b) * lane0 w + lane1 (bfDiff a b) * lane1 w) 15 ∧
    lane1 (bfRot a b w) = sra (lane1 (bfDiff a b) * lane0 w - lane0 (bfDiff a b) * lane1 w) 15

/-- 40_packed_q15_arithmetic.md R129: multiplying by the largest and by the smallest Q15 value. -/
def Obligations.Q15NarrowLaws : Prop :=
  ∀ x : Int, -32768 ≤ x → x ≤ 32767 →
    (0 < x → q15narrow (x * 32767) = x - 1) ∧
    (-32767 ≤ x → x ≤ 0 → q15narrow (x * 32767) = x) ∧
    (x = -32768 → q15narrow (x * 32767) = -32767) ∧
    q15narrow (x * (-32768)) = wrap16 (-x)

/-! ## Memory -/

/-- 20_memory.md R62: `MemWrite(addr, n, v)` stores `byte[addr + i] <- v[8i+7:8i]` and nothing else, `MemRead(addr, n)` is
the sum of the bytes times `256^i`, and so reading what was written gives back its low `8n` bits. -/
def Obligations.MemoryIsLittleEndian : Prop :=
  ∀ (m : Memory) (a n v : Nat) (f : Nat → Byte),
    (∀ i, i < n → Memory.read (Memory.writeN m a n v) (a + i) = some (BitVec.ofNat 8 (v / 256 ^ i))) ∧
    (∀ x, x < a ∨ a + n ≤ x → Memory.read (Memory.writeN m a n v) x = Memory.read m x) ∧
    ((∀ i, i < n → Memory.read m (a + i) = some (f i)) →
      Memory.readN m a n = some (∑ i ∈ Finset.range n, (f i).toNat * 256 ^ i)) ∧
    Memory.readN (Memory.writeN m a n v) a n = some (v % 256 ^ n)

/-! ## The micro-ops -/

/-- 41_butterfly_unit.md R141: `BFLY a, b, ic` on readable operands, every check passed: the next state has the two samples
of `BF`, one more in `pc[c]`, the operand registers loaded, and is otherwise as before but for the race detector's record
(the model's own, log 5). -/
def Obligations.BflyCompletes : Prop :=
  ∀ (s : State) (a b ic : Half) (x y w : Word),
    let pa := s.regs.bufBase.toNat + 4 * a.toNat
    let pb := s.regs.bufBase.toNat + 4 * b.toNat
    let pw := s.regs.twidBase.toNat + 4 * ic.toNat
    a.toNat < b.toNat → b.toNat < s.regs.fftLen.toNat → ic.toNat < s.regs.fftLen.toNat / 2 →
    s.params.memValid pa 4 = true → s.params.memValid pb 4 = true → s.params.memValid pw 4 = true →
    s.races [s.rd pa 4, s.rd pb 4, s.rd pw 4, s.wr pa 4, s.wr pb 4] = false →
    Memory.readWord s.mem pa = some x → Memory.readWord s.mem pb = some y → Memory.readWord s.mem pw = some w →
    ∃ u v : Word, (lanes u, lanes v) = bfPairs (lanes x) (lanes y) (lanes w) ∧
      exec (.bfly a b ic) s = .next { s with
        mem := Memory.writeN (Memory.writeN s.mem pa 4 u.toNat) pb 4 v.toNat
        workers := s.workers.set s.cur { s.worker s.cur with
          pc := (s.worker s.cur).pc + 1, ra := x, rb := y, rw := w, rt := sub2 (half2 x) (half2 y) }
        log := [s.rd pa 4, s.rd pb 4, s.rd pw 4, s.wr pa 4, s.wr pb 4] ++ s.log }

/-- 41_butterfly_unit.md R142: `BFLYN a, b` on readable operands, every check passed. What `RT` and `RW` hold afterwards is
the model's choice (log 10), and so is the race detector's record (log 5). -/
def Obligations.BflynCompletes : Prop :=
  ∀ (s : State) (a b : Half) (x y : Word),
    let pa := s.regs.bufBase.toNat + 4 * a.toNat
    let pb := s.regs.bufBase.toNat + 4 * b.toNat
    a.toNat % 2 = 0 → b.toNat = a.toNat + 1 → b.toNat < s.regs.fftLen.toNat →
    s.params.memValid pa 4 = true → s.params.memValid pb 4 = true →
    s.races [s.rd pa 4, s.rd pb 4, s.wr pa 4, s.wr pb 4] = false →
    Memory.readWord s.mem pa = some x → Memory.readWord s.mem pb = some y →
    ∃ u v : Word, (lanes u, lanes v) = bfnPairs (lanes x) (lanes y) ∧
      exec (.bflyn a b) s = .next { s with
        mem := Memory.writeN (Memory.writeN s.mem pa 4 u.toNat) pb 4 v.toNat
        workers := s.workers.set s.cur { s.worker s.cur with
          pc := (s.worker s.cur).pc + 1, ra := x, rb := y, rt := sub2 (half2 x) (half2 y) }
        log := [s.rd pa 4, s.rd pb 4, s.wr pa 4, s.wr pb 4] ++ s.log }

/-- 44_bit_reversal_engine.md R207: `SWPT p` on readable operands with both entries below `fftLen` exchanges the two whole
sample words and advances `pc[c]`. The race detector's record is the model's choice (log 5). -/
def Obligations.SwptCompletes : Prop :=
  ∀ (s : State) (p : Half) (a b : Nat) (x y : Word),
    let e0 := s.regs.brevBase.toNat + 4 * p.toNat
    let e1 := s.regs.brevBase.toNat + 4 * p.toNat + 2
    let pa := s.regs.bufBase.toNat + 4 * a
    let pb := s.regs.bufBase.toNat + 4 * b
    2 * p.toNat + 1 < s.regs.brevLen.toNat →
    s.params.memValid e0 2 = true → s.params.memValid e1 2 = true →
    s.params.memValid pa 4 = true → s.params.memValid pb 4 = true →
    s.races [s.rd e0 2, s.rd e1 2] = false → s.races [s.rd pa 4, s.rd pb 4, s.wr pa 4, s.wr pb 4] = false →
    Memory.readN s.mem e0 2 = some a → Memory.readN s.mem e1 2 = some b →
    a < s.regs.fftLen.toNat → b < s.regs.fftLen.toNat →
    Memory.readWord s.mem pa = some x → Memory.readWord s.mem pb = some y →
      exec (.swpt p) s = .next { s with
        mem := Memory.writeN (Memory.writeN s.mem pa 4 y.toNat) pb 4 x.toNat
        workers := s.workers.set s.cur { s.worker s.cur with pc := (s.worker s.cur).pc + 1, ra := x, rb := y }
        log := [s.rd pa 4, s.rd pb 4, s.wr pa 4, s.wr pb 4] ++ ([s.rd e0 2, s.rd e1 2] ++ s.log) }

/-- 45_launcher_and_host_commands.md R228: `END` always completes: `ws[c] <- ENDED`, nothing else, and the worker is
handed no further micro-op. -/
def Obligations.EndCompletes : Prop :=
  ∀ s : State,
    let t : State := { s with workers := s.workers.set s.cur { s.worker s.cur with ws := .ended } }
    exec .endOp s = .next t ∧ (s.cur < s.workers.length → t.issued s.cur = none)

/-- 43_barrier_controller.md R191, R192: when every participant is `RUN` with `BAR` as its next micro-op, the release moves
every participant's `pc` by 1 and ends the epoch, and nothing else changes (of the model's own, the race detector's record
starts anew, log 5, and the trace outputs show the `BAR`s, log 30; that the operand registers stay is its choice, log 10); otherwise every worker waits and nothing moves. -/
def Obligations.BarReleasesAllOrWaits : Prop :=
  ∀ s : State,
    ((s.status.busy = true ∧ ∀ c, c < s.cores → (s.worker c).ws = .run ∧ s.nextOp c = some .bar) →
      ∃ t, exec .bar s = .next t ∧
        (∀ c, c < s.cores → t.worker c = { s.worker c with pc := (s.worker c).pc + 1 }) ∧
        (∀ c, s.cores ≤ c → t.worker c = s.worker c) ∧
        t = { s with
          workers := t.workers, epoch := s.epoch + 1, log := []
          trace := s.trace ++ (List.range s.cores).map fun c => (c, barWord) }) ∧
    (¬ (s.status.busy = true ∧ ∀ c, c < s.cores → (s.worker c).ws = .run ∧ s.nextOp c = some .bar) →
      exec .bar s = .next s)

/-- Frame of `BFLY` and `BFLYN` (41_butterfly_unit.md R141, R142): apart from the executing worker's context, the error
record of a fault and the model's race record, nothing changes but the four bytes of each of the two samples named. -/
def Obligations.ButterflyFrame : Prop :=
  ∀ (s t : State) (a b ic : Half), exec (.bfly a b ic) s = .next t ∨ exec (.bflyn a b) s = .next t →
    microFrame s t ∧
    ∀ x, ¬ (s.samplePtr a.toNat ≤ x ∧ x < s.samplePtr a.toNat + 4) →
      ¬ (s.samplePtr b.toNat ≤ x ∧ x < s.samplePtr b.toNat + 4) → Memory.read t.mem x = Memory.read s.mem x

/-- Frame of `SWPT` (44_bit_reversal_engine.md R207): the bytes stored to are those of the samples that the pair's two
table entries name. -/
def Obligations.SwptFrame : Prop :=
  ∀ (s t : State) (p : Half) (a b : Nat), exec (.swpt p) s = .next t →
    Memory.readHalf s.mem (s.brevPtr (2 * p.toNat)) = some a →
    Memory.readHalf s.mem (s.brevPtr (2 * p.toNat + 1)) = some b →
    microFrame s t ∧
    ∀ x, ¬ (s.samplePtr a ≤ x ∧ x < s.samplePtr a + 4) → ¬ (s.samplePtr b ≤ x ∧ x < s.samplePtr b + 4) →
      Memory.read t.mem x = Memory.read s.mem x

/-- 60_exceptions.md R282, R272, 20_memory.md R75: `BFLY` and `BFLYN` check sample `a`, sample `b`, then the twiddle entry;
`SWPT` checks the two table entries, then (its entries read and in range) sample `a`, sample `b`; the first access that is
not valid raises `E_BUS` with its address, before any write. With the default `MemValid` every access is valid. -/
def Obligations.BusFaultReportsFirstInvalid : Prop :=
  ∀ (s : State) (a b ic p : Half) (x y : Nat),
    let n := s.regs.fftLen.toNat
    let pa := s.samplePtr a.toNat
    let pb := s.samplePtr b.toNat
    let pw := s.twidPtr ic.toNat
    let e0 := s.brevPtr (2 * p.toNat)
    let e1 := s.brevPtr (2 * p.toNat + 1)
    let noted : State := { s with log := [s.rd e0 2, s.rd e1 2] ++ s.log }
    let v : Nat → Nat → Bool := s.params.memValid
    (s.params.holes = [] → ∀ q k, q + k ≤ 2 ^ 32 → v q k = true) ∧
    ((a.toNat < b.toNat ∧ b.toNat < n ∧ ic.toNat < n / 2) →
      (v pa 4 = false → exec (.bfly a b ic) s = .next (s.raiseFault .bus (BitVec.ofNat 32 pa))) ∧
      (v pa 4 = true → v pb 4 = false → exec (.bfly a b ic) s = .next (s.raiseFault .bus (BitVec.ofNat 32 pb))) ∧
      (v pa 4 = true → v pb 4 = true → v pw 4 = false →
        exec (.bfly a b ic) s = .next (s.raiseFault .bus (BitVec.ofNat 32 pw)))) ∧
    ((a.toNat % 2 = 0 ∧ b.toNat = a.toNat + 1 ∧ b.toNat < n) →
      (v pa 4 = false → exec (.bflyn a b) s = .next (s.raiseFault .bus (BitVec.ofNat 32 pa))) ∧
      (v pa 4 = true → v pb 4 = false → exec (.bflyn a b) s = .next (s.raiseFault .bus (BitVec.ofNat 32 pb)))) ∧
    (2 * p.toNat + 1 < s.regs.brevLen.toNat →
      (v e0 2 = false → exec (.swpt p) s = .next (s.raiseFault .bus (BitVec.ofNat 32 e0))) ∧
      (v e0 2 = true → v e1 2 = false → exec (.swpt p) s = .next (s.raiseFault .bus (BitVec.ofNat 32 e1))) ∧
      (v e0 2 = true → v e1 2 = true → s.races [s.rd e0 2, s.rd e1 2] = false →
        Memory.readHalf s.mem e0 = some x → Memory.readHalf s.mem e1 = some y → x < n → y < n →
        (v (s.samplePtr x) 4 = false →
          exec (.swpt p) s = .next (noted.raiseFault .bus (BitVec.ofNat 32 (s.samplePtr x)))) ∧
        (v (s.samplePtr x) 4 = true → v (s.samplePtr y) 4 = false →
          exec (.swpt p) s = .next (noted.raiseFault .bus (BitVec.ofNat 32 (s.samplePtr y))))))

/-- 60_exceptions.md R283, 44_bit_reversal_engine.md R208: an entry not below `fftLen` raises `E_BREVIDX` with the first
offending entry, before any sample access. -/
def Obligations.BrevIndexFault : Prop :=
  ∀ (s : State) (p : Half) (x y : Nat),
    let e0 := s.brevPtr (2 * p.toNat)
    let e1 := s.brevPtr (2 * p.toNat + 1)
    let noted : State := { s with log := [s.rd e0 2, s.rd e1 2] ++ s.log }
    2 * p.toNat + 1 < s.regs.brevLen.toNat →
    s.params.memValid e0 2 = true → s.params.memValid e1 2 = true → s.races [s.rd e0 2, s.rd e1 2] = false →
    Memory.readHalf s.mem e0 = some x → Memory.readHalf s.mem e1 = some y →
    (s.regs.fftLen.toNat ≤ x → exec (.swpt p) s = .next (noted.raiseFault .brevIdx (BitVec.ofNat 32 x))) ∧
    (x < s.regs.fftLen.toNat → s.regs.fftLen.toNat ≤ y →
      exec (.swpt p) s = .next (noted.raiseFault .brevIdx (BitVec.ofNat 32 y)))

/-- 60_exceptions.md R280, R284: a worker fault makes no memory write, leaves `pc[c]`, makes the worker `FAULTED`, leaves
`BUSY` and `DONE`, and writes the record only if no earlier fault did; the worker is handed no further micro-op and does not
arrive at a barrier. That `RA`, `RB`, `RW` and `RT` of the worker stay is no rule of the spec but the model's (DEDUCED, unsafe,
log 10). -/
def Obligations.WorkerFaultMechanism : Prop :=
  ∀ (s : State) (e : ErrCode) (info : Word), s.cur < s.workers.length →
    let t := s.raiseFault e info
    t.mem = s.mem ∧ t.worker s.cur = { s.worker s.cur with ws := .faulted } ∧
    (∀ d, d ≠ s.cur → t.worker d = s.worker d) ∧
    t.regs = s.regs ∧ t.params = s.params ∧ t.log = s.log ∧ t.epoch = s.epoch ∧
    (s.status.err = false →
      t.status = { s.status with err := true, errCode := e, errWorker := BitVec.ofNat 8 s.cur } ∧ t.errInfo = info) ∧
    (s.status.err = true → t.status = s.status ∧ t.errInfo = s.errInfo) ∧
    t.irq = s.regs.ie ∧ t.issued s.cur = none ∧ t.atBar s.cur = false

/-- 30_encoding.md R105, 41_butterfly_unit.md R144: a micro-op outside the admitted forms is refused, `BFLY a, a, ic` and
`BFLYN a, a` among them; every form outside R105 is refused so (log 7). -/
def Obligations.UnadmittedMicroOpsRefused : Prop :=
  ∀ (s : State) (a b ic p : Half),
    (¬ (a.toNat < b.toNat ∧ b.toNat < s.regs.fftLen.toNat ∧ ic.toNat < s.regs.fftLen.toNat / 2) →
      exec (.bfly a b ic) s = .refused .notAdmitted) ∧
    (¬ (a.toNat % 2 = 0 ∧ b.toNat = a.toNat + 1 ∧ b.toNat < s.regs.fftLen.toNat) →
      exec (.bflyn a b) s = .refused .notAdmitted) ∧
    (¬ (2 * p.toNat + 1 < s.regs.brevLen.toNat) → exec (.swpt p) s = .refused .notAdmitted) ∧
    exec (.bfly a a ic) s = .refused .notAdmitted ∧ exec (.bflyn a a) s = .refused .notAdmitted

/-- 20_memory.md R71: where an access of `BFLY` or `BFLYN`, or a sample access of `SWPT`, has a byte in common with an
access that another worker made in the same epoch, and one of the two writes, the run has no result (R71: "treat as a fault or
a refusal", U3: `refuse`). That the model stops with the fault `race`, at the second of the two accesses, is its choice (log 5). -/
def Obligations.ConflictStopsTheRun : Prop :=
  ∀ (s : State) (a b ic p : Half) (x y k : Nat) (z l : Access),
    let n := s.regs.fftLen.toNat
    let pa := s.samplePtr a.toNat
    let pb := s.samplePtr b.toNat
    let pw := s.twidPtr ic.toNat
    let e0 := s.brevPtr (2 * p.toNat)
    let e1 := s.brevPtr (2 * p.toNat + 1)
    let v : Nat → Nat → Bool := s.params.memValid
    l ∈ s.log → l.worker ≠ s.cur → (z.write = true ∨ l.write = true) →
    z.addr ≤ k → k < z.addr + z.size → l.addr ≤ k → k < l.addr + l.size →
    ((a.toNat < b.toNat ∧ b.toNat < n ∧ ic.toNat < n / 2) → v pa 4 = true → v pb 4 = true → v pw 4 = true →
      z ∈ [s.rd pa 4, s.rd pb 4, s.rd pw 4, s.wr pa 4, s.wr pb 4] → exec (.bfly a b ic) s = .fault (.race s.cur)) ∧
    ((a.toNat % 2 = 0 ∧ b.toNat = a.toNat + 1 ∧ b.toNat < n) → v pa 4 = true → v pb 4 = true →
      z ∈ [s.rd pa 4, s.rd pb 4, s.wr pa 4, s.wr pb 4] → exec (.bflyn a b) s = .fault (.race s.cur)) ∧
    (2 * p.toNat + 1 < s.regs.brevLen.toNat → v e0 2 = true → v e1 2 = true →
      (z ∈ [s.rd e0 2, s.rd e1 2] → exec (.swpt p) s = .fault (.race s.cur)) ∧
      (s.races [s.rd e0 2, s.rd e1 2] = false →
        Memory.readHalf s.mem e0 = some x → Memory.readHalf s.mem e1 = some y → x < n → y < n →
        v (s.samplePtr x) 4 = true → v (s.samplePtr y) 4 = true →
        z ∈ [s.rd (s.samplePtr x) 4, s.rd (s.samplePtr y) 4, s.wr (s.samplePtr x) 4, s.wr (s.samplePtr y) 4] →
        exec (.swpt p) s = .fault (.race s.cur)))

/-- 48_invariants_and_properties.md R259, 44_bit_reversal_engine.md R212, for one pair: executing `SWPT p` twice restores
every byte, the regions being apart (70_reset_and_hazards.md R322). -/
def Obligations.SwapTwiceRestores : Prop :=
  ∀ (s t u : State) (p : Half), s.regionsApart → s.regs.brev = true →
    exec (.swpt p) s = .next t → exec (.swpt p) t = .next u → ∀ x, Memory.read u.mem x = Memory.read s.mem x

/-! ## The host commands -/

/-- 45_launcher_and_host_commands.md R221: `START` with `ctx = 0` sets `UNSUP` and nothing else, busy or not. -/
def Obligations.StartWithoutContext : Prop :=
  ∀ s : State, s.ctx = false → exec .start s = .next { s with status := { s.status with unsup := true } }

/-- 45_launcher_and_host_commands.md R222, R230, R231, 30_encoding.md R101: a command written while `BUSY` is ignored and
sets `OVR`. -/
def Obligations.CommandWhileBusySetsOvr : Prop :=
  ∀ s : State, s.status.busy = true →
    (s.ctx = true → exec .start s = .next { s with status := { s.status with ovr := true } }) ∧
    exec .clear s = .next { s with status := { s.status with ovr := true } } ∧
    exec .nop s = .next { s with status := { s.status with ovr := true } } ∧
    exec .reservedCmd3 s = .next { s with status := { s.status with ovr := true } }

/-- 45_launcher_and_host_commands.md R224, 60_exceptions.md R274: the eight checks in their order; the first that fails
decides code and `ERRINFO`, and nothing runs. -/
def Obligations.StartReportsFirstConfigError : Prop :=
  ∀ s : State, s.ctx = true → s.status.busy = false →
    let r := s.regs
    let n := r.fftLen.toNat
    let c1 := 4 ≤ n ∧ n ≤ 2 ^ s.params.maxLog ∧ ∃ k, n = 2 ^ k
    let c2 := 1 ≤ r.ncores.toNat ∧ r.ncores.toNat ≤ s.params.maxCores
    let c3 := r.bufLen.toNat = 2 * n
    let c4 := n / 2 ≤ r.twidLen.toNat
    let c5 := r.brev = true → r.brevLen.toNat % 2 = 0 ∧ r.brevLen.toNat ≤ n
    let c6 := r.bufBase.toNat % 4 = 0 ∧ r.bufBase.toNat + 4 * n ≤ 2 ^ 32
    let c7 := r.twidBase.toNat % 4 = 0 ∧ r.twidBase.toNat + 2 * n ≤ 2 ^ 32
    let c8 := r.brev = true → r.brevBase.toNat % 2 = 0 ∧ r.brevBase.toNat + 2 * r.brevLen.toNat ≤ 2 ^ 32
    (¬ c1 → exec .start s = .next (s.configRefused .fftLen r.fftLen)) ∧
    (c1 → ¬ c2 → exec .start s = .next (s.configRefused .nCores r.ncores)) ∧
    (c1 → c2 → ¬ c3 → exec .start s = .next (s.configRefused .bufLen r.bufLen)) ∧
    (c1 → c2 → c3 → ¬ c4 → exec .start s = .next (s.configRefused .twidLen r.twidLen)) ∧
    (c1 → c2 → c3 → c4 → ¬ c5 → exec .start s = .next (s.configRefused .brevLen r.brevLen)) ∧
    (c1 → c2 → c3 → c4 → c5 → ¬ c6 → exec .start s = .next (s.configRefused .addr r.bufBase)) ∧
    (c1 → c2 → c3 → c4 → c5 → c6 → ¬ c7 → exec .start s = .next (s.configRefused .addr r.twidBase)) ∧
    (c1 → c2 → c3 → c4 → c5 → c6 → c7 → ¬ c8 → exec .start s = .next (s.configRefused .addr r.brevBase))

/-- 45_launcher_and_host_commands.md R225: an inverse request with a legal configuration completes at once with `DONE` and
`INVNOP`; no worker is forked, no memory is touched. -/
def Obligations.InverseRequestCompletes : Prop :=
  ∀ s : State, s.ctx = true → s.status.busy = false → configLegal s.params s.regs → s.regs.inv = true →
    exec .start s = .next { s with
      status := { s.status with done := true, err := false, invnop := true, errCode := .none, errWorker := 0 }
      errInfo := 0 }

/-- 45_launcher_and_host_commands.md R223, R226: an accepted `START` with a legal forward configuration forks exactly
`coreCount` workers at `pc = 0` and sets `BUSY`; `UNSUP`, `OVR` and memory stay. That the race detector's record and the
epoch number start anew is the model's bookkeeping (logs 5, 25), and that the operand registers stay is its choice (log 10). -/
def Obligations.StartForks : Prop :=
  ∀ s : State, s.ctx = true → s.status.busy = false → configLegal s.params s.regs → s.regs.inv = false →
    s.workers.length = s.params.maxCores →
    ∃ t, exec .start s = .next t ∧
      (∀ c, c < s.cores → t.worker c = { s.worker c with ws := .run, pc := 0 }) ∧
      (∀ c, s.cores ≤ c → t.worker c = s.worker c) ∧
      t = { s with
        workers := t.workers
        status := { s.status with
          busy := true, done := false, err := false, invnop := false, errCode := .none, errWorker := 0 }
        errInfo := 0, epoch := 0, log := [] }

/-- 45_launcher_and_host_commands.md R230: `CLEAR` while busy is ignored and sets `OVR`; while idle it clears the sticky
status and nothing else, whatever `ctx`, and `irq` falls. -/
def Obligations.ClearCommand : Prop :=
  ∀ s : State,
    (s.status.busy = true → exec .clear s = .next { s with status := { s.status with ovr := true } }) ∧
    (s.status.busy = false →
      let t : State := { s with
        status := { busy := false, done := false, err := false, unsup := false, invnop := false, ovr := false,
                    errCode := .none, errWorker := 0 }
        errInfo := 0 }
      exec .clear s = .next t ∧ t.irq = false)

/-- 45_launcher_and_host_commands.md R231, 30_encoding.md R101: `NOP` and the reserved code change nothing while idle and
set `OVR` while busy, whatever `ctx`. -/
def Obligations.NopAndReservedCommands : Prop :=
  ∀ s : State,
    (s.status.busy = false → exec .nop s = .next s ∧ exec .reservedCmd3 s = .next s) ∧
    (s.status.busy = true →
      exec .nop s = .next { s with status := { s.status with ovr := true } } ∧
      exec .reservedCmd3 s = .next { s with status := { s.status with ovr := true } })

/-- 45_launcher_and_host_commands.md R223, R230, R231: a command always answers a next state; it touches no memory, no
configuration register, no parameter, and only `START` touches a worker. -/
def Obligations.CommandFrame : Prop :=
  ∀ (s : State) (i : Instr), i.isMicroOp = false →
    ∃ t, exec i s = .next t ∧ t.mem = s.mem ∧ t.regs = s.regs ∧ t.params = s.params ∧ t.turns = s.turns ∧
      t.tick = s.tick ∧ t.cur = s.cur ∧ t.ctx = s.ctx ∧ t.rdata = s.rdata ∧ t.trace = s.trace ∧
      (i ≠ .start → t.workers = s.workers ∧ t.epoch = s.epoch ∧ t.log = s.log)

/-! ## The host's accesses -/

/-- 45_launcher_and_host_commands.md R233, 10_state.md R27 to R39: while idle a configuration register reads back what was
written (`FLAGS` its bits 1:0), `CTRL` its bit 0 at any time; the read-only and the reserved offsets ignore a write. -/
def Obligations.RegisterWriteReadBack : Prop :=
  ∀ (s : State) (o : Nat) (v : Word) (ctx : Bool), o % 4 = 0 →
    (4 ≤ o → o ≤ 0x28 → s.status.busy = false →
      ∃ t, takeTurn (.regWrite (s.params.regAddr o) 4 v ctx) s = .next t ∧
        t.readOffset o = (if o = 0x20 then v &&& 3 else v) ∧
        (∀ q, q ≠ o → t.readOffset q = s.readOffset q) ∧ t = { s with regs := t.regs }) ∧
    (o = 0x2C →
      ∃ t, takeTurn (.regWrite (s.params.regAddr o) 4 v ctx) s = .next t ∧ t.readOffset o = v &&& 1 ∧
        (∀ q, q ≠ o → t.readOffset q = s.readOffset q) ∧ t = { s with regs := t.regs }) ∧
    (o = 0 ∨ o = 0x34 ∨ o = 0x38 ∨ o = 0x3C → takeTurn (.regWrite (s.params.regAddr o) 4 v ctx) s = .next s)

/-- 10_state.md R40: while `BUSY` a write at offsets 0x04 to 0x28 leaves the register and sets `OVR`. -/
def Obligations.ConfigurationLockedWhileBusy : Prop :=
  ∀ (s : State) (o : Nat) (v : Word) (ctx : Bool), o % 4 = 0 → 4 ≤ o → o ≤ 0x28 → s.status.busy = true →
    takeTurn (.regWrite (s.params.regAddr o) 4 v ctx) s = .next { s with status := { s.status with ovr := true } }

/-- 45_launcher_and_host_commands.md R232, 10_state.md R28, R41: a host read returns the register and changes nothing of the
block, busy or not. Which register stands at which offset is the table of 10_state.md R27; `CMD` and the reserved
offset return 0, `CAP` the parameters. -/
def Obligations.RegisterReads : Prop :=
  ∀ (s : State) (o : Nat), o % 4 = 0 → o < 64 →
    takeTurn (.regRead (s.params.regAddr o) 4) s = .next { s with rdata := s.readOffset o } ∧
    (s.params.legal = true → (s.readOffset 0).toNat = 256 * s.params.maxLog + s.params.maxCores) ∧
    s.readOffset 0x04 = s.regs.fftLen ∧ s.readOffset 0x08 = s.regs.twidBase ∧ s.readOffset 0x0C = s.regs.twidLen ∧
    s.readOffset 0x10 = s.regs.brevBase ∧ s.readOffset 0x14 = s.regs.brevLen ∧ s.readOffset 0x18 = s.regs.bufBase ∧
    s.readOffset 0x1C = s.regs.bufLen ∧ s.readOffset 0x20 = s.regs.flagsWord ∧ s.readOffset 0x24 = s.regs.scale ∧
    s.readOffset 0x28 = s.regs.ncores ∧ s.readOffset 0x2C = s.regs.ctrlWord ∧ s.readOffset 0x30 = 0 ∧
    s.readOffset 0x34 = s.status.toWord ∧ s.readOffset 0x38 = s.errInfo ∧
    s.readOffset 0x3C = 0

/-- 10_state.md R42, R36, R39, 60_exceptions.md R271: where the fields of `STATUS`, `FLAGS` and `CTRL` stand in the word the
host reads, and the value of every cause code; every other bit reads 0. -/
def Obligations.StatusWordLayout : Prop :=
  ∀ s : State,
    (s.readOffset 0x34).toNat = s.status.busy.toNat + 2 * s.status.done.toNat + 4 * s.status.err.toNat +
      8 * s.status.unsup.toNat + 16 * s.status.invnop.toNat + 32 * s.status.ovr.toNat +
      256 * s.status.errCode.code.toNat + 65536 * s.status.errWorker.toNat ∧
    (s.readOffset 0x20).toNat = s.regs.inv.toNat + 2 * s.regs.brev.toNat ∧
    (s.readOffset 0x2C).toNat = s.regs.ie.toNat ∧
    ErrCode.none.code = 0x00 ∧ ErrCode.fftLen.code = 0x01 ∧ ErrCode.nCores.code = 0x02 ∧ ErrCode.bufLen.code = 0x03 ∧
    ErrCode.twidLen.code = 0x04 ∧ ErrCode.brevLen.code = 0x05 ∧ ErrCode.addr.code = 0x06 ∧ ErrCode.bus.code = 0x10 ∧
    ErrCode.brevIdx.code = 0x11

/-- 70_reset_and_hazards.md R321, 45_launcher_and_host_commands.md R239: while `BUSY` a host read or write of the SampleBuffer,
or a write of a table in use, is a race; every other host write, every other read of a byte that holds a value, and every
access while idle, is made. The model's choices here: an access is one byte (log 23); it is made and reads back also where
`MemValid` excludes the byte for the workers (log 12, unsafe); a race is the fault `hostRace` at once (log 6). -/
def Obligations.HostMemoryAccess : Prop :=
  ∀ (s : State) (a : Word) (v b : Byte),
    (s.status.busy = false ∨ s.inBuffer a.toNat = false → Memory.read s.mem a.toNat = some b →
      takeTurn (.memRead a) s = .next { s with rdata := b.setWidth 32 }) ∧
    (s.status.busy = true → s.inBuffer a.toNat = true → takeTurn (.memRead a) s = .fault .hostRace) ∧
    (s.status.busy = true → (s.inBuffer a.toNat = true ∨ s.inTwiddles a.toNat = true ∨ s.inBrevTable a.toNat = true) →
      takeTurn (.memWrite a v) s = .fault .hostRace) ∧
    ((s.status.busy = false ∨
        (s.inBuffer a.toNat = false ∧ s.inTwiddles a.toNat = false ∧ s.inBrevTable a.toNat = false)) →
      ∃ t, takeTurn (.memWrite a v) s = .next t ∧ Memory.read t.mem a.toNat = some v ∧
        (∀ x, x ≠ a.toNat → Memory.read t.mem x = Memory.read s.mem x) ∧ t = { s with mem := t.mem })

/-- 20_memory.md R76, U10: a register access that is not an aligned 32-bit one is refused. -/
def Obligations.OddRegisterAccessRefused : Prop :=
  ∀ (s : State) (o n : Nat) (v : Word) (ctx : Bool), o < 64 → 1 ≤ n → (n ≠ 4 ∨ o % 4 ≠ 0) →
    takeTurn (.regRead (s.params.regAddr o) n) s = .refused .registerAccess ∧
    takeTurn (.regWrite (s.params.regAddr o) n v ctx) s = .refused .registerAccess

/-! ## Steps -/

/-- 45_launcher_and_host_commands.md R227, R233, R239: one step runs the decoded operation: the micro-op the scheduler
issues to the worker whose turn it is, the command a `CMD` write carries, the `BAR` of all participants at the
controller's turn, and a hand-issued word (log 8). Around `exec` a step takes the turn off, sets `cur` or `ctx`, and shows
a worker's word on the trace (log 30). -/
def Obligations.StepRunsDecodedInstruction : Prop :=
  ∀ (s : State) (rest : List Turn) (c : Nat) (w : UWord) (v : Word) (x : Bool) (i j : Instr),
    (s.turns = .worker c :: rest → s.issued c = some (.u w) → decode (.u w) = .ok i → i ≠ .bar →
      step s = exec i { s with turns := rest, cur := c, trace := s.trace ++ [(c, w)] }) ∧
    (s.turns = .worker c :: rest → (s.worker c).ws = .run → s.nextOp c = some i → i ≠ .bar →
      ∃ u, encode i = .u u ∧ step s = exec i { s with turns := rest, cur := c, trace := s.trace ++ [(c, u)] }) ∧
    (s.turns = .release :: rest → step s = exec .bar { s with turns := rest }) ∧
    (s.turns = .regWrite (s.params.regAddr 0x30) 4 v x :: rest → decode (.c v) = .ok i →
      step s = exec i { s with turns := rest, ctx := x }) ∧
    (s.turns = .issue c w :: rest → (s.worker c).ws = .run → s.nextOp c = some j → j.accessesMemory = true →
      decode (.u w) = .ok i → i ≠ .bar →
      step s = exec i { s with turns := rest, cur := c, trace := s.trace ++ [(c, w)] })

/-- 45_launcher_and_host_commands.md R227, R229, R239, 43_barrier_controller.md R197: a worker that is not `RUN`, or that
stands at `BAR`, takes no step, whatever hand-written word it is given, and a `BAR` given so is no release; the launcher
does not join while a participant is not `ENDED`. That such a turn passes is the model's choice (log 14). -/
def Obligations.DisabledAgentsTakeNoStep : Prop :=
  ∀ (s : State) (c : Nat) (w : UWord),
    ((s.worker c).ws ≠ .run ∨ s.nextOp c = some .bar →
      takeTurn (.worker c) s = .next s ∧ takeTurn (.issue c w) s = .next s) ∧
    (decode (.u w) = .ok .bar → takeTurn (.issue c w) s = .next s) ∧
    ((s.status.busy = false ∨ ∃ d, d < s.cores ∧ (s.worker d).ws ≠ .ended) → takeTurn .join s = .next s)

/-- 45_launcher_and_host_commands.md R229: the join: every context `IDLE`, `BUSY` 0, `DONE` 1. That `pc[c]`
and the operand registers stay (the spec leaves them unspecified between invocations, log 28) and that the race detector's
record starts anew (log 5) is the model's choice. -/
def Obligations.JoinCompletes : Prop :=
  ∀ s : State, s.status.busy = true → (∀ c, c < s.cores → (s.worker c).ws = .ended) →
    ∃ t, takeTurn .join s = .next t ∧ (∀ c, t.worker c = { s.worker c with ws := .idle }) ∧ t.ls = .idle ∧
      t = { s with workers := t.workers, status := { s.status with busy := false, done := true }, log := [] }

/-- 70_reset_and_hazards.md R310: the values the spec gives for reset, and the `E_FFTLEN` of a `START` right after it. -/
def Obligations.ResetState : Prop :=
  (∀ o, o ≠ 0 → State.reset.readOffset o = 0) ∧ State.reset.readOffset 0 = 0x00000C20 ∧
  (∀ c, (State.reset.worker c).ws = .idle) ∧ State.reset.workers.length = 32 ∧ State.reset.ls = .idle ∧
  State.reset.arrived = [] ∧ State.reset.irq = false ∧
  exec .start { State.reset with ctx := true } =
    .next ({ State.reset with ctx := true }.configRefused .fftLen 0)

/-- 70_reset_and_hazards.md R310: reset at any time abandons the invocation: every register but `CAP` reads 0, every context
is `IDLE`, nothing has arrived, `irq` is 0, memory is not touched, and a `START` right after it fails with `E_FFTLEN`. -/
def Obligations.ResetRecovers : Prop :=
  ∀ s : State, ∃ t, takeTurn .reset s = .next t ∧
    (∀ o, o ≠ 0 → t.readOffset o = 0) ∧ t.readOffset 0 = s.readOffset 0 ∧ t.ls = .idle ∧
    (∀ c, (t.worker c).ws = .idle) ∧ t.workers.length = s.params.maxCores ∧ t.arrived = [] ∧ t.irq = false ∧
    t.mem = s.mem ∧
    exec .start { t with ctx := true } = .next ({ t with ctx := true }.configRefused .fftLen 0)

/-- 60_exceptions.md R286: what `irq` is; with `IE` it rises at a join, an inverse completion, a configuration error and a
worker fault; `CLEAR`, an accepted forking `START`, reset and `IE <- 0` lower it; `UNSUP` and `OVR` do not move it. -/
def Obligations.InterruptLine : Prop :=
  ∀ (s t : State) (e : ErrCode) (info : Word),
    s.irq = (s.regs.ie && (s.status.done || s.status.err)) ∧
    (takeTurn (.regWrite (s.params.regAddr 0x2C) 4 0 true) s = .next t → t.irq = false) ∧
    (takeTurn .reset s = .next t → t.irq = false) ∧
    (s.regs.ie = true →
      (s.joinEnabled = true → takeTurn .join s = .next t → t.irq = true) ∧
      (s.ctx = true → s.status.busy = false → exec .start s = .next t → t.status.busy = false → t.irq = true) ∧
      (s.ctx = true → s.status.busy = false → exec .start s = .next t → t.status.busy = true → t.irq = false) ∧
      (s.raiseFault e info).irq = true ∧
      (s.status.busy = false → exec .clear s = .next t → t.irq = false) ∧
      (s.ctx = false → exec .start s = .next t → t.irq = s.irq) ∧
      (s.status.busy = true → exec .clear s = .next t → t.irq = s.irq))

/-! ## The scheduler -/

/-- 48_invariants_and_properties.md R251: for every `n` and `P ≥ 1` the intervals `block(c, n, P)` are pairwise disjoint and
their union over `c < P` is `[0, n)`. -/
def Obligations.BlockPartitionCovers : Prop :=
  ∀ n p : Nat, 1 ≤ p →
    (∀ x, x < n ↔ ∃ c, c < p ∧ x ∈ owned c n p) ∧
    (∀ c d x, x ∈ owned c n p → x ∈ owned d n p → c = d)

/-- 42_stage_scheduler.md R169, R174: `END` is the last micro-op of every `prog(c)` and occurs nowhere else, and `prog(c)`
has exactly `2·log2(N)` `BAR`. -/
def Obligations.ProgramShape : Prop :=
  ∀ (m p l c : Nat) (brev : Bool), 1 ≤ m →
    (∃ body, prog (2 ^ m) p brev l c = body ++ [.endOp] ∧ Instr.endOp ∉ body) ∧
    barCount (prog (2 ^ m) p brev l c) = 2 * m

/-- 30_encoding.md R105, 42_stage_scheduler.md R166: every micro-op the scheduler emits for a legal configuration is
admitted; in particular every twiddle index is below `N/2`. -/
def Obligations.ScheduledMicroOpsAdmitted : Prop :=
  ∀ (m p l c : Nat) (brev : Bool), 2 ≤ m → m ≤ 16 → 1 ≤ p → c < p →
    (brev = true → l % 2 = 0 ∧ l ≤ 2 ^ m) →
    ∀ i ∈ prog (2 ^ m) p brev l c, i.admitted (2 ^ m) l = true

/-- 48_invariants_and_properties.md R252, R253: in every twiddle stage and in the final stage, the butterflies of all
workers together name each sample index `0 … N-1` exactly once, for every `coreCount`. -/
def Obligations.StageTouchesEachSampleOnce : Prop :=
  ∀ m p : Nat, 2 ≤ m → m ≤ 16 → 1 ≤ p →
    (∀ k, 2 ≤ k → k ≤ m →
      (((List.range p).flatMap fun c => stageBody (2 ^ m) (2 ^ k) (2 ^ (m - k)) c p).flatMap Instr.samples).Perm
        (List.range (2 ^ m))) ∧
    (((List.range p).flatMap fun c => finalBody (2 ^ m) c p).flatMap Instr.samples).Perm (List.range (2 ^ m))

/-- 48_invariants_and_properties.md R254 (core-count independence, the part that speaks of the work): what `P` workers do in
a stage, one after the other, is exactly what one worker does alone. -/
def Obligations.StageWorkIndependentOfCoreCount : Prop :=
  ∀ n n1 mod l p : Nat, ∀ brev : Bool, 1 ≤ p →
    ((List.range p).flatMap fun c => stageBody n n1 mod c p) = stageBody n n1 mod 0 1 ∧
    ((List.range p).flatMap fun c => finalBody n c p) = finalBody n 0 1 ∧
    ((List.range p).flatMap fun c => brevBody brev l c p) = brevBody brev l 0 1

/-- 10_state.md R22, R24: the loop registers carry the same information as `pc[c]`: advanced once per micro-op from the
fork, they stand at `prog(c)[pc[c]]`. -/
def Obligations.LoopRegistersFollowTheProgram : Prop :=
  ∀ (m p l c k : Nat) (brev : Bool) (i : Instr), 1 ≤ m → 1 ≤ p →
    (prog (2 ^ m) p brev l c)[k]? = some i →
    (LoopRegs.after { n := 2 ^ m, p := p, brev := brev, l := l } c k).op = i

/-- 10_state.md R22: the bound on `length(prog(c))`. -/
def Obligations.ProgramLengthBound : Prop :=
  ∀ (m p l c : Nat) (brev : Bool), 2 ≤ m → 1 ≤ p → l ≤ 2 ^ m →
    (prog (2 ^ m) p brev l c).length ≤ 2 ^ m / 2 * m + 2 * m + 2 ^ m / 2 + 1

/-! ## Rules of the whole machine -/

/-- The invariant holds after reset. -/
def Obligations.InvariantAtReset : Prop := Inv State.reset

/-- Every step keeps the invariant: memory stays canonical; a running invocation keeps a legal configuration; participants,
their place in `prog(c)`, the barrier count and the error record stay as 10_state.md R22, R23, R40, R47,
43_barrier_controller.md R193, R195 and 60_exceptions.md R271, R274, R280 say. -/
def Obligations.StepKeepsInvariant : Prop :=
  ∀ s t : State, Inv s → step s = .next t → Inv t

/-- 60_exceptions.md R293: once a participant has faulted, every step but a reset leaves the block `BUSY`, the worker
`FAULTED`, `DONE` and the configuration as they are: the invocation never completes. -/
def Obligations.FaultedInvocationNeverCompletes : Prop :=
  ∀ (s t : State) (c : Nat), s.status.busy = true → c < s.cores → (s.worker c).ws = .faulted →
    step s = .next t → s.popTurn.1 ≠ .reset →
    t.status.busy = true ∧ c < t.cores ∧ (t.worker c).ws = .faulted ∧ t.status.done = s.status.done ∧
      t.regs = { s.regs with ie := t.regs.ie } ∧ t.epoch = s.epoch

/-- 10_state.md R37: `SCALE` never changes what a step does: two states that differ in `SCALE` alone take the same step,
up to `SCALE`, unless the step is a host register read. -/
def Obligations.ScaleHasNoEffect : Prop :=
  ∀ (s : State) (v : Word), (∀ a n, s.popTurn.1 ≠ .regRead a n) →
    match step s with
    | .next t => ∃ x, step { s with regs := { s.regs with scale := v } } =
        .next { t with regs := { t.regs with scale := x } }
    | .fault r => step { s with regs := { s.regs with scale := v } } = .fault r
    | .refused r => step { s with regs := { s.regs with scale := v } } = .refused r

/-- 48_invariants_and_properties.md R255, 20_memory.md R60: a worker's step writes no byte outside the SampleBuffer; the
barrier controller and the launcher write no memory. -/
def Obligations.WorkersWriteOnlyTheBuffer : Prop :=
  ∀ (s t : State) (c x : Nat),
    (takeTurn (.worker c) s = .next t → s.inBuffer x = false → Memory.read t.mem x = Memory.read s.mem x) ∧
    (takeTurn .release s = .next t ∨ takeTurn .join s = .next t → t.mem = s.mem)

/-- 48_invariants_and_properties.md R254, 45_launcher_and_host_commands.md R240 (schedule independence, for two steps): if
two workers execute memory micro-ops one after the other without a conflict or a fault, the other order is possible too
and ends in the same state; only the order of the race detector's record and the last executing worker differ. -/
def Obligations.WorkerStepsCommute : Prop :=
  ∀ (s s1 u : State) (c d : Nat) (i j : Instr), c ≠ d → c < s.workers.length → d < s.workers.length →
    Memory.wf s.mem → i.accessesMemory = true → j.accessesMemory = true →
    exec i { s with cur := c } = .next s1 → exec j { s1 with cur := d } = .next u →
    (u.worker c).ws ≠ .faulted → (u.worker d).ws ≠ .faulted →
    ∃ s2 u', exec j { s with cur := d } = .next s2 ∧ exec i { s2 with cur := c } = .next u' ∧
      u'.log.Perm u.log ∧ { u' with log := u.log, cur := u.cur } = u

/-- 20_memory.md R80, 42_stage_scheduler.md R166: in a state that meets the invariant, with the launch premise on memory, no
turn of a worker, of the controller or of the launcher is refused. -/
def Obligations.ScheduledWorkIsNeverRefused : Prop :=
  ∀ (s : State) (c : Nat) (r : Refusal), Inv s → s.status.busy = true → s.launchPremise →
    takeTurn (.worker c) s ≠ .refused r ∧ takeTurn .release s ≠ .refused r ∧ takeTurn .join s ≠ .refused r

/-! ## The trace outputs -/

/-- 30_encoding.md R106: the trace outputs show the micro-ops of each worker in issue order, nothing that was shown is lost,
and nothing depends on the trace. That a `BAR` is shown at its release, and that a reset leaves the record, is the model's
choice (log 30). -/
def Obligations.TraceShowsIssuedMicroOps : Prop :=
  ∀ (s t : State) (c : Nat) (w : UWord) (tr : List (Nat × UWord)) (turn : Turn),
    (s.issued c = some (.u w) → w ≠ barWord → takeTurn (.worker c) s = .next t → t.trace = s.trace ++ [(c, w)]) ∧
    (s.releaseEnabled = true → takeTurn .release s = .next t →
      (∀ d, d < s.cores → t.traceOf d = s.traceOf d ++ [barWord]) ∧ ∀ d, s.cores ≤ d → t.traceOf d = s.traceOf d) ∧
    (takeTurn turn s = .next t → (∀ d, t.traceOf d = s.traceOf d ∨ ∃ u, t.traceOf d = s.traceOf d ++ [u]) ∧
      ((∀ d, turn ≠ .worker d) → turn ≠ .release → (∀ d u, turn ≠ .issue d u) → t.trace = s.trace)) ∧
    match takeTurn turn s with
    | .next u => ∃ x, takeTurn turn { s with trace := tr } = .next { u with trace := x }
    | .fault r => takeTurn turn { s with trace := tr } = .fault r
    | .refused r => takeTurn turn { s with trace := tr } = .refused r
end

