-- ==== Sys2Proof/Laws/Arith.lean ====
section
/-! SUPPORT. Lanes of packed words: what `pack` and the lane operations give, and when a narrowing keeps the value
(40_packed_q15_arithmetic.md R121 to R128). -/

namespace Sys2Proof.Machine

open Sys2Proof

@[simp] theorem lane0_pack (a b : Int) : lane0 (pack a b) = wrap16 a := by
  unfold lane0 pack wrap16
  congr 1
  generalize low16 a = x
  generalize low16 b = y
  apply BitVec.eq_of_getLsbD_eq
  intro i hi
  rw [BitVec.getLsbD_extractLsb', BitVec.getLsbD_append]
  simp [hi]

@[simp] theorem lane1_pack (a b : Int) : lane1 (pack a b) = wrap16 b := by
  unfold lane1 pack wrap16
  congr 1
  generalize low16 a = x
  generalize low16 b = y
  apply BitVec.eq_of_getLsbD_eq
  intro i hi
  rw [BitVec.getLsbD_extractLsb', BitVec.getLsbD_append]
  simp [hi]

/-- A value that a lane can hold is kept (00_scope.md R10). -/
theorem wrap16_of_range (v : Int) (h1 : -32768 ≤ v) (h2 : v ≤ 32767) : wrap16 v = v := by
  unfold wrap16 low16
  rw [BitVec.toInt_ofInt]
  apply Int.bmod_eq_of_le <;> norm_num <;> omega

@[simp] theorem wrap16_wrap16 (v : Int) : wrap16 (wrap16 v) = wrap16 v := by
  unfold wrap16 low16
  rw [BitVec.ofInt_toInt]

/-- A value that fits 32 bits is kept (R126). -/
theorem wrap32_of_range (v : Int) (h1 : -2147483648 ≤ v) (h2 : v ≤ 2147483647) : wrap32 v = v := by
  unfold wrap32
  rw [BitVec.toInt_ofInt]
  apply Int.bmod_eq_of_le <;> norm_num <;> omega

theorem half_range (x : Half) : -32768 ≤ x.toInt ∧ x.toInt ≤ 32767 := by
  have h1 : x.toInt < 32768 := BitVec.toInt_lt
  have h2 : -32768 ≤ x.toInt := BitVec.le_toInt x
  omega

theorem lane0_range (p : Word) : -32768 ≤ lane0 p ∧ lane0 p ≤ 32767 := half_range _

theorem lane1_range (p : Word) : -32768 ≤ lane1 p ∧ lane1 p ≤ 32767 := half_range _

theorem sra_one (v : Int) : sra v 1 = v / 2 := rfl

theorem sra_fifteen (v : Int) : sra v 15 = v / 32768 := rfl

@[simp] theorem lane0_half2 (p : Word) : lane0 (half2 p) = sra (lane0 p) 1 := by
  have := lane0_range p
  rw [half2, lane0_pack, wrap16_of_range] <;> rw [sra_one] <;> omega

@[simp] theorem lane1_half2 (p : Word) : lane1 (half2 p) = sra (lane1 p) 1 := by
  have := lane1_range p
  rw [half2, lane1_pack, wrap16_of_range] <;> rw [sra_one] <;> omega

theorem lane0_half2_range (p : Word) : -16384 ≤ lane0 (half2 p) ∧ lane0 (half2 p) ≤ 16383 := by
  have := lane0_range p
  rw [lane0_half2, sra_one]
  omega

theorem lane1_half2_range (p : Word) : -16384 ≤ lane1 (half2 p) ∧ lane1 (half2 p) ≤ 16383 := by
  have := lane1_range p
  rw [lane1_half2, sra_one]
  omega

theorem lane0_bfSum (a b : Word) : lane0 (bfSum a b) = lane0 (half2 a) + lane0 (half2 b) := by
  have := lane0_half2_range a
  have := lane0_half2_range b
  rw [bfSum, add2, lane0_pack, wrap16_of_range] <;> omega

theorem lane1_bfSum (a b : Word) : lane1 (bfSum a b) = lane1 (half2 a) + lane1 (half2 b) := by
  have := lane1_half2_range a
  have := lane1_half2_range b
  rw [bfSum, add2, lane1_pack, wrap16_of_range] <;> omega

theorem lane0_bfDiff (a b : Word) : lane0 (bfDiff a b) = lane0 (half2 a) - lane0 (half2 b) := by
  have := lane0_half2_range a
  have := lane0_half2_range b
  rw [bfDiff, sub2, lane0_pack, wrap16_of_range] <;> omega

theorem lane1_bfDiff (a b : Word) : lane1 (bfDiff a b) = lane1 (half2 a) - lane1 (half2 b) := by
  have := lane1_half2_range a
  have := lane1_half2_range b
  rw [bfDiff, sub2, lane1_pack, wrap16_of_range] <;> omega

/-- A lane of the difference times a lane of the twiddle factor (R126). -/
theorem lane_product_range (x w : Int) (h1 : -32767 ≤ x) (h2 : x ≤ 32767) (h3 : -32768 ≤ w) (h4 : w ≤ 32767) :
    -1073709056 ≤ x * w ∧ x * w ≤ 1073709056 := by
  constructor <;> nlinarith

end Sys2Proof.Machine
end

