-- ==== Sys2Proof/Laws/Codec.lean ====
section
/-! SUPPORT. The fields of a format-U word (30_encoding.md R91) and the bytes of a code word. -/

namespace Sys2Proof

theorem encodeFields_all (op : BitVec 4) (f2 f1 f0 : Half) :
    opField (encodeFields op f2 f1 f0) = op ∧ zField (encodeFields op f2 f1 f0) = 0 ∧
      f2Field (encodeFields op f2 f1 f0) = f2 ∧ f1Field (encodeFields op f2 f1 f0) = f1 ∧
      f0Field (encodeFields op f2 f1 f0) = f0 := by
  refine ⟨?_, ?_, ?_, ?_, ?_⟩ <;>
  · apply BitVec.eq_of_getLsbD_eq
    intro i hi
    simp only [opField, zField, f2Field, f1Field, f0Field, encodeFields, BitVec.getLsbD_extractLsb',
      BitVec.getLsbD_append]
    interval_cases i <;> simp

@[simp] theorem opField_encodeFields (op : BitVec 4) (f2 f1 f0 : Half) : opField (encodeFields op f2 f1 f0) = op :=
  (encodeFields_all op f2 f1 f0).1

@[simp] theorem zField_encodeFields (op : BitVec 4) (f2 f1 f0 : Half) : zField (encodeFields op f2 f1 f0) = 0 :=
  (encodeFields_all op f2 f1 f0).2.1

@[simp] theorem f2Field_encodeFields (op : BitVec 4) (f2 f1 f0 : Half) : f2Field (encodeFields op f2 f1 f0) = f2 :=
  (encodeFields_all op f2 f1 f0).2.2.1

@[simp] theorem f1Field_encodeFields (op : BitVec 4) (f2 f1 f0 : Half) : f1Field (encodeFields op f2 f1 f0) = f1 :=
  (encodeFields_all op f2 f1 f0).2.2.2.1

@[simp] theorem f0Field_encodeFields (op : BitVec 4) (f2 f1 f0 : Half) : f0Field (encodeFields op f2 f1 f0) = f0 :=
  (encodeFields_all op f2 f1 f0).2.2.2.2

/-- A word with `z = 0` is its fields (R91: the fields cover all 64 bits). -/
theorem encodeFields_fields (w : UWord) (h : zField w = 0) :
    encodeFields (opField w) (f2Field w) (f1Field w) (f0Field w) = w := by
  apply BitVec.eq_of_getLsbD_eq
  intro i hi
  have hz : ∀ k, (zField w).getLsbD k = false := by rw [h]; simp
  simp only [zField, BitVec.getLsbD_extractLsb'] at hz
  simp only [opField, f2Field, f1Field, f0Field, encodeFields, BitVec.getLsbD_extractLsb', BitVec.getLsbD_append]
  by_cases h1 : i < 16
  · simp [h1]
  by_cases h2 : i < 32
  · simp [h1, show i - 16 < 16 by omega, show 16 + (i - 16) = i by omega]
  by_cases h3 : i < 48
  · simp [h1, show i - 16 - 16 < 16 by omega, show ¬ i - 16 < 16 by omega, show 32 + (i - 16 - 16) = i by omega]
  by_cases h4 : i < 60
  · have hk := hz (i - 48)
    simp [show i - 48 < 12 by omega, show 48 + (i - 48) = i by omega] at hk
    simp [h1, show ¬ i - 16 < 16 by omega, show ¬ i - 16 - 16 < 16 by omega,
      show i - 16 - 16 - 16 < 12 by omega, hk]
  · simp [h1, show ¬ i - 16 < 16 by omega, show ¬ i - 16 - 16 < 16 by omega,
      show ¬ i - 16 - 16 - 16 < 12 by omega, show i - 16 - 16 - 16 - 12 < 4 by omega,
      show 60 + (i - 16 - 16 - 16 - 12) = i by omega]

theorem leBytes_length (n : Nat) : ∀ v, (leBytes n v).length = n := by
  induction n with
  | zero => intro v; rfl
  | succ n ih => intro v; simp [leBytes, ih]

theorem leNat_leBytes (n : Nat) : ∀ v, leNat (leBytes n v) = v % 256 ^ n := by
  induction n with
  | zero => intro v; simp [leBytes, leNat, Nat.mod_one]
  | succ n ih =>
    intro v
    have hv : v % 256 ^ (n + 1) = v % 256 + 256 * (v / 256 % 256 ^ n) := by rw [pow_succ', Nat.mod_mul]
    simp [leBytes, leNat, ih, hv]

/-- Decoding the bytes of a code word is decoding the code word. -/
theorem decodeBytes_bytes (k : Code) : decodeBytes k.bytes = decode k := by
  cases k with
  | u w =>
    have hw := w.isLt
    simp only [Code.bytes, decodeBytes, leBytes_length, leNat_leBytes, if_true]
    rw [Nat.mod_eq_of_lt (by simpa using hw)]; simp
  | c w =>
    have hw := w.isLt
    simp only [Code.bytes, decodeBytes, leBytes_length, leNat_leBytes]
    rw [Nat.mod_eq_of_lt (by simpa using hw)]; simp

/-- The five micro-ops of `decodeU`, by field: the one unfolding of the decoder. -/
theorem decodeU_eq_ok (w : UWord) (i : Instr) (h : decodeU w = .ok i) :
    zField w = 0 ∧
    ((opField w = 1 ∧ i = .bfly (f0Field w) (f1Field w) (f2Field w)) ∨
     (opField w = 2 ∧ f2Field w = 0 ∧ i = .bflyn (f0Field w) (f1Field w)) ∨
     (opField w = 3 ∧ f2Field w = 0 ∧ f1Field w = 0 ∧ f0Field w = 0 ∧ i = .bar) ∨
     (opField w = 4 ∧ f2Field w = 0 ∧ f1Field w = 0 ∧ i = .swpt (f0Field w)) ∨
     (opField w = 5 ∧ f2Field w = 0 ∧ f1Field w = 0 ∧ f0Field w = 0 ∧ i = .endOp)) := by
  have hop : ∀ k : Nat, (opField w).toNat = k → opField w = BitVec.ofNat 4 k := by
    intro k hk; rw [← hk]; simp
  unfold decodeU at h
  split at h <;> rename_i hk <;> try (have hk := hop _ hk)
  all_goals first
    | (split at h
       · rename_i hz
         have h := Except.ok.inj h
         simp_all
       · simp at h)
    | simp at h

end Sys2Proof
end

