-- ==== Sys2Proof/Laws/State.lean ====
section
/-! SUPPORT. One lemma per field of `State` per update, so that no proof unfolds a record update. -/

namespace Sys2Proof.Machine

open Sys2Proof

/-! ### `setOvr` -/

@[simp] theorem State.setOvr_params (s : State) : s.setOvr.params = s.params := rfl
@[simp] theorem State.setOvr_regs (s : State) : s.setOvr.regs = s.regs := rfl
@[simp] theorem State.setOvr_status (s : State) : s.setOvr.status = { s.status with ovr := true } := rfl
@[simp] theorem State.setOvr_errInfo (s : State) : s.setOvr.errInfo = s.errInfo := rfl
@[simp] theorem State.setOvr_workers (s : State) : s.setOvr.workers = s.workers := rfl
@[simp] theorem State.setOvr_mem (s : State) : s.setOvr.mem = s.mem := rfl
@[simp] theorem State.setOvr_epoch (s : State) : s.setOvr.epoch = s.epoch := rfl
@[simp] theorem State.setOvr_log (s : State) : s.setOvr.log = s.log := rfl
@[simp] theorem State.setOvr_cur (s : State) : s.setOvr.cur = s.cur := rfl
@[simp] theorem State.setOvr_ctx (s : State) : s.setOvr.ctx = s.ctx := rfl
@[simp] theorem State.setOvr_rdata (s : State) : s.setOvr.rdata = s.rdata := rfl
@[simp] theorem State.setOvr_turns (s : State) : s.setOvr.turns = s.turns := rfl
@[simp] theorem State.setOvr_tick (s : State) : s.setOvr.tick = s.tick := rfl
@[simp] theorem State.setOvr_trace (s : State) : s.setOvr.trace = s.trace := rfl

/-! ### `setUnsup` -/

@[simp] theorem State.setUnsup_params (s : State) : s.setUnsup.params = s.params := rfl
@[simp] theorem State.setUnsup_regs (s : State) : s.setUnsup.regs = s.regs := rfl
@[simp] theorem State.setUnsup_status (s : State) : s.setUnsup.status = { s.status with unsup := true } := rfl
@[simp] theorem State.setUnsup_errInfo (s : State) : s.setUnsup.errInfo = s.errInfo := rfl
@[simp] theorem State.setUnsup_workers (s : State) : s.setUnsup.workers = s.workers := rfl
@[simp] theorem State.setUnsup_mem (s : State) : s.setUnsup.mem = s.mem := rfl
@[simp] theorem State.setUnsup_epoch (s : State) : s.setUnsup.epoch = s.epoch := rfl
@[simp] theorem State.setUnsup_log (s : State) : s.setUnsup.log = s.log := rfl
@[simp] theorem State.setUnsup_cur (s : State) : s.setUnsup.cur = s.cur := rfl
@[simp] theorem State.setUnsup_ctx (s : State) : s.setUnsup.ctx = s.ctx := rfl
@[simp] theorem State.setUnsup_rdata (s : State) : s.setUnsup.rdata = s.rdata := rfl
@[simp] theorem State.setUnsup_turns (s : State) : s.setUnsup.turns = s.turns := rfl
@[simp] theorem State.setUnsup_tick (s : State) : s.setUnsup.tick = s.tick := rfl
@[simp] theorem State.setUnsup_trace (s : State) : s.setUnsup.trace = s.trace := rfl

/-! ### `acceptStart` -/

@[simp] theorem State.acceptStart_params (s : State) : s.acceptStart.params = s.params := rfl
@[simp] theorem State.acceptStart_regs (s : State) : s.acceptStart.regs = s.regs := rfl
@[simp] theorem State.acceptStart_status (s : State) : s.acceptStart.status = { s.status with done := false, err := false, invnop := false, errCode := .none, errWorker := 0 } := rfl
@[simp] theorem State.acceptStart_errInfo (s : State) : s.acceptStart.errInfo = 0 := rfl
@[simp] theorem State.acceptStart_workers (s : State) : s.acceptStart.workers = s.workers := rfl
@[simp] theorem State.acceptStart_mem (s : State) : s.acceptStart.mem = s.mem := rfl
@[simp] theorem State.acceptStart_epoch (s : State) : s.acceptStart.epoch = s.epoch := rfl
@[simp] theorem State.acceptStart_log (s : State) : s.acceptStart.log = s.log := rfl
@[simp] theorem State.acceptStart_cur (s : State) : s.acceptStart.cur = s.cur := rfl
@[simp] theorem State.acceptStart_ctx (s : State) : s.acceptStart.ctx = s.ctx := rfl
@[simp] theorem State.acceptStart_rdata (s : State) : s.acceptStart.rdata = s.rdata := rfl
@[simp] theorem State.acceptStart_turns (s : State) : s.acceptStart.turns = s.turns := rfl
@[simp] theorem State.acceptStart_tick (s : State) : s.acceptStart.tick = s.tick := rfl
@[simp] theorem State.acceptStart_trace (s : State) : s.acceptStart.trace = s.trace := rfl

/-! ### `clearStatus` -/

@[simp] theorem State.clearStatus_params (s : State) : s.clearStatus.params = s.params := rfl
@[simp] theorem State.clearStatus_regs (s : State) : s.clearStatus.regs = s.regs := rfl
@[simp] theorem State.clearStatus_status (s : State) : s.clearStatus.status = { s.status with done := false, err := false, unsup := false, invnop := false, ovr := false, errCode := .none, errWorker := 0 } := rfl
@[simp] theorem State.clearStatus_errInfo (s : State) : s.clearStatus.errInfo = 0 := rfl
@[simp] theorem State.clearStatus_workers (s : State) : s.clearStatus.workers = s.workers := rfl
@[simp] theorem State.clearStatus_mem (s : State) : s.clearStatus.mem = s.mem := rfl
@[simp] theorem State.clearStatus_epoch (s : State) : s.clearStatus.epoch = s.epoch := rfl
@[simp] theorem State.clearStatus_log (s : State) : s.clearStatus.log = s.log := rfl
@[simp] theorem State.clearStatus_cur (s : State) : s.clearStatus.cur = s.cur := rfl
@[simp] theorem State.clearStatus_ctx (s : State) : s.clearStatus.ctx = s.ctx := rfl
@[simp] theorem State.clearStatus_rdata (s : State) : s.clearStatus.rdata = s.rdata := rfl
@[simp] theorem State.clearStatus_turns (s : State) : s.clearStatus.turns = s.turns := rfl
@[simp] theorem State.clearStatus_tick (s : State) : s.clearStatus.tick = s.tick := rfl
@[simp] theorem State.clearStatus_trace (s : State) : s.clearStatus.trace = s.trace := rfl

/-! ### `inverseDone` -/

@[simp] theorem State.inverseDone_params (s : State) : s.inverseDone.params = s.params := rfl
@[simp] theorem State.inverseDone_regs (s : State) : s.inverseDone.regs = s.regs := rfl
@[simp] theorem State.inverseDone_status (s : State) : s.inverseDone.status = { s.status with invnop := true, done := true } := rfl
@[simp] theorem State.inverseDone_errInfo (s : State) : s.inverseDone.errInfo = s.errInfo := rfl
@[simp] theorem State.inverseDone_workers (s : State) : s.inverseDone.workers = s.workers := rfl
@[simp] theorem State.inverseDone_mem (s : State) : s.inverseDone.mem = s.mem := rfl
@[simp] theorem State.inverseDone_epoch (s : State) : s.inverseDone.epoch = s.epoch := rfl
@[simp] theorem State.inverseDone_log (s : State) : s.inverseDone.log = s.log := rfl
@[simp] theorem State.inverseDone_cur (s : State) : s.inverseDone.cur = s.cur := rfl
@[simp] theorem State.inverseDone_ctx (s : State) : s.inverseDone.ctx = s.ctx := rfl
@[simp] theorem State.inverseDone_rdata (s : State) : s.inverseDone.rdata = s.rdata := rfl
@[simp] theorem State.inverseDone_turns (s : State) : s.inverseDone.turns = s.turns := rfl
@[simp] theorem State.inverseDone_tick (s : State) : s.inverseDone.tick = s.tick := rfl
@[simp] theorem State.inverseDone_trace (s : State) : s.inverseDone.trace = s.trace := rfl

/-! ### `storeWord` -/

@[simp] theorem State.storeWord_params (s : State) (a : Nat) (v : Word) : (s.storeWord a v).params = s.params := rfl
@[simp] theorem State.storeWord_regs (s : State) (a : Nat) (v : Word) : (s.storeWord a v).regs = s.regs := rfl
@[simp] theorem State.storeWord_status (s : State) (a : Nat) (v : Word) : (s.storeWord a v).status = s.status := rfl
@[simp] theorem State.storeWord_errInfo (s : State) (a : Nat) (v : Word) : (s.storeWord a v).errInfo = s.errInfo := rfl
@[simp] theorem State.storeWord_workers (s : State) (a : Nat) (v : Word) : (s.storeWord a v).workers = s.workers := rfl
@[simp] theorem State.storeWord_mem (s : State) (a : Nat) (v : Word) : (s.storeWord a v).mem = Memory.writeN s.mem a 4 v.toNat := rfl
@[simp] theorem State.storeWord_epoch (s : State) (a : Nat) (v : Word) : (s.storeWord a v).epoch = s.epoch := rfl
@[simp] theorem State.storeWord_log (s : State) (a : Nat) (v : Word) : (s.storeWord a v).log = s.log := rfl
@[simp] theorem State.storeWord_cur (s : State) (a : Nat) (v : Word) : (s.storeWord a v).cur = s.cur := rfl
@[simp] theorem State.storeWord_ctx (s : State) (a : Nat) (v : Word) : (s.storeWord a v).ctx = s.ctx := rfl
@[simp] theorem State.storeWord_rdata (s : State) (a : Nat) (v : Word) : (s.storeWord a v).rdata = s.rdata := rfl
@[simp] theorem State.storeWord_turns (s : State) (a : Nat) (v : Word) : (s.storeWord a v).turns = s.turns := rfl
@[simp] theorem State.storeWord_tick (s : State) (a : Nat) (v : Word) : (s.storeWord a v).tick = s.tick := rfl
@[simp] theorem State.storeWord_trace (s : State) (a : Nat) (v : Word) : (s.storeWord a v).trace = s.trace := rfl

/-! ### `setWorker` -/

@[simp] theorem State.setWorker_params (s : State) (c : Nat) (w : Worker) : (s.setWorker c w).params = s.params := rfl
@[simp] theorem State.setWorker_regs (s : State) (c : Nat) (w : Worker) : (s.setWorker c w).regs = s.regs := rfl
@[simp] theorem State.setWorker_status (s : State) (c : Nat) (w : Worker) : (s.setWorker c w).status = s.status := rfl
@[simp] theorem State.setWorker_errInfo (s : State) (c : Nat) (w : Worker) : (s.setWorker c w).errInfo = s.errInfo := rfl
@[simp] theorem State.setWorker_workers (s : State) (c : Nat) (w : Worker) : (s.setWorker c w).workers = s.workers.set c w := rfl
@[simp] theorem State.setWorker_mem (s : State) (c : Nat) (w : Worker) : (s.setWorker c w).mem = s.mem := rfl
@[simp] theorem State.setWorker_epoch (s : State) (c : Nat) (w : Worker) : (s.setWorker c w).epoch = s.epoch := rfl
@[simp] theorem State.setWorker_log (s : State) (c : Nat) (w : Worker) : (s.setWorker c w).log = s.log := rfl
@[simp] theorem State.setWorker_cur (s : State) (c : Nat) (w : Worker) : (s.setWorker c w).cur = s.cur := rfl
@[simp] theorem State.setWorker_ctx (s : State) (c : Nat) (w : Worker) : (s.setWorker c w).ctx = s.ctx := rfl
@[simp] theorem State.setWorker_rdata (s : State) (c : Nat) (w : Worker) : (s.setWorker c w).rdata = s.rdata := rfl
@[simp] theorem State.setWorker_turns (s : State) (c : Nat) (w : Worker) : (s.setWorker c w).turns = s.turns := rfl
@[simp] theorem State.setWorker_tick (s : State) (c : Nat) (w : Worker) : (s.setWorker c w).tick = s.tick := rfl
@[simp] theorem State.setWorker_trace (s : State) (c : Nat) (w : Worker) : (s.setWorker c w).trace = s.trace := rfl

/-! ### `retire` -/

@[simp] theorem State.retire_params (s : State) (w : Worker) : (s.retire w).params = s.params := rfl
@[simp] theorem State.retire_regs (s : State) (w : Worker) : (s.retire w).regs = s.regs := rfl
@[simp] theorem State.retire_status (s : State) (w : Worker) : (s.retire w).status = s.status := rfl
@[simp] theorem State.retire_errInfo (s : State) (w : Worker) : (s.retire w).errInfo = s.errInfo := rfl
@[simp] theorem State.retire_workers (s : State) (w : Worker) : (s.retire w).workers = s.workers.set s.cur { w with pc := w.pc + 1 } := rfl
@[simp] theorem State.retire_mem (s : State) (w : Worker) : (s.retire w).mem = s.mem := rfl
@[simp] theorem State.retire_epoch (s : State) (w : Worker) : (s.retire w).epoch = s.epoch := rfl
@[simp] theorem State.retire_log (s : State) (w : Worker) : (s.retire w).log = s.log := rfl
@[simp] theorem State.retire_cur (s : State) (w : Worker) : (s.retire w).cur = s.cur := rfl
@[simp] theorem State.retire_ctx (s : State) (w : Worker) : (s.retire w).ctx = s.ctx := rfl
@[simp] theorem State.retire_rdata (s : State) (w : Worker) : (s.retire w).rdata = s.rdata := rfl
@[simp] theorem State.retire_turns (s : State) (w : Worker) : (s.retire w).turns = s.turns := rfl
@[simp] theorem State.retire_tick (s : State) (w : Worker) : (s.retire w).tick = s.tick := rfl
@[simp] theorem State.retire_trace (s : State) (w : Worker) : (s.retire w).trace = s.trace := rfl

/-! ### `refuseConfig` -/

@[simp] theorem State.refuseConfig_params (s : State) (e : ErrCode) (i : Word) : (s.refuseConfig e i).params = s.params := rfl
@[simp] theorem State.refuseConfig_regs (s : State) (e : ErrCode) (i : Word) : (s.refuseConfig e i).regs = s.regs := rfl
@[simp] theorem State.refuseConfig_status (s : State) (e : ErrCode) (i : Word) : (s.refuseConfig e i).status = { s.status with err := true, errCode := e, errWorker := 0xFF } := rfl
@[simp] theorem State.refuseConfig_errInfo (s : State) (e : ErrCode) (i : Word) : (s.refuseConfig e i).errInfo = i := rfl
@[simp] theorem State.refuseConfig_workers (s : State) (e : ErrCode) (i : Word) : (s.refuseConfig e i).workers = s.workers := rfl
@[simp] theorem State.refuseConfig_mem (s : State) (e : ErrCode) (i : Word) : (s.refuseConfig e i).mem = s.mem := rfl
@[simp] theorem State.refuseConfig_epoch (s : State) (e : ErrCode) (i : Word) : (s.refuseConfig e i).epoch = s.epoch := rfl
@[simp] theorem State.refuseConfig_log (s : State) (e : ErrCode) (i : Word) : (s.refuseConfig e i).log = s.log := rfl
@[simp] theorem State.refuseConfig_cur (s : State) (e : ErrCode) (i : Word) : (s.refuseConfig e i).cur = s.cur := rfl
@[simp] theorem State.refuseConfig_ctx (s : State) (e : ErrCode) (i : Word) : (s.refuseConfig e i).ctx = s.ctx := rfl
@[simp] theorem State.refuseConfig_rdata (s : State) (e : ErrCode) (i : Word) : (s.refuseConfig e i).rdata = s.rdata := rfl
@[simp] theorem State.refuseConfig_turns (s : State) (e : ErrCode) (i : Word) : (s.refuseConfig e i).turns = s.turns := rfl
@[simp] theorem State.refuseConfig_tick (s : State) (e : ErrCode) (i : Word) : (s.refuseConfig e i).tick = s.tick := rfl
@[simp] theorem State.refuseConfig_trace (s : State) (e : ErrCode) (i : Word) : (s.refuseConfig e i).trace = s.trace := rfl

/-! ### `release` -/

@[simp] theorem State.release_params (s : State) : s.release.params = s.params := rfl
@[simp] theorem State.release_regs (s : State) : s.release.regs = s.regs := rfl
@[simp] theorem State.release_status (s : State) : s.release.status = s.status := rfl
@[simp] theorem State.release_errInfo (s : State) : s.release.errInfo = s.errInfo := rfl
@[simp] theorem State.release_workers (s : State) : s.release.workers = updateFirst (fun w => { w with pc := w.pc + 1 }) s.cores s.workers := rfl
@[simp] theorem State.release_mem (s : State) : s.release.mem = s.mem := rfl
@[simp] theorem State.release_epoch (s : State) : s.release.epoch = s.epoch + 1 := rfl
@[simp] theorem State.release_log (s : State) : s.release.log = [] := rfl
@[simp] theorem State.release_cur (s : State) : s.release.cur = s.cur := rfl
@[simp] theorem State.release_ctx (s : State) : s.release.ctx = s.ctx := rfl
@[simp] theorem State.release_rdata (s : State) : s.release.rdata = s.rdata := rfl
@[simp] theorem State.release_turns (s : State) : s.release.turns = s.turns := rfl
@[simp] theorem State.release_tick (s : State) : s.release.tick = s.tick := rfl
@[simp] theorem State.release_trace (s : State) :
    s.release.trace = s.trace ++ (List.range s.cores).map fun c => (c, barWord) := rfl

/-! ### `fork` -/

@[simp] theorem State.fork_params (s : State) : s.fork.params = s.params := rfl
@[simp] theorem State.fork_regs (s : State) : s.fork.regs = s.regs := rfl
@[simp] theorem State.fork_status (s : State) : s.fork.status = { s.status with busy := true } := rfl
@[simp] theorem State.fork_errInfo (s : State) : s.fork.errInfo = s.errInfo := rfl
@[simp] theorem State.fork_workers (s : State) : s.fork.workers = updateFirst (fun w => { w with ws := .run, pc := 0 }) s.cores s.workers := rfl
@[simp] theorem State.fork_mem (s : State) : s.fork.mem = s.mem := rfl
@[simp] theorem State.fork_epoch (s : State) : s.fork.epoch = 0 := rfl
@[simp] theorem State.fork_log (s : State) : s.fork.log = [] := rfl
@[simp] theorem State.fork_cur (s : State) : s.fork.cur = s.cur := rfl
@[simp] theorem State.fork_ctx (s : State) : s.fork.ctx = s.ctx := rfl
@[simp] theorem State.fork_rdata (s : State) : s.fork.rdata = s.rdata := rfl
@[simp] theorem State.fork_turns (s : State) : s.fork.turns = s.turns := rfl
@[simp] theorem State.fork_tick (s : State) : s.fork.tick = s.tick := rfl
@[simp] theorem State.fork_trace (s : State) : s.fork.trace = s.trace := rfl

/-! ### `join` -/

@[simp] theorem State.join_params (s : State) : s.join.params = s.params := rfl
@[simp] theorem State.join_regs (s : State) : s.join.regs = s.regs := rfl
@[simp] theorem State.join_status (s : State) : s.join.status = { s.status with busy := false, done := true } := rfl
@[simp] theorem State.join_errInfo (s : State) : s.join.errInfo = s.errInfo := rfl
@[simp] theorem State.join_workers (s : State) : s.join.workers = s.workers.map fun w => { w with ws := .idle } := rfl
@[simp] theorem State.join_mem (s : State) : s.join.mem = s.mem := rfl
@[simp] theorem State.join_epoch (s : State) : s.join.epoch = s.epoch := rfl
@[simp] theorem State.join_log (s : State) : s.join.log = [] := rfl
@[simp] theorem State.join_cur (s : State) : s.join.cur = s.cur := rfl
@[simp] theorem State.join_ctx (s : State) : s.join.ctx = s.ctx := rfl
@[simp] theorem State.join_rdata (s : State) : s.join.rdata = s.rdata := rfl
@[simp] theorem State.join_turns (s : State) : s.join.turns = s.turns := rfl
@[simp] theorem State.join_tick (s : State) : s.join.tick = s.tick := rfl
@[simp] theorem State.join_trace (s : State) : s.join.trace = s.trace := rfl

/-! ### `doReset` -/

@[simp] theorem State.doReset_params (s : State) : s.doReset.params = s.params := rfl
@[simp] theorem State.doReset_regs (s : State) : s.doReset.regs = Regs.reset := rfl
@[simp] theorem State.doReset_status (s : State) : s.doReset.status = Status.reset := rfl
@[simp] theorem State.doReset_errInfo (s : State) : s.doReset.errInfo = 0 := rfl
@[simp] theorem State.doReset_workers (s : State) : s.doReset.workers = List.replicate s.params.maxCores Worker.reset := rfl
@[simp] theorem State.doReset_mem (s : State) : s.doReset.mem = s.mem := rfl
@[simp] theorem State.doReset_epoch (s : State) : s.doReset.epoch = 0 := rfl
@[simp] theorem State.doReset_log (s : State) : s.doReset.log = [] := rfl
@[simp] theorem State.doReset_cur (s : State) : s.doReset.cur = 0 := rfl
@[simp] theorem State.doReset_ctx (s : State) : s.doReset.ctx = false := rfl
@[simp] theorem State.doReset_rdata (s : State) : s.doReset.rdata = 0 := rfl
@[simp] theorem State.doReset_turns (s : State) : s.doReset.turns = s.turns := rfl
@[simp] theorem State.doReset_tick (s : State) : s.doReset.tick = s.tick := rfl
@[simp] theorem State.doReset_trace (s : State) : s.doReset.trace = s.trace := rfl

/-! ### `raiseFault` -/

@[simp] theorem State.raiseFault_params (s : State) (e : ErrCode) (i : Word) : (s.raiseFault e i).params = s.params := by
  unfold State.raiseFault; dsimp only; split <;> rfl
@[simp] theorem State.raiseFault_regs (s : State) (e : ErrCode) (i : Word) : (s.raiseFault e i).regs = s.regs := by
  unfold State.raiseFault; dsimp only; split <;> rfl
@[simp] theorem State.raiseFault_mem (s : State) (e : ErrCode) (i : Word) : (s.raiseFault e i).mem = s.mem := by
  unfold State.raiseFault; dsimp only; split <;> rfl
@[simp] theorem State.raiseFault_epoch (s : State) (e : ErrCode) (i : Word) : (s.raiseFault e i).epoch = s.epoch := by
  unfold State.raiseFault; dsimp only; split <;> rfl
@[simp] theorem State.raiseFault_log (s : State) (e : ErrCode) (i : Word) : (s.raiseFault e i).log = s.log := by
  unfold State.raiseFault; dsimp only; split <;> rfl
@[simp] theorem State.raiseFault_cur (s : State) (e : ErrCode) (i : Word) : (s.raiseFault e i).cur = s.cur := by
  unfold State.raiseFault; dsimp only; split <;> rfl
@[simp] theorem State.raiseFault_ctx (s : State) (e : ErrCode) (i : Word) : (s.raiseFault e i).ctx = s.ctx := by
  unfold State.raiseFault; dsimp only; split <;> rfl
@[simp] theorem State.raiseFault_rdata (s : State) (e : ErrCode) (i : Word) : (s.raiseFault e i).rdata = s.rdata := by
  unfold State.raiseFault; dsimp only; split <;> rfl
@[simp] theorem State.raiseFault_turns (s : State) (e : ErrCode) (i : Word) : (s.raiseFault e i).turns = s.turns := by
  unfold State.raiseFault; dsimp only; split <;> rfl
@[simp] theorem State.raiseFault_tick (s : State) (e : ErrCode) (i : Word) : (s.raiseFault e i).tick = s.tick := by
  unfold State.raiseFault; dsimp only; split <;> rfl
@[simp] theorem State.raiseFault_trace (s : State) (e : ErrCode) (i : Word) : (s.raiseFault e i).trace = s.trace := by
  unfold State.raiseFault; dsimp only; split <;> rfl
@[simp] theorem State.raiseFault_workers (s : State) (e : ErrCode) (i : Word) :
    (s.raiseFault e i).workers = s.workers.set s.cur { s.worker s.cur with ws := .faulted } := by
  unfold State.raiseFault; dsimp only; split <;> rfl

theorem State.raiseFault_status_first (s : State) (e : ErrCode) (i : Word) (h : s.status.err = false) :
    (s.raiseFault e i).status = { s.status with err := true, errCode := e, errWorker := BitVec.ofNat 8 s.cur } ∧
      (s.raiseFault e i).errInfo = i := by
  simp [State.raiseFault, h]

theorem State.raiseFault_status_later (s : State) (e : ErrCode) (i : Word) (h : s.status.err = true) :
    (s.raiseFault e i).status = s.status ∧ (s.raiseFault e i).errInfo = s.errInfo := by
  simp [State.raiseFault, h]

theorem State.raiseFault_err (s : State) (e : ErrCode) (i : Word) : (s.raiseFault e i).status.err = true := by
  cases h : s.status.err
  · rw [(State.raiseFault_status_first s e i h).1]
  · rw [(State.raiseFault_status_later s e i h).1, h]

@[simp] theorem State.raiseFault_busy (s : State) (e : ErrCode) (i : Word) :
    (s.raiseFault e i).status.busy = s.status.busy := by
  unfold State.raiseFault; dsimp only; split <;> rfl

@[simp] theorem State.raiseFault_done (s : State) (e : ErrCode) (i : Word) :
    (s.raiseFault e i).status.done = s.status.done := by
  unfold State.raiseFault; dsimp only; split <;> rfl

@[simp] theorem State.raiseFault_unsup (s : State) (e : ErrCode) (i : Word) :
    (s.raiseFault e i).status.unsup = s.status.unsup := by
  unfold State.raiseFault; dsimp only; split <;> rfl

@[simp] theorem State.raiseFault_invnop (s : State) (e : ErrCode) (i : Word) :
    (s.raiseFault e i).status.invnop = s.status.invnop := by
  unfold State.raiseFault; dsimp only; split <;> rfl

@[simp] theorem State.raiseFault_ovr (s : State) (e : ErrCode) (i : Word) :
    (s.raiseFault e i).status.ovr = s.status.ovr := by
  unfold State.raiseFault; dsimp only; split <;> rfl

/-! ### Worker contexts -/

theorem State.worker_congr (s t : State) (h : t.workers = s.workers) (c : Nat) : t.worker c = s.worker c := by
  simp [State.worker, h]

theorem State.worker_set_self (s t : State) (c : Nat) (w : Worker) (h : t.workers = s.workers.set c w)
    (hc : c < s.workers.length) : t.worker c = w := by
  simp [State.worker, h, List.getD, hc]

theorem State.worker_set_ne (s t : State) (c d : Nat) (w : Worker) (h : t.workers = s.workers.set c w) (hd : d ≠ c) :
    t.worker d = s.worker d := by
  simp [State.worker, h, List.getD, List.getElem?_set_ne (Ne.symm hd)]

theorem State.worker_of_length_le (s : State) (c : Nat) (h : s.workers.length ≤ c) : s.worker c = Worker.reset := by
  simp [State.worker, List.getD, h]

/-- A context that is not as after reset exists. -/
theorem State.lt_length_of_ws (s : State) (c : Nat) (h : (s.worker c).ws ≠ .idle) : c < s.workers.length := by
  by_contra hc
  rw [State.worker_of_length_le s c (by omega)] at h
  exact h rfl

theorem updateFirst_length (f : Worker → Worker) (n : Nat) (l : List Worker) : (updateFirst f n l).length = l.length := by
  induction n generalizing l with
  | zero => rfl
  | succ n ih => cases l <;> simp [updateFirst, ih]

theorem updateFirst_getElem? (f : Worker → Worker) (n : Nat) (l : List Worker) (c : Nat) :
    (updateFirst f n l)[c]? = if c < n then l[c]?.map f else l[c]? := by
  induction n generalizing l c with
  | zero => simp [updateFirst]
  | succ n ih =>
    cases l with
    | nil => simp [updateFirst]
    | cons w l => cases c <;> simp [updateFirst, ih]

theorem State.worker_updateFirst_lt (s t : State) (f : Worker → Worker) (n c : Nat)
    (h : t.workers = updateFirst f n s.workers) (hc : c < n) (hl : c < s.workers.length) :
    t.worker c = f (s.worker c) := by
  simp [State.worker, h, List.getD, updateFirst_getElem?, hc, List.getElem?_eq_getElem hl]

theorem State.worker_updateFirst_ge (s t : State) (f : Worker → Worker) (n c : Nat)
    (h : t.workers = updateFirst f n s.workers) (hc : n ≤ c) : t.worker c = s.worker c := by
  simp [State.worker, h, List.getD, updateFirst_getElem?, Nat.not_lt.mpr hc]

theorem State.worker_map_idle (s t : State) (c : Nat) (h : t.workers = s.workers.map fun w => { w with ws := .idle }) :
    t.worker c = { s.worker c with ws := .idle } := by
  simp only [State.worker, h, List.getD, List.getElem?_map]
  cases s.workers[c]? <;> rfl

theorem State.worker_replicate (t : State) (n c : Nat) (h : t.workers = List.replicate n Worker.reset) :
    t.worker c = Worker.reset := by
  simp only [State.worker, h, List.getD, List.getElem?_replicate]
  split <;> rfl

end Sys2Proof.Machine
end

