-- ==== Sys2Proof/Laws/Host.lean ====
section
/-! SUPPORT. An aligned register access reaches the register at its offset (20_memory.md R76), what a register write
changes (10_state.md R40), and what a step takes (45_launcher_and_host_commands.md R239). -/

namespace Sys2Proof.Machine

open Sys2Proof

theorem Params.offset_regAddr (p : Params) (o : Nat) (h : o < 2 ^ 32) : p.offset (p.regAddr o) = o := by
  unfold Params.offset Params.regAddr
  rw [BitVec.add_comm, BitVec.add_sub_cancel]
  simp only [BitVec.toNat_ofNat]
  exact Nat.mod_eq_of_lt h

theorem Params.touchesWindow_regAddr (p : Params) (o n : Nat) (h : o < 64) (hn : 1 ≤ n) :
    p.touchesWindow (p.regAddr o) n = true := by
  unfold Params.touchesWindow
  rw [List.any_eq_true]
  refine ⟨0, List.mem_range.2 hn, ?_⟩
  have := Params.offset_regAddr p o (by omega)
  unfold Params.offset at this
  simp only [Params.inWindow, BitVec.add_zero, this, decide_eq_true_eq, h]

/-- An aligned 32-bit access of the window reaches its offset (20_memory.md R76). -/
theorem State.withOffset_regAddr (s : State) (o : Nat) (k : Nat → Out) (h : o < 64) (h4 : o % 4 = 0) :
    s.withOffset (s.params.regAddr o) 4 k = k o := by
  unfold State.withOffset
  rw [Params.touchesWindow_regAddr _ _ _ h (by decide), if_pos rfl, Params.offset_regAddr _ _ (by omega),
    if_pos ⟨rfl, h4⟩]

/-- Any other access of the window is refused (20_memory.md R76, U10). -/
theorem State.withOffset_odd (s : State) (o n : Nat) (k : Nat → Out) (h : o < 64) (hn : 1 ≤ n) (h4 : n ≠ 4 ∨ o % 4 ≠ 0) :
    s.withOffset (s.params.regAddr o) n k = .refused .registerAccess := by
  unfold State.withOffset
  rw [Params.touchesWindow_regAddr _ _ _ h hn, if_pos rfl, Params.offset_regAddr _ _ (by omega), if_neg (by omega)]

/-- A write of a locked register (10_state.md R40). -/
theorem State.lockedWrite_busy (s : State) (r : Regs) (h : s.status.busy = true) : s.lockedWrite r = s.setOvr := by
  rw [State.lockedWrite, if_pos h]

theorem State.lockedWrite_idle (s : State) (r : Regs) (h : s.status.busy = false) :
    s.lockedWrite r = { s with regs := r } := by
  rw [State.lockedWrite, h]
  rfl

/-- A register write changes registers or `OVR` and nothing else. -/
theorem State.writeReg_cases (s : State) (r : HostReg) (v : Word) :
    s.writeReg r v = s ∨ s.writeReg r v = { s with regs := { s.regs with ie := v.getLsbD 0 } } ∨
      (s.status.busy = true ∧ s.writeReg r v = s.setOvr) ∨
      (s.status.busy = false ∧ ∃ q : Regs, s.writeReg r v = { s with regs := q }) := by
  cases hb : s.status.busy <;> cases r <;> simp [State.writeReg, State.lockedWrite, hb]

/-- Everything a host write can do (45_launcher_and_host_commands.md R233). -/
theorem State.hostWrite_cases (s : State) (addr : Word) (n : Nat) (v : Word) (ctx : Bool) :
    s.hostWrite addr n v ctx = .refused .registerAccess ∨ s.hostWrite addr n v ctx = .next s ∨
      s.hostWrite addr n v ctx = s.command v ctx ∨ ∃ r, s.hostWrite addr n v ctx = .next (s.writeReg r v) := by
  unfold State.hostWrite State.withOffset
  split
  · split
    · simp only []
      split
      · exact .inr (.inr (.inl rfl))
      · rename_i r _ _
        exact .inr (.inr (.inr ⟨r, rfl⟩))
      · exact .inr (.inl rfl)
    · exact .inl rfl
  · exact .inr (.inl rfl)

/-- The turn a step takes is the first of the list, else a free one (log 2). -/
theorem State.popTurn_cons (s : State) (t : Turn) (rest : List Turn) (h : s.turns = t :: rest) :
    s.popTurn = (t, { s with turns := rest }) := by
  rw [State.popTurn, h]

theorem State.popTurn_nil (s : State) (h : s.turns = []) :
    s.popTurn = (Turn.ofFree (Config.freeTurn s.tick), { s with tick := s.tick + 1 }) := by
  rw [State.popTurn, h]

/-- A free turn is one of the block's own agents'. -/
theorem Turn.ofFree_cases (k : Nat) : Turn.ofFree k = .release ∨ Turn.ofFree k = .join ∨ ∃ c, Turn.ofFree k = .worker c := by
  match k with
  | 0 => exact .inl rfl
  | 1 => exact .inr (.inl rfl)
  | c + 2 => exact .inr (.inr ⟨c, rfl⟩)

theorem step_cons (s : State) (t : Turn) (rest : List Turn) (h : s.turns = t :: rest) :
    step s = takeTurn t { s with turns := rest } := by
  rw [step, State.popTurn_cons s t rest h]

end Sys2Proof.Machine
end

