-- ==== Sys2Proof/Laws/Launcher.lean ====
section
/-! SUPPORT. The checks of `START` (45_launcher_and_host_commands.md R224) in the rule's terms, and everything a command
can do. -/

namespace Sys2Proof.Machine

open Sys2Proof

theorem isPow2_iff (n : Nat) : isPow2 n = true ↔ ∃ k, n = 2 ^ k := by
  unfold isPow2
  rw [beq_iff_eq]
  constructor
  · intro h
    exact ⟨_, h⟩
  · rintro ⟨k, rfl⟩
    rw [Nat.log2_two_pow]

/-- The configuration passes exactly when every check of R224 holds. -/
theorem configError_none_iff (p : Params) (r : Regs) : configError p r = none ↔ configLegal p r := by
  have hp := isPow2_iff r.fftLen.toNat
  unfold configError configLegal
  simp only []
  rw [← hp]
  generalize isPow2 r.fftLen.toNat = q
  cases hb : r.brev <;> cases q <;>
    simp only [Bool.false_eq_true, reduceCtorEq, false_and, true_and, false_imp_iff, if_false, and_true,
      and_false, or_true, or_false, forall_const] <;>
    split_ifs <;> simp only [false_iff, true_iff] <;> omega

/-- A failed check reports a configuration code (60_exceptions.md R271). -/
theorem configError_isConfig (p : Params) (r : Regs) (e : ErrCode) (info : Word) (h : configError p r = some (e, info)) :
    e.isConfig = true := by
  unfold configError at h
  simp only [] at h
  split_ifs at h <;> (cases h; rfl)

/-- Everything `START` can do (R221 to R226). -/
theorem execStart_cases (s : State) :
    (s.ctx = false ∧ execStart s = .next s.setUnsup) ∨
    (s.ctx = true ∧ s.status.busy = true ∧ execStart s = .next s.setOvr) ∨
    (s.ctx = true ∧ s.status.busy = false ∧
      ((∃ e info, configError s.params s.regs = some (e, info) ∧
          execStart s = .next (s.acceptStart.refuseConfig e info)) ∨
       (configError s.params s.regs = none ∧ s.regs.inv = true ∧ execStart s = .next s.acceptStart.inverseDone) ∨
       (configError s.params s.regs = none ∧ s.regs.inv = false ∧ execStart s = .next s.acceptStart.fork))) := by
  cases hc : s.ctx
  · exact .inl ⟨rfl, by simp [execStart, hc]⟩
  · cases hb : s.status.busy
    · refine .inr (.inr ⟨rfl, rfl, ?_⟩)
      have ha : execStart s = match configError s.params s.regs with
          | some (e, info) => .next (s.acceptStart.refuseConfig e info)
          | none => if s.regs.inv then .next s.acceptStart.inverseDone else .next s.acceptStart.fork := by
        simp only [execStart, hc, hb]
        rfl
      rw [ha]
      cases hk : configError s.params s.regs with
      | none => cases hi : s.regs.inv <;> simp
      | some x => exact .inl ⟨x.1, x.2, rfl, rfl⟩
    · exact .inr (.inl ⟨rfl, rfl, by simp [execStart, hc, hb]⟩)

/-- Everything the other commands can do (R230, R231, 30_encoding.md R101). -/
theorem exec_command_cases (s : State) (i : Instr) (h : i.isMicroOp = false) (hs : i ≠ .start) :
    (s.status.busy = true ∧ exec i s = .next s.setOvr) ∨
    (s.status.busy = false ∧ i = .clear ∧ exec i s = .next s.clearStatus) ∨
    (s.status.busy = false ∧ (i = .nop ∨ i = .reservedCmd3) ∧ exec i s = .next s) := by
  cases hb : s.status.busy <;> cases i <;>
    simp_all [Instr.isMicroOp, exec, execNop, execClear, execReservedCmd3]

end Sys2Proof.Machine
end

