-- ==== Sys2Proof/Laws/Memory.lean ====
section
/-! SUPPORT. Memory: read after write, the frame of a write, the canonical form, and that equal contents are equal data. -/

namespace Sys2Proof.Machine

open Sys2Proof

theorem Memory.read_write_self (m : Memory) (a : Nat) (v : Byte) : Memory.read (Memory.write m a v) a = some v := by
  induction m with
  | nil => simp [Memory.write, Memory.read]
  | cons x m ih =>
    obtain ⟨k, u⟩ := x
    by_cases h1 : a < k
    · simp [Memory.write, Memory.read, h1]
    · by_cases h2 : a = k
      · simp [Memory.write, Memory.read, h2]
      · simp [Memory.write, Memory.read, h1, h2, Ne.symm h2, ih]

theorem Memory.read_write_ne (m : Memory) (a x : Nat) (v : Byte) (h : x ≠ a) :
    Memory.read (Memory.write m a v) x = Memory.read m x := by
  induction m with
  | nil => simp [Memory.write, Memory.read, Ne.symm h]
  | cons y m ih =>
    obtain ⟨k, u⟩ := y
    by_cases h1 : a < k
    · simp [Memory.write, Memory.read, h1, Ne.symm h]
    · by_cases h2 : a = k
      · subst h2; simp [Memory.write, Memory.read, Ne.symm h]
      · simp [Memory.write, Memory.read, h1, h2, ih]

theorem Memory.mem_write (m : Memory) (a : Nat) (v : Byte) (x : Host.Cell) (h : x ∈ Memory.write m a v) :
    x = (a, v) ∨ x ∈ m := by
  induction m with
  | nil => simpa [Memory.write] using h
  | cons y m ih =>
    obtain ⟨k, u⟩ := y
    simp only [Memory.write] at h
    split at h
    · simpa using h
    · split at h
      · rcases List.mem_cons.mp h with h | h
        · exact .inl h
        · exact .inr (by simp [h])
      · rcases List.mem_cons.mp h with h | h
        · exact .inr (by simp [h])
        · exact (ih h).imp_right (by simp +contextual)

/-- Every store keeps the canonical form. -/
theorem Memory.wf_write (m : Memory) (a : Nat) (v : Byte) (h : Memory.wf m) (ha : a < 2 ^ 32) :
    Memory.wf (Memory.write m a v) := by
  refine ⟨?_, fun x hx => ?_⟩
  · obtain ⟨hp, -⟩ := h
    induction m with
    | nil => simp [Memory.write]
    | cons y m ih =>
      obtain ⟨k, u⟩ := y
      obtain ⟨hk, hp'⟩ := List.pairwise_cons.mp hp
      simp only [Memory.write]
      split
      · rename_i h1
        refine List.pairwise_cons.mpr ⟨fun z hz => ?_, hp⟩
        rcases List.mem_cons.mp hz with rfl | hz
        · exact h1
        · exact Nat.lt_trans h1 (hk z hz)
      · split
        · rename_i h2
          subst h2
          exact List.pairwise_cons.mpr ⟨hk, hp'⟩
        · refine List.pairwise_cons.mpr ⟨fun z hz => ?_, ih hp'⟩
          rcases Memory.mem_write m a v z hz with rfl | hz
          · show k < a
            omega
          · exact hk z hz
  · rcases Memory.mem_write m a v x hx with rfl | hx
    · exact ha
    · exact h.2 x hx

theorem Memory.wf_writeN (n : Nat) : ∀ (m : Memory) (a v : Nat), Memory.wf m → a + n ≤ 2 ^ 32 →
    Memory.wf (Memory.writeN m a n v) := by
  induction n with
  | zero => intro m a v h _; exact h
  | succ n ih => intro m a v h ha; exact ih _ _ _ (Memory.wf_write m a _ h (by omega)) (by omega)

/-- The frame of a store: every byte outside it reads as before. -/
theorem Memory.read_writeN_outside (n : Nat) : ∀ (m : Memory) (a v x : Nat), (x < a ∨ a + n ≤ x) →
    Memory.read (Memory.writeN m a n v) x = Memory.read m x := by
  induction n with
  | zero => intro m a v x _; rfl
  | succ n ih =>
    intro m a v x h
    rw [Memory.writeN, ih _ _ _ _ (by omega), Memory.read_write_ne _ _ _ _ (by omega)]

/-- Byte `i` of a store is byte `i` of the value (20_memory.md R62). -/
theorem Memory.read_writeN_inside (n : Nat) : ∀ (m : Memory) (a v i : Nat), i < n →
    Memory.read (Memory.writeN m a n v) (a + i) = some (BitVec.ofNat 8 (v / 256 ^ i)) := by
  induction n with
  | zero => intro m a v i h; omega
  | succ n ih =>
    intro m a v i h
    rw [Memory.writeN]
    cases i with
    | zero => rw [Memory.read_writeN_outside _ _ _ _ _ (by omega), Nat.add_zero, Memory.read_write_self]; simp
    | succ i =>
      rw [show a + (i + 1) = a + 1 + i by omega, ih _ _ _ _ (by omega), Nat.div_div_eq_div_mul, pow_succ']

/-- A read depends on the bytes it reads alone. -/
theorem Memory.readN_congr (n : Nat) : ∀ (m m' : Memory) (a : Nat),
    (∀ i, i < n → Memory.read m (a + i) = Memory.read m' (a + i)) → Memory.readN m a n = Memory.readN m' a n := by
  induction n with
  | zero => intro _ _ _ _; rfl
  | succ n ih =>
    intro m m' a h
    simp only [Memory.readN]
    rw [show Memory.read m a = Memory.read m' a from h 0 (by omega), ih m m' (a + 1) fun i hi => by
      simpa [Nat.add_assoc, Nat.add_comm 1] using h (i + 1) (by omega)]

theorem Memory.readN_writeN_outside (m : Memory) (a n v b k : Nat) (h : b + k ≤ a ∨ a + n ≤ b) :
    Memory.readN (Memory.writeN m a n v) b k = Memory.readN m b k :=
  Memory.readN_congr k _ _ _ fun i hi => Memory.read_writeN_outside _ _ _ _ _ (by omega)

/-- A read of what was just stored gives back the low bytes of the value (R62). -/
theorem Memory.readN_writeN_self (n : Nat) : ∀ (m : Memory) (a v : Nat),
    Memory.readN (Memory.writeN m a n v) a n = some (v % 256 ^ n) := by
  induction n with
  | zero => intro m a v; simp [Memory.readN, Nat.mod_one]
  | succ n ih =>
    intro m a v
    have h0 := Memory.read_writeN_inside (n + 1) m a v 0 (by omega)
    simp only [Nat.add_zero, pow_zero, Nat.div_one] at h0
    simp only [Memory.readN, h0]
    rw [Memory.writeN, ih]
    have hv : v % 256 ^ (n + 1) = v % 256 + 256 * (v / 256 % 256 ^ n) := by rw [pow_succ', Nat.mod_mul]
    simp [hv]

theorem Memory.readWord_writeN_self (m : Memory) (a : Nat) (v : Word) :
    Memory.readWord (Memory.writeN m a 4 v.toNat) a = some v := by
  rw [Memory.readWord, Memory.readN_writeN_self]
  simp [Nat.mod_eq_of_lt v.isLt]

theorem Memory.readWord_writeN_outside (m : Memory) (a v b : Nat) (h : b + 4 ≤ a ∨ a + 4 ≤ b) :
    Memory.readWord (Memory.writeN m a 4 v) b = Memory.readWord m b := by
  rw [Memory.readWord, Memory.readWord, Memory.readN_writeN_outside _ _ _ _ _ _ h]

/-- A value read fits its bytes. -/
theorem Memory.readN_lt (n : Nat) : ∀ (m : Memory) (a r : Nat), Memory.readN m a n = some r → r < 256 ^ n := by
  induction n with
  | zero => intro m a r h; simp [Memory.readN] at h; omega
  | succ n ih =>
    intro m a r h
    simp only [Memory.readN] at h
    split at h
    · rename_i b q hb hq
      have hq := ih _ _ _ hq
      have hb := b.isLt
      simp only [Option.some.injEq] at h
      rw [pow_succ']
      omega
    · exact absurd h (by simp)

/-- A read answers exactly where all its bytes hold values. -/
theorem Memory.readN_isSome (n : Nat) : ∀ (m : Memory) (a : Nat),
    (∀ i, i < n → (Memory.read m (a + i)).isSome) → (Memory.readN m a n).isSome := by
  induction n with
  | zero => intro m a _; rfl
  | succ n ih =>
    intro m a h
    have h0 := h 0 (by omega)
    have h1 := ih m (a + 1) fun i hi => by simpa [Nat.add_assoc, Nat.add_comm 1] using h (i + 1) (by omega)
    rw [Nat.add_zero] at h0
    obtain ⟨b, hb⟩ := Option.isSome_iff_exists.mp h0
    obtain ⟨q, hq⟩ := Option.isSome_iff_exists.mp h1
    simp [Memory.readN, hb, hq]

theorem Memory.read_none_of_lt (m : Memory) (a : Nat) (h : ∀ x ∈ m, a < x.1) : Memory.read m a = none := by
  induction m with
  | nil => rfl
  | cons y m ih =>
    obtain ⟨k, u⟩ := y
    have hk : a < k := h (k, u) (by simp)
    simp [Memory.read, Nat.ne_of_gt hk, ih fun x hx => h x (by simp [hx])]

/-- Two canonical memories that read alike are the same data. -/
theorem Memory.ext (m : Memory) : ∀ m' : Memory, Memory.wf m → Memory.wf m' →
    (∀ a, Memory.read m a = Memory.read m' a) → m = m' := by
  induction m with
  | nil =>
    intro m' _ h' h
    cases m' with
    | nil => rfl
    | cons y _ => have := h y.1; simp [Memory.read] at this
  | cons x m ih =>
    intro m' hm hm' h
    obtain ⟨k, u⟩ := x
    obtain ⟨hk, hp⟩ := List.pairwise_cons.mp hm.1
    cases m' with
    | nil => have := h k; simp [Memory.read] at this
    | cons y m' =>
      obtain ⟨k', u'⟩ := y
      obtain ⟨hk', hp'⟩ := List.pairwise_cons.mp hm'.1
      have hkk : k = k' := by
        rcases Nat.lt_trichotomy k k' with hlt | he | hlt
        · have h1 := h k
          rw [Memory.read_none_of_lt ((k', u') :: m') k fun z hz => by
            rcases List.mem_cons.mp hz with rfl | hz
            · exact hlt
            · exact Nat.lt_trans hlt (hk' z hz)] at h1
          simp [Memory.read] at h1
        · exact he
        · have h1 := h k'
          rw [Memory.read_none_of_lt ((k, u) :: m) k' fun z hz => by
            rcases List.mem_cons.mp hz with rfl | hz
            · exact hlt
            · exact Nat.lt_trans hlt (hk z hz)] at h1
          simp [Memory.read] at h1
      subst hkk
      have hu : u = u' := by have := h k; simpa [Memory.read] using this
      subst hu
      rw [ih m' ⟨hp, fun z hz => hm.2 z (by simp [hz])⟩ ⟨hp', fun z hz => hm'.2 z (by simp [hz])⟩ fun a => by
        by_cases ha : k = a
        · subst ha
          rw [Memory.read_none_of_lt m k hk, Memory.read_none_of_lt m' k hk']
        · have := h a
          simpa [Memory.read, ha] using this]

/-- Stores to disjoint places commute. -/
theorem Memory.writeN_comm (m : Memory) (a b n k v w : Nat) (hm : Memory.wf m) (ha : a + n ≤ 2 ^ 32)
    (hb : b + k ≤ 2 ^ 32) (h : a + n ≤ b ∨ b + k ≤ a) :
    Memory.writeN (Memory.writeN m a n v) b k w = Memory.writeN (Memory.writeN m b k w) a n v := by
  refine Memory.ext _ _ (Memory.wf_writeN _ _ _ _ (Memory.wf_writeN _ _ _ _ hm ha) hb)
    (Memory.wf_writeN _ _ _ _ (Memory.wf_writeN _ _ _ _ hm hb) ha) fun x => ?_
  by_cases hx : b ≤ x ∧ x < b + k
  · obtain ⟨i, rfl⟩ : ∃ i, x = b + i := ⟨x - b, by omega⟩
    rw [Memory.read_writeN_inside _ _ _ _ _ (by omega), Memory.read_writeN_outside _ _ _ _ _ (by omega),
      Memory.read_writeN_inside _ _ _ _ _ (by omega)]
  · rw [Memory.read_writeN_outside k _ _ _ _ (by omega)]
    by_cases hy : a ≤ x ∧ x < a + n
    · obtain ⟨i, rfl⟩ : ∃ i, x = a + i := ⟨x - a, by omega⟩
      rw [Memory.read_writeN_inside _ _ _ _ _ (by omega), Memory.read_writeN_inside _ _ _ _ _ (by omega)]
    · rw [Memory.read_writeN_outside n _ _ _ _ (by omega), Memory.read_writeN_outside n _ _ _ _ (by omega),
        Memory.read_writeN_outside k _ _ _ _ (by omega)]

/-- What `MemValid` promises: the bytes lie in the space and in no hole. -/
theorem Params.memValid_iff (p : Params) (a n : Nat) :
    p.memValid a n = true ↔ ∀ i, i < n → p.backed (a + i) = true := by
  simp [Params.memValid]

theorem Params.memValid_bound (p : Params) (a n : Nat) (h : p.memValid a n = true) (hn : 0 < n) : a + n ≤ 2 ^ 32 := by
  have := (Params.memValid_iff p a n).mp h (n - 1) (by omega)
  simp only [Params.backed, Bool.and_eq_true, decide_eq_true_eq] at this
  omega

end Sys2Proof.Machine
end

