-- ==== Sys2Proof/Laws/Ops.lean ====
section
/-! SUPPORT. What each shared guard, and each micro-op, can do when it answers a next state: the lemmas that proofs cite
instead of unfolding a meaning. -/

namespace Sys2Proof.Machine

open Sys2Proof

theorem State.ifAdmitted_next (s t : State) (i : Instr) (k : Out) (h : s.ifAdmitted i k = .next t) :
    i.admitted s.regs.fftLen.toNat s.regs.brevLen.toNat = true ∧ k = .next t := by
  unfold State.ifAdmitted at h
  split at h
  · exact ⟨‹_›, h⟩
  · simp at h

theorem State.withBus_next (s t : State) (l : List (Nat × Nat)) (k : Out) (h : s.withBus l k = .next t) :
    (∃ a, s.params.firstInvalid l = some a ∧ t = s.raiseFault .bus (BitVec.ofNat 32 a)) ∨
      (s.params.firstInvalid l = none ∧ k = .next t) := by
  unfold State.withBus at h
  split at h
  · exact .inl ⟨_, ‹_›, by simpa using h.symm⟩
  · exact .inr ⟨‹_›, h⟩

/-- Two intervals meet exactly when a number lies in both. -/
theorem intervalsMeet_iff (a b c d : Nat) : intervalsMeet a b c d = true ↔ ∃ k, (a ≤ k ∧ k < b) ∧ c ≤ k ∧ k < d := by
  rw [intervalsMeet, decide_eq_true_eq]
  exact ⟨fun h => ⟨max a c, by omega⟩, fun ⟨k, hk⟩ => by omega⟩

/-- The overlap the detector computes is the one the host must avoid (70_reset_and_hazards.md R322). -/
theorem State.regionsOverlap_iff (s : State) : s.regionsOverlap = true ↔ ¬ s.regionsApart := by
  have h : s.regionsOverlap = true ↔ ∃ k, s.inBuffer k = true ∧ (s.inTwiddles k = true ∨ s.inBrevTable k = true) := by
    simp only [State.regionsOverlap, State.inBuffer, State.inTwiddles, State.inBrevTable, Bool.or_eq_true,
      Bool.and_eq_true, intervalsMeet_iff, decide_eq_true_eq]
    constructor
    · rintro (⟨k, h, h'⟩ | ⟨hb, k, h, h'⟩)
      · exact ⟨k, h, .inl h'⟩
      · exact ⟨k, h, .inr ⟨⟨hb, h'.1⟩, h'.2⟩⟩
    · rintro ⟨k, h, h' | ⟨⟨hb, h'⟩, h''⟩⟩
      · exact .inl ⟨k, h, h'⟩
      · exact .inr ⟨hb, k, h, h', h''⟩
  rw [h]
  simp only [State.regionsApart, not_forall, not_and_or, exists_prop, Bool.not_eq_false]

/-- Over an overlap every access of several workers is a race (R322). -/
theorem State.races_of_overlap (s : State) (acc : List Access) (hc : 1 < s.cores) (ho : ¬ s.regionsApart) :
    s.races acc = true := by
  simp [State.races, State.overlapRace, hc, s.regionsOverlap_iff.2 ho]

/-- A conflict (20_memory.md R71): different workers, one writes, and a byte in common. -/
theorem Access.conflicts_iff (x y : Access) (hx : 0 < x.size) (hy : 0 < y.size) :
    x.conflicts y = true ↔ x.worker ≠ y.worker ∧ (x.write = true ∨ y.write = true) ∧
      ∃ k, (x.addr ≤ k ∧ k < x.addr + x.size) ∧ y.addr ≤ k ∧ k < y.addr + y.size := by
  simp only [Access.conflicts, Access.overlaps, Bool.and_eq_true, Bool.or_eq_true, bne_iff_ne, decide_eq_true_eq,
    and_assoc]
  refine and_congr_right fun _ => and_congr_right fun _ => ?_
  exact ⟨fun h => ⟨max x.addr y.addr, by omega⟩, fun ⟨k, h⟩ => by omega⟩

/-- With one worker, or with the regions apart, only a conflict within the epoch is a race. -/
theorem State.races_of_apart (s : State) (acc : List Access) (h : s.cores ≤ 1 ∨ s.regionsApart) :
    s.races acc = acc.any fun x => s.log.any fun y => x.conflicts y := by
  have h0 : s.overlapRace = false := by
    rw [← Bool.not_eq_true, State.overlapRace, Bool.and_eq_true, State.regionsOverlap_iff, decide_eq_true_eq]
    rintro ⟨h1, h2⟩
    rcases h with h | h
    · omega
    · exact h2 h
  rw [State.races, h0, Bool.false_or]

/-- Everything the detector calls a race: an overlap with several workers (R322), or a conflict in the epoch (R71). -/
theorem State.races_iff (s : State) (acc : List Access) (ha : ∀ x ∈ acc, 0 < x.size) (hl : ∀ y ∈ s.log, 0 < y.size) :
    s.races acc = true ↔ (1 < s.cores ∧ ¬ s.regionsApart) ∨
      ∃ x ∈ acc, ∃ y ∈ s.log, x.worker ≠ y.worker ∧ (x.write = true ∨ y.write = true) ∧
        ∃ k, (x.addr ≤ k ∧ k < x.addr + x.size) ∧ y.addr ≤ k ∧ k < y.addr + y.size := by
  rw [State.races, Bool.or_eq_true, State.overlapRace, Bool.and_eq_true, State.regionsOverlap_iff, decide_eq_true_eq]
  refine or_congr_right ?_
  simp only [List.any_eq_true]
  constructor
  · rintro ⟨x, hx, y, hy, h⟩
    exact ⟨x, hx, y, hy, (Access.conflicts_iff x y (ha x hx) (hl y hy)).1 h⟩
  · rintro ⟨x, hx, y, hy, h⟩
    exact ⟨x, hx, y, hy, (Access.conflicts_iff x y (ha x hx) (hl y hy)).2 h⟩

theorem State.withAccess_next (s t : State) (acc : List Access) (k : State → Out) (h : s.withAccess acc k = .next t) :
    s.races acc = false ∧ k { s with log := acc ++ s.log } = .next t := by
  unfold State.withAccess at h
  split at h
  · simp at h
  · rename_i hr
    exact ⟨by simpa using hr, h⟩

theorem State.withWord_next (s t : State) (a : Nat) (k : Word → Out) (h : s.withWord a k = .next t) :
    ∃ w, Memory.readWord s.mem a = some w ∧ k w = .next t := by
  unfold State.withWord at h
  split at h
  · exact ⟨_, ‹_›, h⟩
  · simp at h

theorem State.withHalf_next (s t : State) (a : Nat) (k : Nat → Out) (h : s.withHalf a k = .next t) :
    ∃ w, Memory.readHalf s.mem a = some w ∧ k w = .next t := by
  unfold State.withHalf at h
  split at h
  · exact ⟨_, ‹_›, h⟩
  · simp at h

/-! What stops with a fault: only the race detector. -/

theorem State.ifAdmitted_fault (s : State) (i : Instr) (k : Out) (f : Fault) (h : s.ifAdmitted i k = .fault f) :
    k = .fault f := by
  unfold State.ifAdmitted at h
  split at h
  · exact h
  · simp at h

theorem State.withBus_fault (s : State) (l : List (Nat × Nat)) (k : Out) (f : Fault) (h : s.withBus l k = .fault f) :
    k = .fault f := by
  unfold State.withBus at h
  split at h
  · simp at h
  · exact h

theorem State.withAccess_fault (s : State) (acc : List Access) (k : State → Out) (f : Fault)
    (h : s.withAccess acc k = .fault f) :
    s.races acc = true ∧ f = .race s.cur ∨ k { s with log := acc ++ s.log } = .fault f := by
  unfold State.withAccess at h
  split at h
  · exact .inl ⟨‹_›, by simpa using h.symm⟩
  · exact .inr h

theorem State.withWord_fault (s : State) (a : Nat) (k : Word → Out) (f : Fault) (h : s.withWord a k = .fault f) :
    ∃ w, k w = .fault f := by
  unfold State.withWord at h
  split at h
  · exact ⟨_, h⟩
  · simp at h

theorem State.withHalf_fault (s : State) (a : Nat) (k : Nat → Out) (f : Fault) (h : s.withHalf a k = .fault f) :
    ∃ w, k w = .fault f := by
  unfold State.withHalf at h
  split at h
  · exact ⟨_, h⟩
  · simp at h

/-- A lone worker's accesses are no race with its own (20_memory.md R71). -/
theorem State.races_of_one (s : State) (acc : List Access) (hc : s.cores ≤ 1) (hl : ∀ y ∈ s.log, y.worker = s.cur)
    (ha : ∀ x ∈ acc, x.worker = s.cur) : s.races acc = false := by
  rw [s.races_of_apart acc (.inl hc), List.any_eq_false]
  intro x hx
  rw [Bool.not_eq_true, List.any_eq_false]
  intro y hy
  simp [Access.conflicts, ha x hx, hl y hy]

/-- Every access of a check list is valid exactly when none is the first that is not. -/
theorem Params.firstInvalid_none (p : Params) (l : List (Nat × Nat)) :
    p.firstInvalid l = none ↔ ∀ x ∈ l, p.memValid x.1 x.2 = true := by
  induction l with
  | nil => simp [Params.firstInvalid]
  | cons x l ih =>
    obtain ⟨a, n⟩ := x
    cases h : p.memValid a n <;> simp [Params.firstInvalid, h, ih]

/-- The state a micro-op leaves that stores `u` and `v` to the samples at `pa` and `pb` after the accesses `acc`. -/
def State.stored (s : State) (acc : List Access) (pa pb : Nat) (u v : Word) (w : Worker) : State :=
  ((({ s with log := acc ++ s.log } : State).storeWord pa u).storeWord pb v).retire w

theorem execBfly_next (s t : State) (a b ic : Half) (h : execBfly a b ic s = .next t) :
    (Instr.bfly a b ic).admitted s.regs.fftLen.toNat s.regs.brevLen.toNat = true ∧
    ((∃ x, s.params.firstInvalid [(s.samplePtr a.toNat, 4), (s.samplePtr b.toNat, 4), (s.twidPtr ic.toNat, 4)] = some x ∧
        t = s.raiseFault .bus (BitVec.ofNat 32 x)) ∨
      (s.params.firstInvalid [(s.samplePtr a.toNat, 4), (s.samplePtr b.toNat, 4), (s.twidPtr ic.toNat, 4)] = none ∧
        s.races [s.rd (s.samplePtr a.toNat) 4, s.rd (s.samplePtr b.toNat) 4, s.rd (s.twidPtr ic.toNat) 4,
          s.wr (s.samplePtr a.toNat) 4, s.wr (s.samplePtr b.toNat) 4] = false ∧
        ∃ x y w, Memory.readWord s.mem (s.samplePtr a.toNat) = some x ∧
          Memory.readWord s.mem (s.samplePtr b.toNat) = some y ∧ Memory.readWord s.mem (s.twidPtr ic.toNat) = some w ∧
          t = s.stored [s.rd (s.samplePtr a.toNat) 4, s.rd (s.samplePtr b.toNat) 4, s.rd (s.twidPtr ic.toNat) 4,
            s.wr (s.samplePtr a.toNat) 4, s.wr (s.samplePtr b.toNat) 4] (s.samplePtr a.toNat) (s.samplePtr b.toNat)
            (bf x y w).1 (bf x y w).2 { s.worker s.cur with ra := x, rb := y, rw := w, rt := bfDiff x y })) := by
  obtain ⟨hadm, h⟩ := State.ifAdmitted_next _ _ _ _ h
  refine ⟨hadm, ?_⟩
  rcases State.withBus_next _ _ _ _ h with ⟨x, hx, rfl⟩ | ⟨hv, h⟩
  · exact .inl ⟨x, hx, rfl⟩
  · obtain ⟨hr, h⟩ := State.withAccess_next _ _ _ _ h
    obtain ⟨x, hx, h⟩ := State.withWord_next _ _ _ _ h
    obtain ⟨y, hy, h⟩ := State.withWord_next _ _ _ _ h
    obtain ⟨w, hw, h⟩ := State.withWord_next _ _ _ _ h
    simp only [Host.Outcome.next.injEq] at h
    exact .inr ⟨hv, hr, x, y, w, hx, hy, hw, h.symm⟩

theorem execBflyn_next (s t : State) (a b : Half) (h : execBflyn a b s = .next t) :
    (Instr.bflyn a b).admitted s.regs.fftLen.toNat s.regs.brevLen.toNat = true ∧
    ((∃ x, s.params.firstInvalid [(s.samplePtr a.toNat, 4), (s.samplePtr b.toNat, 4)] = some x ∧
        t = s.raiseFault .bus (BitVec.ofNat 32 x)) ∨
      (s.params.firstInvalid [(s.samplePtr a.toNat, 4), (s.samplePtr b.toNat, 4)] = none ∧
        s.races [s.rd (s.samplePtr a.toNat) 4, s.rd (s.samplePtr b.toNat) 4,
          s.wr (s.samplePtr a.toNat) 4, s.wr (s.samplePtr b.toNat) 4] = false ∧
        ∃ x y, Memory.readWord s.mem (s.samplePtr a.toNat) = some x ∧
          Memory.readWord s.mem (s.samplePtr b.toNat) = some y ∧
          t = s.stored [s.rd (s.samplePtr a.toNat) 4, s.rd (s.samplePtr b.toNat) 4,
            s.wr (s.samplePtr a.toNat) 4, s.wr (s.samplePtr b.toNat) 4] (s.samplePtr a.toNat) (s.samplePtr b.toNat)
            (bfn x y).1 (bfn x y).2 { s.worker s.cur with ra := x, rb := y, rt := bfDiff x y })) := by
  obtain ⟨hadm, h⟩ := State.ifAdmitted_next _ _ _ _ h
  refine ⟨hadm, ?_⟩
  rcases State.withBus_next _ _ _ _ h with ⟨x, hx, rfl⟩ | ⟨hv, h⟩
  · exact .inl ⟨x, hx, rfl⟩
  · obtain ⟨hr, h⟩ := State.withAccess_next _ _ _ _ h
    obtain ⟨x, hx, h⟩ := State.withWord_next _ _ _ _ h
    obtain ⟨y, hy, h⟩ := State.withWord_next _ _ _ _ h
    simp only [Host.Outcome.next.injEq] at h
    exact .inr ⟨hv, hr, x, y, hx, hy, h.symm⟩

/-- `s` once the two table reads of `SWPT p` are recorded. -/
def State.noted (s : State) (p : Half) : State :=
  { s with log := [s.rd (s.brevPtr (2 * p.toNat)) 2, s.rd (s.brevPtr (2 * p.toNat + 1)) 2] ++ s.log }

theorem execSwpt_next (s t : State) (p : Half) (h : execSwpt p s = .next t) :
    (Instr.swpt p).admitted s.regs.fftLen.toNat s.regs.brevLen.toNat = true ∧
    ((∃ x, s.params.firstInvalid [(s.brevPtr (2 * p.toNat), 2), (s.brevPtr (2 * p.toNat + 1), 2)] = some x ∧
        t = s.raiseFault .bus (BitVec.ofNat 32 x)) ∨
      (s.params.firstInvalid [(s.brevPtr (2 * p.toNat), 2), (s.brevPtr (2 * p.toNat + 1), 2)] = none ∧
        s.races [s.rd (s.brevPtr (2 * p.toNat)) 2, s.rd (s.brevPtr (2 * p.toNat + 1)) 2] = false ∧
        ∃ a b, Memory.readHalf s.mem (s.brevPtr (2 * p.toNat)) = some a ∧
          Memory.readHalf s.mem (s.brevPtr (2 * p.toNat + 1)) = some b ∧
          ((s.fftN ≤ a ∧ t = (s.noted p).raiseFault .brevIdx (BitVec.ofNat 32 a)) ∨
           (a < s.fftN ∧ s.fftN ≤ b ∧ t = (s.noted p).raiseFault .brevIdx (BitVec.ofNat 32 b)) ∨
           (a < s.fftN ∧ b < s.fftN ∧ ∃ x, s.params.firstInvalid [(s.samplePtr a, 4), (s.samplePtr b, 4)] = some x ∧
             t = (s.noted p).raiseFault .bus (BitVec.ofNat 32 x)) ∨
           (a < s.fftN ∧ b < s.fftN ∧ s.params.firstInvalid [(s.samplePtr a, 4), (s.samplePtr b, 4)] = none ∧
             (s.noted p).races [s.rd (s.samplePtr a) 4, s.rd (s.samplePtr b) 4,
               s.wr (s.samplePtr a) 4, s.wr (s.samplePtr b) 4] = false ∧
             ∃ x y, Memory.readWord s.mem (s.samplePtr a) = some x ∧ Memory.readWord s.mem (s.samplePtr b) = some y ∧
               t = (s.noted p).stored [s.rd (s.samplePtr a) 4, s.rd (s.samplePtr b) 4,
                 s.wr (s.samplePtr a) 4, s.wr (s.samplePtr b) 4] (s.samplePtr a) (s.samplePtr b) y x
                 { s.worker s.cur with ra := x, rb := y })))) := by
  obtain ⟨hadm, h⟩ := State.ifAdmitted_next _ _ _ _ h
  refine ⟨hadm, ?_⟩
  rcases State.withBus_next _ _ _ _ h with ⟨x, hx, rfl⟩ | ⟨hv, h⟩
  · exact .inl ⟨x, hx, rfl⟩
  · obtain ⟨hr, h⟩ := State.withAccess_next _ _ _ _ h
    obtain ⟨a, ha, h⟩ := State.withHalf_next _ _ _ _ h
    obtain ⟨b, hb, h⟩ := State.withHalf_next _ _ _ _ h
    refine .inr ⟨hv, hr, a, b, ha, hb, ?_⟩
    split at h
    · rename_i hc
      exact .inl ⟨hc, (Host.Outcome.next.inj h).symm⟩
    · rename_i hc
      have hc : a < s.fftN := Nat.lt_of_not_le hc
      split at h
      · rename_i hd
        exact .inr (.inl ⟨hc, hd, (Host.Outcome.next.inj h).symm⟩)
      · rename_i hd
        have hd : b < s.fftN := Nat.lt_of_not_le hd
        rcases State.withBus_next _ _ _ _ h with ⟨x, hx, rfl⟩ | ⟨hv', h⟩
        · exact .inr (.inr (.inl ⟨hc, hd, x, hx, rfl⟩))
        · obtain ⟨hr', h⟩ := State.withAccess_next _ _ _ _ h
          obtain ⟨x, hx, h⟩ := State.withWord_next _ _ _ _ h
          obtain ⟨y, hy, h⟩ := State.withWord_next _ _ _ _ h
          simp only [Host.Outcome.next.injEq] at h
          exact .inr (.inr (.inr ⟨hc, hd, hv', hr', x, y, hx, hy, h.symm⟩))

/-- What a micro-op that accesses memory leaves when it answers a next state: a worker fault (from the state it began in,
but for the detector's record), or the retired state with two samples stored. Every such micro-op is one of these. -/
inductive MemoryEffect (s t : State) : Prop where
  | fault (l : List Access) (e : ErrCode) (x : Word) (he : e = .bus ∨ e = .brevIdx)
      (hl : ∀ y ∈ l, y ∈ s.log ∨ y.worker = s.cur)
      (h : t = ({ s with log := l } : State).raiseFault e x)
  | stores (l : List Access) (a b : Nat) (u v : Word) (w : Worker)
      (ha : a < s.fftN) (hb : b < s.fftN)
      (hva : s.params.memValid (s.samplePtr a) 4 = true) (hvb : s.params.memValid (s.samplePtr b) 4 = true)
      (hw : w.ws = (s.worker s.cur).ws) (hpc : w.pc = (s.worker s.cur).pc)
      (hl : ∀ y ∈ l, y ∈ s.log ∨ y.worker = s.cur)
      (h : t = { s with
        mem := Memory.writeN (Memory.writeN s.mem (s.samplePtr a) 4 u.toNat) (s.samplePtr b) 4 v.toNat
        workers := s.workers.set s.cur { w with pc := w.pc + 1 }
        log := l })

/-- Accesses of worker `cur` added to a log of its own and earlier entries. -/
theorem own_accesses (s : State) (acc l : List Access) (ha : ∀ y ∈ acc, y.worker = s.cur)
    (hl : ∀ y ∈ l, y ∈ s.log ∨ y.worker = s.cur) : ∀ y ∈ acc ++ l, y ∈ s.log ∨ y.worker = s.cur := by
  intro y hy
  rcases List.mem_append.mp hy with hy | hy
  · exact .inr (ha y hy)
  · exact hl y hy

theorem execBfly_effect (s t : State) (a b ic : Half) (h : execBfly a b ic s = .next t) : MemoryEffect s t := by
  obtain ⟨hadm, h⟩ := execBfly_next s t a b ic h
  simp only [Instr.admitted, Bool.and_eq_true, decide_eq_true_eq] at hadm
  rcases h with ⟨x, -, h⟩ | ⟨hv, -, x, y, w, -, -, -, h⟩
  · exact .fault s.log .bus _ (.inl rfl) (fun y hy => .inl hy) h
  · have hv := (Params.firstInvalid_none _ _).mp hv
    exact MemoryEffect.stores _ a.toNat b.toNat _ _ _ (show a.toNat < s.regs.fftLen.toNat by omega) hadm.1.2
      (hv (s.samplePtr a.toNat, 4) (by simp)) (hv (s.samplePtr b.toNat, 4) (by simp)) (by rfl) (by rfl)
      (own_accesses s _ s.log (by simp [State.rd, State.wr]) fun y hy => .inl hy) h

theorem execBflyn_effect (s t : State) (a b : Half) (h : execBflyn a b s = .next t) : MemoryEffect s t := by
  obtain ⟨hadm, h⟩ := execBflyn_next s t a b h
  simp only [Instr.admitted, Bool.and_eq_true, decide_eq_true_eq, beq_iff_eq] at hadm
  rcases h with ⟨x, -, h⟩ | ⟨hv, -, x, y, -, -, h⟩
  · exact .fault s.log .bus _ (.inl rfl) (fun y hy => .inl hy) h
  · have hv := (Params.firstInvalid_none _ _).mp hv
    exact MemoryEffect.stores _ a.toNat b.toNat _ _ _ (show a.toNat < s.regs.fftLen.toNat by omega) hadm.2
      (hv (s.samplePtr a.toNat, 4) (by simp)) (hv (s.samplePtr b.toNat, 4) (by simp)) (by rfl) (by rfl)
      (own_accesses s _ s.log (by simp [State.rd, State.wr]) fun y hy => .inl hy) h

theorem State.noted_mem_log (s : State) (p : Half) : ∀ y ∈ (s.noted p).log, y ∈ s.log ∨ y.worker = s.cur :=
  own_accesses s _ s.log (by simp [State.rd]) fun y hy => .inl hy

theorem execSwpt_effect (s t : State) (p : Half) (h : execSwpt p s = .next t) : MemoryEffect s t := by
  obtain ⟨-, h⟩ := execSwpt_next s t p h
  rcases h with ⟨x, -, h⟩ | ⟨-, -, a, b, -, -, h⟩
  · exact .fault s.log .bus _ (.inl rfl) (fun y hy => .inl hy) h
  rcases h with ⟨-, h⟩ | ⟨-, -, h⟩ | ⟨-, -, x, -, h⟩ | ⟨ha, hb, hv, -, x, y, -, -, h⟩
  · exact .fault _ .brevIdx _ (.inr rfl) (State.noted_mem_log s p) h
  · exact .fault _ .brevIdx _ (.inr rfl) (State.noted_mem_log s p) h
  · exact .fault _ .bus _ (.inl rfl) (State.noted_mem_log s p) h
  · have hv := (Params.firstInvalid_none _ _).mp hv
    exact MemoryEffect.stores _ a b y x _ ha hb (hv (s.samplePtr a, 4) (by simp)) (hv (s.samplePtr b, 4) (by simp))
      (by rfl) (by rfl) (own_accesses s _ _ (by simp [State.rd, State.wr]) (State.noted_mem_log s p)) h

/-- One case for all three micro-ops that access memory. -/
theorem exec_memory_effect (s t : State) (i : Instr) (hi : i.accessesMemory = true) (h : exec i s = .next t) :
    MemoryEffect s t := by
  cases i with
  | bfly a b ic => exact execBfly_effect s t a b ic h
  | bflyn a b => exact execBflyn_effect s t a b h
  | swpt p => exact execSwpt_effect s t p h
  | bar => simp [Instr.accessesMemory] at hi
  | endOp => simp [Instr.accessesMemory] at hi
  | nop => simp [Instr.accessesMemory] at hi
  | start => simp [Instr.accessesMemory] at hi
  | clear => simp [Instr.accessesMemory] at hi
  | reservedCmd3 => simp [Instr.accessesMemory] at hi

/-- No operation but `BAR` shows a word on the trace outputs: the turns do (30_encoding.md R106; log 30). -/
theorem exec_trace (s t : State) (i : Instr) (hi : i ≠ .bar) (h : exec i s = .next t) : t.trace = s.trace := by
  have memory : i.accessesMemory = true → t.trace = s.trace := by
    intro hm
    rcases exec_memory_effect s t i hm h with ⟨_, _, _, _, _, rfl⟩ | ⟨_, _, _, _, _, _, _, _, _, _, _, _, _, rfl⟩
    · exact State.raiseFault_trace _ _ _
    · rfl
  have command : i.isMicroOp = false → i ≠ .start → t.trace = s.trace := by
    intro hm hs
    rcases exec_command_cases s i hm hs with ⟨-, e⟩ | ⟨-, -, e⟩ | ⟨-, -, e⟩ <;>
      (rw [e] at h; cases h; rfl)
  cases i with
  | bfly a b ic => exact memory rfl
  | bflyn a b => exact memory rfl
  | bar => exact absurd rfl hi
  | swpt p => exact memory rfl
  | endOp =>
    cases h
    rfl
  | nop => exact command rfl (by simp)
  | start =>
    rcases execStart_cases s with ⟨-, e⟩ | ⟨-, -, e⟩ | ⟨-, -, ⟨_, _, -, e⟩ | ⟨-, -, e⟩ | ⟨-, -, e⟩⟩ <;>
      (rw [show exec .start s = _ from e] at h; cases h; rfl)
  | clear => exact command rfl (by simp)
  | reservedCmd3 => exact command rfl (by simp)

/-! ## Races, by micro-op -/

/-- Over an overlap no micro-op of several workers writes memory: it stops, or takes a worker fault
(70_reset_and_hazards.md R322; log 31). -/
theorem exec_overlap (s t : State) (i : Instr) (hi : i.accessesMemory = true) (hc : 1 < s.cores)
    (ho : ¬ s.regionsApart) (h : exec i s = .next t) : ∃ a, t = s.raiseFault .bus a := by
  have hr := fun acc => s.races_of_overlap acc hc ho
  cases i with
  | bfly a b ic =>
    rcases (execBfly_next s t a b ic h).2 with ⟨x, -, h⟩ | ⟨-, h, -⟩
    · exact ⟨_, h⟩
    · simp [hr] at h
  | bflyn a b =>
    rcases (execBflyn_next s t a b h).2 with ⟨x, -, h⟩ | ⟨-, h, -⟩
    · exact ⟨_, h⟩
    · simp [hr] at h
  | swpt p =>
    rcases (execSwpt_next s t p h).2 with ⟨x, -, h⟩ | ⟨-, h, -⟩
    · exact ⟨_, h⟩
    · simp [hr] at h
  | _ => simp [Instr.accessesMemory] at hi

/-- A micro-op of the only worker is no race, whatever the tables name and wherever the regions lie
(20_memory.md R71, 44_bit_reversal_engine.md R210; log 31). -/
theorem exec_one_ne_fault (s : State) (i : Instr) (f : Fault) (hi : i.accessesMemory = true) (hc : s.cores ≤ 1)
    (hl : ∀ y ∈ s.log, y.worker = s.cur) : exec i s ≠ .fault f := by
  intro h
  cases i with
  | bfly a b ic =>
    replace h := State.withBus_fault _ _ _ _ (State.ifAdmitted_fault _ _ _ _ h)
    rcases State.withAccess_fault _ _ _ _ h with ⟨h, -⟩ | h
    · simp [s.races_of_one _ hc hl, State.rd, State.wr] at h
    · obtain ⟨_, h⟩ := State.withWord_fault _ _ _ _ h
      obtain ⟨_, h⟩ := State.withWord_fault _ _ _ _ h
      obtain ⟨_, h⟩ := State.withWord_fault _ _ _ _ h
      cases h
  | bflyn a b =>
    replace h := State.withBus_fault _ _ _ _ (State.ifAdmitted_fault _ _ _ _ h)
    rcases State.withAccess_fault _ _ _ _ h with ⟨h, -⟩ | h
    · simp [s.races_of_one _ hc hl, State.rd, State.wr] at h
    · obtain ⟨_, h⟩ := State.withWord_fault _ _ _ _ h
      obtain ⟨_, h⟩ := State.withWord_fault _ _ _ _ h
      cases h
  | swpt p =>
    replace h := State.withBus_fault _ _ _ _ (State.ifAdmitted_fault _ _ _ _ h)
    rcases State.withAccess_fault _ _ _ _ h with ⟨h, -⟩ | h
    · simp [s.races_of_one _ hc hl, State.rd] at h
    · obtain ⟨a, h⟩ := State.withHalf_fault _ _ _ _ h
      obtain ⟨b, h⟩ := State.withHalf_fault _ _ _ _ h
      split at h
      · cases h
      split at h
      · cases h
      rcases State.withAccess_fault _ _ _ _ (State.withBus_fault _ _ _ _ h) with ⟨h, -⟩ | h
      · have hl' : ∀ y ∈ (s.noted p).log, y.worker = s.cur := by simpa [State.noted, State.rd] using hl
        have h' := (s.noted p).races_of_one [s.rd (s.samplePtr a) 4, s.rd (s.samplePtr b) 4, s.wr (s.samplePtr a) 4,
          s.wr (s.samplePtr b) 4] hc hl' (by simp [State.rd, State.wr, State.noted])
        exact absurd (h'.symm.trans h) (by decide)
      · obtain ⟨_, h⟩ := State.withWord_fault _ _ _ _ h
        obtain ⟨_, h⟩ := State.withWord_fault _ _ _ _ h
        cases h
  | _ => simp [Instr.accessesMemory] at hi

end Sys2Proof.Machine
end

