-- ==== Sys2Proof/Laws/PerInstr.lean ====
section
/-! SUPPORT. Facts about every operation as syntax, one lemma per constructor. -/

namespace Sys2Proof.Laws

open Sys2Proof

/-- What 30_encoding.md R105 admits is well formed, whatever the configuration. -/
def AdmittedIsWellFormed.Statement (i : Instr) : Prop := ∀ n l : Nat, i.admitted n l = true → i.wf = true

theorem AdmittedIsWellFormed.bfly (a b ic : Half) : AdmittedIsWellFormed.Statement (.bfly a b ic) := by
  intro n l h
  simp only [Instr.admitted, Instr.wf, Bool.and_eq_true, decide_eq_true_eq] at *
  exact h.1.1

theorem AdmittedIsWellFormed.bflyn (a b : Half) : AdmittedIsWellFormed.Statement (.bflyn a b) := by
  intro n l h
  simp only [Instr.admitted, Instr.wf, Bool.and_eq_true] at *
  exact h.1

theorem AdmittedIsWellFormed.bar : AdmittedIsWellFormed.Statement .bar := fun _ _ _ => rfl
theorem AdmittedIsWellFormed.swpt (p : Half) : AdmittedIsWellFormed.Statement (.swpt p) := fun _ _ _ => rfl
theorem AdmittedIsWellFormed.endOp : AdmittedIsWellFormed.Statement .endOp := fun _ _ _ => rfl
theorem AdmittedIsWellFormed.nop : AdmittedIsWellFormed.Statement .nop := fun _ _ _ => rfl
theorem AdmittedIsWellFormed.start : AdmittedIsWellFormed.Statement .start := fun _ _ _ => rfl
theorem AdmittedIsWellFormed.clear : AdmittedIsWellFormed.Statement .clear := fun _ _ _ => rfl
theorem AdmittedIsWellFormed.reservedCmd3 : AdmittedIsWellFormed.Statement .reservedCmd3 := fun _ _ _ => rfl

/-- A command is always 32 bits, a micro-op always 64 (30_encoding.md R102). -/
def EncodedWidth.Statement (i : Instr) : Prop := (encode i).bits = if i.isMicroOp then 64 else 32

theorem EncodedWidth.bfly (a b ic : Half) : EncodedWidth.Statement (.bfly a b ic) := rfl
theorem EncodedWidth.bflyn (a b : Half) : EncodedWidth.Statement (.bflyn a b) := rfl
theorem EncodedWidth.bar : EncodedWidth.Statement .bar := rfl
theorem EncodedWidth.swpt (p : Half) : EncodedWidth.Statement (.swpt p) := rfl
theorem EncodedWidth.endOp : EncodedWidth.Statement .endOp := rfl
theorem EncodedWidth.nop : EncodedWidth.Statement .nop := rfl
theorem EncodedWidth.start : EncodedWidth.Statement .start := rfl
theorem EncodedWidth.clear : EncodedWidth.Statement .clear := rfl
theorem EncodedWidth.reservedCmd3 : EncodedWidth.Statement .reservedCmd3 := rfl

end Sys2Proof.Laws
end

