-- ==== Sys2Proof/Laws/Scheduler.lean ====
section
/-! SUPPORT. What the scheduler can emit (42_stage_scheduler.md R160 to R174), when a worker is at the barrier (R191), and
when the controller and the launcher are enabled (R192, R229). -/

namespace Sys2Proof.Machine

open Sys2Proof

/-! ## The partition -/

theorem le_mul_ceilDiv (n p : Nat) (hp : 1 ≤ p) : n ≤ p * ceilDiv n p := by
  unfold ceilDiv
  have := Nat.lt_mul_div_succ (n + p - 1) (show 0 < p by omega)
  rw [Nat.mul_add] at this
  omega

/-- Worker `c` owns `x` (R162). -/
theorem mem_owned (c n p x : Nat) :
    x ∈ owned c n p ↔ c * ceilDiv n p ≤ x ∧ x < (c + 1) * ceilDiv n p ∧ x < n := by
  unfold owned block
  simp only [List.mem_range'_1]
  split
  · omega
  · simp only [Nat.min_def]
    split <;> omega

theorem lt_of_mem_owned {c n p x : Nat} (h : x ∈ owned c n p) : x < n := ((mem_owned c n p x).1 h).2.2

/-! ## Members of the bodies -/

theorem mem_groupOps (n n1 mod j : Nat) (i : Instr) :
    i ∈ groupOps n n1 mod j ↔
      ∃ i0 ∈ groupStarts n n1 j, i = .bfly (idx i0) (idx (i0 + n1 / 2)) (idx (mod * j)) := by
  simp only [groupOps, List.mem_map]
  exact ⟨fun ⟨a, h, e⟩ => ⟨a, h, e.symm⟩, fun ⟨a, h, e⟩ => ⟨a, h, e.symm⟩⟩

theorem mem_stageBody (n n1 mod c p : Nat) (i : Instr) :
    i ∈ stageBody n n1 mod c p ↔ ∃ j ∈ owned c (n1 / 2) p, i ∈ groupOps n n1 mod j := by
  simp only [stageBody, List.mem_flatMap]

theorem mem_finalBody (n c p : Nat) (i : Instr) :
    i ∈ finalBody n c p ↔ ∃ k ∈ owned c (n / 2) p, i = .bflyn (idx (2 * k)) (idx (2 * k + 1)) := by
  simp only [finalBody, List.mem_map]
  exact ⟨fun ⟨a, h, e⟩ => ⟨a, h, e.symm⟩, fun ⟨a, h, e⟩ => ⟨a, h, e.symm⟩⟩

theorem mem_brevBody (brev : Bool) (l c p : Nat) (i : Instr) :
    i ∈ brevBody brev l c p ↔ brev = true ∧ ∃ k ∈ owned c (l / 2) p, i = .swpt (idx k) := by
  cases brev with
  | false => simp [brevBody]
  | true =>
    simp only [brevBody, if_true, List.mem_map, true_and]
    exact ⟨fun ⟨a, h, e⟩ => ⟨a, h, e.symm⟩, fun ⟨a, h, e⟩ => ⟨a, h, e.symm⟩⟩

theorem accesses_of_mem_stageBody {n n1 mod c p : Nat} {i : Instr} (h : i ∈ stageBody n n1 mod c p) :
    i.accessesMemory = true := by
  obtain ⟨j, -, h⟩ := (mem_stageBody _ _ _ _ _ _).1 h
  obtain ⟨i0, -, rfl⟩ := (mem_groupOps _ _ _ _ _).1 h
  rfl

theorem accesses_of_mem_finalBody {n c p : Nat} {i : Instr} (h : i ∈ finalBody n c p) : i.accessesMemory = true := by
  obtain ⟨k, -, rfl⟩ := (mem_finalBody _ _ _ _).1 h
  rfl

theorem accesses_of_mem_brevBody {brev : Bool} {l c p : Nat} {i : Instr} (h : i ∈ brevBody brev l c p) :
    i.accessesMemory = true := by
  obtain ⟨-, k, -, rfl⟩ := (mem_brevBody _ _ _ _ _).1 h
  rfl

/-! ## The twiddle stages -/

/-- The twiddle stages of group sizes `2^k, 2^(k-1), …, 4` with their two barriers each: stage by stage (R161, R164). -/
theorem twiddleStages_succ (n c p fuel k mod : Nat) (hk : 1 ≤ k) :
    twiddleStages n c p (fuel + 1) (2 ^ (k + 1)) mod =
      .bar :: (stageBody n (2 ^ (k + 1)) mod c p ++ .bar :: twiddleStages n c p fuel (2 ^ k) (mod * 2)) := by
  have h : 2 ^ (k + 1) > 2 := by
    have := Nat.pow_le_pow_right (show 2 > 0 by decide) hk
    omega
  rw [twiddleStages, if_pos h, Nat.pow_succ, Nat.mul_div_cancel _ (by decide)]

/-- No twiddle stage is left at group size 2. -/
theorem twiddleStages_two (n c p fuel mod : Nat) : twiddleStages n c p fuel 2 mod = [] := by
  cases fuel <;> simp [twiddleStages]

/-- Every micro-op of the twiddle stages is `BAR` or stands in some stage's body. -/
theorem mem_twiddleStages (n c p : Nat) (i : Instr) : ∀ fuel n1 mod, i ∈ twiddleStages n c p fuel n1 mod →
    i = .bar ∨ ∃ n1' mod', i ∈ stageBody n n1' mod' c p
  | 0, _, _, h => by simp [twiddleStages] at h
  | fuel + 1, n1, mod, h => by
    rw [twiddleStages] at h
    split at h
    · simp only [List.mem_cons, List.mem_append] at h
      rcases h with h | h | h | h
      · exact .inl h
      · exact .inr ⟨_, _, h⟩
      · exact .inl h
      · exact mem_twiddleStages n c p i fuel _ _ h
    · simp at h

/-- What `prog(c)` consists of (R160, R169). -/
theorem mem_prog (n p l c : Nat) (brev : Bool) (i : Instr) (h : i ∈ prog n p brev l c) :
    i = .bar ∨ i = .endOp ∨ i.accessesMemory = true := by
  simp only [prog, List.mem_append, List.mem_cons, List.not_mem_nil, or_false] at h
  rcases h with h | h | h | h | h | h
  · rcases mem_twiddleStages n c p i _ _ _ h with h | ⟨_, _, h⟩
    · exact .inl h
    · exact .inr (.inr (accesses_of_mem_stageBody h))
  · exact .inl h
  · exact .inr (.inr (accesses_of_mem_finalBody h))
  · exact .inl h
  · exact .inr (.inr (accesses_of_mem_brevBody h))
  · exact .inr (.inl h)

/-- The scheduler emits micro-ops only (30_encoding.md R90). -/
theorem isMicroOp_of_mem_prog (n p l c : Nat) (brev : Bool) (i : Instr) (h : i ∈ prog n p brev l c) :
    i.isMicroOp = true := by
  rcases mem_prog n p l c brev i h with rfl | rfl | h
  · rfl
  · rfl
  · cases i <;> simp_all [Instr.accessesMemory, Instr.isMicroOp]

theorem State.isMicroOp_of_nextOp (s : State) (c : Nat) (i : Instr) (h : s.nextOp c = some i) : i.isMicroOp = true :=
  isMicroOp_of_mem_prog _ _ _ _ _ i (List.mem_of_getElem? h)

/-! ## What is issued, and who is enabled -/

/-- One more word on the trace outputs (30_encoding.md R106). -/
theorem State.traceOf_snoc (s t : State) (c d : Nat) (w : UWord) (h : t.trace = s.trace ++ [(c, w)]) :
    t.traceOf d = if c = d then s.traceOf d ++ [w] else s.traceOf d := by
  unfold State.traceOf
  rw [h]
  by_cases hc : c = d <;> simp [List.filter_append, hc]

/-- A word handed in the place of a micro-op stands in the place of one that accesses memory (log 8). -/
theorem State.takesWord_iff (s : State) (c : Nat) :
    s.takesWord c = true ↔ (s.worker c).ws = .run ∧ ∃ j, s.nextOp c = some j ∧ j.accessesMemory = true := by
  unfold State.takesWord
  rw [Bool.and_eq_true, beq_iff_eq, Option.any_eq_true]

/-- Only `BAR` is encoded as `BAR`. -/
theorem encode_eq_barWord (i : Instr) : encode i = .u barWord ↔ i = .bar := by
  constructor
  · intro h
    cases i with
    | bar => rfl
    | bfly a b ic =>
      have := congrArg opField (Code.u.inj h)
      simp [barWord] at this
    | bflyn a b =>
      have := congrArg opField (Code.u.inj h)
      simp [barWord] at this
    | swpt p =>
      have := congrArg opField (Code.u.inj h)
      simp [barWord] at this
    | endOp =>
      have := congrArg opField (Code.u.inj h)
      simp [barWord] at this
    | nop => simp [encode] at h
    | start => simp [encode] at h
    | clear => simp [encode] at h
    | reservedCmd3 => simp [encode] at h
  · rintro rfl
    rfl

theorem State.issued_run (s : State) (c : Nat) (i : Instr) (hr : (s.worker c).ws = .run) (h : s.nextOp c = some i) :
    s.issued c = some (encode i) := by
  rw [State.issued, if_pos hr, h]
  rfl

theorem State.issued_none (s : State) (c : Nat) (hr : (s.worker c).ws ≠ .run) : s.issued c = none := if_neg hr

/-- A worker is at the barrier exactly when it is `RUN` and `BAR` is its next micro-op (R191). -/
theorem State.atBar_iff (s : State) (c : Nat) :
    s.atBar c = true ↔ (s.worker c).ws = .run ∧ s.nextOp c = some .bar := by
  unfold State.atBar State.issued
  rw [beq_iff_eq]
  split
  · rename_i hr
    simp only [hr, true_and]
    cases h : s.nextOp c with
    | none => simp
    | some i =>
      simp only [Option.map_some, Option.some.injEq]
      exact encode_eq_barWord i
  · rename_i hr
    simp [hr]

theorem State.allCores_iff (s : State) (p : Nat → Bool) : s.allCores p = true ↔ ∀ c, c < s.cores → p c = true := by
  simp [State.allCores]

/-- The release is enabled (R192). -/
theorem State.releaseEnabled_iff (s : State) :
    s.releaseEnabled = true ↔
      s.status.busy = true ∧ ∀ c, c < s.cores → (s.worker c).ws = .run ∧ s.nextOp c = some .bar := by
  simp only [State.releaseEnabled, Bool.and_eq_true, State.allCores_iff, State.atBar_iff]

/-- The join is enabled (R229). -/
theorem State.joinEnabled_iff (s : State) :
    s.joinEnabled = true ↔ s.status.busy = true ∧ ∀ c, c < s.cores → (s.worker c).ws = .ended := by
  simp only [State.joinEnabled, Bool.and_eq_true, State.allCores_iff, beq_iff_eq]

end Sys2Proof.Machine
end

