-- ==== Sys2Proof/Tests/Slice0.lean ====
section
/-! SUPPORT. Tests with the spec's own numbers (95_test_vectors.md, 30_encoding.md), the smoke tests of `WellFormed`, and
for every statement with hypotheses a witness that meets them. -/

namespace Sys2Proof.Tests

open Sys2Proof Sys2Proof.Machine

/-! ## Helpers -/

/-- The outcome is a next state with the property. -/
def after (o : Out) (p : State → Bool) : Bool :=
  match o with
  | .next t => p t
  | .fault _ => false
  | .refused _ => false

/-- The outcome is this fault. -/
def faults (o : Out) (r : Fault) : Bool :=
  match o with
  | .next _ => false
  | .fault q => q == r
  | .refused _ => false

/-- The outcome is this refusal. -/
def refuses (o : Out) (r : Refusal) : Bool :=
  match o with
  | .next _ => false
  | .fault _ => false
  | .refused q => q == r

/-- Words stored from an address on. -/
def words (a : Nat) : List Word → Memory → Memory
  | [], m => m
  | w :: ws, m => words (a + 4) ws (Memory.writeN m a 4 w.toNat)

/-- "good4" of 95_test_vectors.md section 8. -/
def good4 : Regs :=
  { Regs.reset with
    fftLen := 4, twidBase := 0x10001000, twidLen := 2, brevBase := 0x10002000, brevLen := 2, bufBase := 0x10000000
    bufLen := 8, ncores := 1 }

/-- An idle block with the registers `r`, whose next command carries `ctx = 1`. -/
def idle (r : Regs) : State := { State.reset with regs := r, ctx := true }

/-- A running invocation with the worker contexts `ws`. -/
def running (r : Regs) (ws : List Worker) (m : Memory) : State :=
  { State.reset with
    params := { Params.default with maxCores := ws.length }
    regs := { r with ncores := BitVec.ofNat 32 ws.length }
    status := { Status.reset with busy := true }
    workers := ws
    mem := m }

/-- A worker that is `RUN` at `pc`. -/
def at' (pc : Nat) : Worker := { Worker.reset with ws := .run, pc := pc }

/-- Program 1's TwiddleTable and SampleBuffer (95_test_vectors.md section 9), and a table that names samples 1 and 2. -/
def mem4 : Memory :=
  words 0x10000000 [0xF0600FA0, 0x03E81F40, 0x07D0D120, 0xF4483E80]
    (words 0x10001000 [0x00007FFF, 0x7FFF0000] (words 0x10002000 [0x00020001] []))

/-- Program 1 running, its worker at `pc`. -/
def run4 (pc : Nat) : State := running good4 [at' pc] mem4

/-- The same with `FLAGS.BREV = 1`. -/
def brev4 (pc : Nat) : State := running { good4 with brev := true } [at' pc] mem4

/-- The registers of row 11 of section 3, with a 16-sample buffer. -/
def regs16 : Regs := { good4 with fftLen := 16, bufLen := 32, twidLen := 8, brev := true, brevLen := 12 }

/-- The registers of section 6. -/
def regs8 : Regs := { good4 with fftLen := 8, bufLen := 16, twidLen := 4, brev := true, brevLen := 4 }

/-! ## WellFormed: an ill-formed term for each check -/

theorem test_wf_bfly_equal : (Instr.bfly 5 5 0).wf = false := by decide
theorem test_wf_bfly_order : (Instr.bfly 9 5 0).wf = false := by decide
theorem test_wf_bflyn_odd : (Instr.bflyn 3 4).wf = false := by decide
theorem test_wf_bflyn_gap : (Instr.bflyn 2 4).wf = false := by decide
theorem test_wf_bflyn_equal : (Instr.bflyn 2 2).wf = false := by decide
theorem test_admitted_bfly_sample : (Instr.bfly 5 16 3).admitted 16 12 = false := by decide
theorem test_admitted_bfly_twiddle : (Instr.bfly 5 9 8).admitted 16 12 = false := by decide
theorem test_admitted_bflyn_sample : (Instr.bflyn 16 17).admitted 16 12 = false := by decide
theorem test_admitted_swpt_pair : (Instr.swpt 6).admitted 16 12 = false := by decide
theorem test_admitted_edges : (Instr.bfly 14 15 7).admitted 16 12 = true ∧ (Instr.bflyn 14 15).admitted 16 12 = true ∧
    (Instr.swpt 5).admitted 16 12 = true := by decide

/-! ## Decoding: words of 95_test_vectors.md sections 3, 6, 8 and 9 -/

theorem test_decode_bfly : decode (.u 0x1000000300090005) = .ok (.bfly 5 9 3) := by rfl
theorem test_decode_bflyn : decode (.u 0x2000000000070006) = .ok (.bflyn 6 7) := by rfl
theorem test_decode_bar : decode (.u 0x3000000000000000) = .ok .bar := by rfl
theorem test_decode_swpt : decode (.u 0x4000000000000001) = .ok (.swpt 1) := by rfl
theorem test_decode_end : decode (.u 0x5000000000000000) = .ok .endOp := by rfl
theorem test_decode_nop : decode (.c 0) = .ok .nop := by rfl
theorem test_decode_start : decode (.c 0xFFFFFFFD) = .ok .start := by rfl
theorem test_decode_clear : decode (.c 2) = .ok .clear := by rfl
theorem test_decode_cmd3 : decode (.c 3) = .ok .reservedCmd3 := by rfl
/-- 30_encoding.md R98: `op = 0`, `op = 6`, and a non-zero must-be-zero field in each defined `op`. -/
theorem test_decode_reserved : decode (.u 0) = .error .reservedOp ∧ decode (.u 0x6000000000000000) = .error .reservedOp ∧
    decode (.u 0xF000000000000000) = .error .reservedOp ∧ decode (.u 0x1001000300090005) = .error .mustBeZero ∧
    decode (.u 0x2000000100070006) = .error .mustBeZero ∧ decode (.u 0x3000000000000001) = .error .mustBeZero ∧
    decode (.u 0x4000000000010001) = .error .mustBeZero ∧ decode (.u 0x5000000000000001) = .error .mustBeZero :=
  ⟨rfl, rfl, rfl, rfl, rfl, rfl, rfl, rfl⟩
theorem test_table_words : decodeTableWord 64 0x1000000300090005 = some (.bfly 5 9 3) ∧
    decodeTableWord 64 0x5000000000000000 = some .endOp ∧ decodeTableWord 32 0xFFFFFFFD = some .start ∧
    decodeTableWord 64 0 = none := by decide
/-- The listing lines of Program 2, worker 1. -/
theorem test_listing : listingLine 1 (.bfly 2 6 2) = "1  0x1000000200060002  BFLY  2, 6, 2" ∧
    listingLine 9 (.bflyn 4 5) = "9  0x2000000000050004  BFLYN 4, 5" ∧
    listingLine 12 (.swpt 1) = "12  0x4000000000000001  SWPT  1" := by decide

/-! ## Arithmetic: sections 2 to 4 -/

theorem test_half_floor : half2 (pack (-1) 32767) = pack (-1) 16383 ∧ half2 (pack (-32768) (-3)) = pack (-16384) (-2) := by
  decide
theorem test_q15narrow : q15narrow (-1) = -1 ∧ q15narrow 1073741824 = -32768 ∧ q15narrow 1518422780 = -19198 ∧
    q15narrow (-1073741825) = 32767 := by decide
theorem test_products : dotp (pack 2000 (-3000)) (pack 23170 23170) = -23170000 ∧
    xdif (pack 2000 (-3000)) (pack 23170 23170) = -115850000 ∧
    xdif (pack 32767 (-32767)) (pack (-32768) (-32768)) = 2147418112 := by decide
/-- Rows 5, 11, 15, 19 of section 3. -/
theorem test_bf_rows : bf (pack 32767 32767) (pack (-32768) (-32768)) (pack 23170 23170) = (0xFFFFFFFF, 0x0000B502) ∧
    bf (pack 1000 (-2000)) (pack (-3000) 4000) (pack 23170 23170) = (0x03E8FC18, 0xF230FD3C) ∧
    bf (pack 0 0) (pack 6 0) (pack 16384 0) = (0x00000003, 0x0000FFFE) ∧
    bf (pack (-32768) 0) (pack 32767 0) (pack 0 (-32768)) = (0x0000FFFF, 0x80010000) := by decide
/-- Rows 2, 4, 12 of section 4. -/
theorem test_bfn_rows : bfn (pack 7 (-7)) (pack 3 (-3)) = (0xFFFA0004, 0xFFFE0002) ∧
    bfn (pack 32767 32767) (pack (-32768) (-32768)) = (0xFFFFFFFF, 0x7FFF7FFF) ∧
    bfn (pack 7999 (-3000)) (pack 1999 3999) = (0x01F31386, 0xF2550BB8) := by decide

/-! ## One step of each operation -/

/-- Row 11 of section 3 as a micro-op with memory. -/
theorem test_bfly_memory : after
    (exec (.bfly 5 9 3) (running regs16 [at' 1] (words 0x10000014 [0xF83003E8] (words 0x10000024 [0x0FA0F448]
      (words 0x1000100C [0x5A825A82] []))))) (fun t =>
    Memory.readWord t.mem 0x10000014 == some 0x03E8FC18 && Memory.readWord t.mem 0x10000024 == some 0xF230FD3C &&
    Memory.readWord t.mem 0x1000100C == some 0x5A825A82 && (t.worker 0).pc == 2 &&
    (t.worker 0).ra == 0xF83003E8 && (t.worker 0).rt == pack 2000 (-3000)) = true := by decide
/-- Program 1, pc 1, taken by the scheduler's own turn. -/
theorem test_bfly_scheduled : after (takeTurn (.worker 0) (run4 1)) (fun t =>
    Memory.readWord t.mem 0x10000000 == some 0xFC18F060 && Memory.readWord t.mem 0x10000008 == some 0xF4481F3F &&
    Memory.readWord t.mem 0x10000004 == some 0x03E81F40) = true := by decide
/-- Row 2 of section 4, on samples 2 and 3. -/
theorem test_bflyn_memory : after
    (exec (.bflyn 2 3) (running good4 [at' 6] (words 0x10000008 [0xFFF90007, 0xFFFD0003] []))) (fun t =>
    Memory.readWord t.mem 0x10000008 == some 0xFFFA0004 && Memory.readWord t.mem 0x1000000C == some 0xFFFE0002 &&
    (t.worker 0).pc == 7) = true := by decide
/-- 60_exceptions.md R282: the second sample is not backed. -/
theorem test_bflyn_bus : after
    (exec (.bflyn 2 3) { run4 6 with params := { Params.default with holes := [(0x1000000C, 0x10001000)] } }) (fun t =>
    t.status.toWord == 0x00001005 && t.errInfo == 0x1000000C && (t.worker 0).ws == .faulted && (t.worker 0).pc == 6 &&
    t.mem == mem4) = true := by decide
/-- Row 1 of section 6. -/
theorem test_swpt_memory : after
    (exec (.swpt 0) (running regs8 [at' 12] (words 0x10000004 [0x11111111] (words 0x10000010 [0x44444444]
      (words 0x10002000 [0x00040001, 0x00060003] []))))) (fun t =>
    Memory.readWord t.mem 0x10000004 == some 0x44444444 && Memory.readWord t.mem 0x10000010 == some 0x11111111) = true := by
  decide
/-- Row 5 of section 6. -/
theorem test_swpt_index : after
    (exec (.swpt 0) (running regs8 [at' 12] (words 0x10002000 [0x00080009] []))) (fun t =>
    t.status.errCode == .brevIdx && t.errInfo == 9 && (t.worker 0).ws == .faulted) = true := by decide
/-- Row 4 of section 7: different `pc`, all at `BAR`. -/
theorem test_bar_release : after
    (exec .bar (running good4 [at' 2, at' 2, at' 1, at' 1, at' 1, at' 1, at' 1, at' 1] [])) (fun t =>
    t.workers.map Worker.pc == [3, 3, 2, 2, 2, 2, 2, 2] && t.epoch == 1) = true := by decide
/-- Row 2 of section 7: workers 0 and 1 are not at `BAR`. -/
theorem test_bar_waits : after
    (exec .bar (running good4 [at' 1, at' 1, at' 1, at' 1, at' 1, at' 1, at' 1, at' 1] [])) (fun t =>
    t.workers.map Worker.pc == [1, 1, 1, 1, 1, 1, 1, 1] && t.epoch == 0) = true := by decide
/-- Row 5 of section 7: worker 5's `END`. -/
theorem test_end : after
    (takeTurn (.worker 5) (running good4 [at' 6, at' 6, at' 4, at' 4, at' 4, at' 4, at' 4, at' 4] [])) (fun t =>
    t.worker 5 == { at' 4 with ws := .ended } && t.worker 4 == at' 4 && !t.joinEnabled) = true := by decide
/-- Row 6 of section 7. -/
theorem test_join : after
    (takeTurn .join (running good4 [{ at' 6 with ws := .ended }, { at' 6 with ws := .ended }] [])) (fun t =>
    t.status.toWord == 2 && (t.worker 1).ws == .idle) = true := by decide
/-- Rows 1 and 19 of section 8. -/
theorem test_start : after (exec .start (idle good4)) (fun t =>
      t.status.toWord == 1 && t.worker 0 == at' 0 && (t.worker 1).ws == .idle) = true ∧
    after (exec .start (idle { good4 with fftLen := 6, ncores := 0 })) (fun t =>
      t.status.toWord == 0x00FF0104 && t.errInfo == 6) = true := by decide
/-- Rows 16 and 20 of section 8: a region that ends at `2^32`, and an inverse request. -/
theorem test_start_edges : after (exec .start (idle { good4 with bufBase := 0xFFFFFFF0 })) (fun t =>
      t.status.toWord == 1) = true ∧
    after (exec .start (idle { good4 with inv := true })) (fun t => t.status.toWord == 0x12) = true := by decide
/-- Rows 30 and 26 of section 8. -/
theorem test_clear : after
      (exec .clear { idle good4 with
        status := { Status.reset with done := true, unsup := true, invnop := true, ovr := true } })
      (fun t => t.status.toWord == 0) = true ∧
    after (exec .clear (run4 1)) (fun t => t.status.toWord == 0x21) = true := by decide
/-- Row 31 of section 8. -/
theorem test_nop : after (exec .nop { idle good4 with status := { Status.reset with done := true } }) (fun t =>
    t.status.toWord == 2) = true := by decide
/-- Row 32 of section 8. -/
theorem test_cmd3 : after (exec .reservedCmd3 { idle good4 with status := { Status.reset with done := true } }) (fun t =>
    t.status.toWord == 2) = true := by decide
/-- Rows 28 and 29 of section 8, and the read-back of `FLAGS`. -/
theorem test_register_writes : after (takeTurn (.regWrite 4 4 8 true) (run4 1)) (fun t =>
      t.status.toWord == 0x21 && t.readOffset 4 == 4) = true ∧
    after (takeTurn (.regWrite 0x2C 4 1 true) (run4 1)) (fun t => t.readOffset 0x2C == 1 && t.status.toWord == 1) = true ∧
    after (takeTurn (.regWrite 0x20 4 0xFFFFFFFF true) (idle good4)) (fun t => t.readOffset 0x20 == 3) = true := by decide

/-! ## The scheduler: sections 5 and 9 -/

theorem test_blocks : (List.range 3).map (fun c => block c 2048 3) = [(0, 683), (683, 1366), (1366, 2048)] ∧
    (List.range 5).map (fun c => block c 16 5) = [(0, 4), (4, 8), (8, 12), (12, 16), (16, 16)] := by decide
/-- Program 2's listing of worker 1. -/
theorem test_program2 : prog 8 2 true 4 1 =
    [.bar, .bfly 2 6 2, .bfly 3 7 3, .bar, .bar, .bfly 1 3 2, .bfly 5 7 2, .bar, .bar, .bflyn 4 5, .bflyn 6 7, .bar,
     .swpt 1, .endOp] := by decide

/-! ## A word placed for the next step -/

theorem test_placed_bfly : after (step (State.reset.withFetchWord 64 0x1000000300090005)) (fun t =>
    (t.worker 0).pc == 2 && (t.worker 0).ws == .run && t.turns == [] && t.traceOf 0 == [0x1000000300090005]) = true := by decide
theorem test_placed_swpt : after (step (State.reset.withFetchWord 64 0x4000000000000001)) (fun t =>
    (t.worker 0).pc == 2) = true := by decide
theorem test_placed_end : after (step (State.reset.withFetchWord 64 0x5000000000000000)) (fun t =>
    (t.worker 0).ws == .ended) = true := by decide
theorem test_placed_bar : after (step (State.reset.withFetchWord 64 0x3000000000000000)) (fun t =>
    (t.worker 0).pc == 1 && t.epoch == 1) = true := by decide
theorem test_placed_start : after (step (State.reset.withFetchWord 32 1)) (fun t =>
    t.status.toWord == 0x00FF0104) = true := by decide
/-- A hand-written `BFLY` does not pass the `BAR` that worker 0 stands at, and a hand-written `BAR` is no release. -/
theorem test_issue_at_bar : after (takeTurn (.issue 0 0x1000000000020000) (run4 0)) (fun t => t == run4 0) = true ∧
    after (takeTurn (.issue 0 0x3000000000000000) (run4 0)) (fun t => t == run4 0) = true := by decide
/-- Program 1's trace: the `BAR` released and the `BFLY` taken, kept over a join (30_encoding.md R106). -/
theorem test_trace : after (takeTurn .release (run4 0)) (fun t => after (takeTurn (.worker 0) t) fun u =>
    u.join.traceOf 0 == [0x3000000000000000, 0x1000000000020000]) = true := by decide
/-- A reserved word and one outside R105's forms. -/
theorem test_placed_refused : refuses (step (State.reset.withFetchWord 64 0)) .reservedMicroOp = true ∧
    refuses (step (State.reset.withFetchWord 64 0x1000000000000000)) .notAdmitted = true := by decide

/-- 95_test_vectors.md section 11, row 2, with the buffer of Program 1: `TWID_BASE = BUF_BASE`. -/
def overlap4 (ws : List Worker) : State := running { good4 with twidBase := 0x10000000 } ws mem4

/-- Two workers over an overlap are a race; one alone runs (section 11's last two sentences; log 31). -/
theorem test_overlap : (overlap4 [at' 1, at' 1]).races [] = true ∧
    after (takeTurn (.worker 0) (overlap4 [at' 1])) (fun t => (t.worker 0).pc == 2) = true := by decide

/-- A bit-reversal table that reaches two bytes into the buffer, and one that ends where the buffer begins (R322). -/
theorem test_overlap_edge :
    (running { good4 with brev := true, brevBase := 0x0FFFFFFE } [at' 1, at' 1] mem4).regionsOverlap = true ∧
    (running { good4 with brev := true, brevBase := 0x0FFFFFFC } [at' 1, at' 1] mem4).regionsOverlap = false := by decide

/-! ## Witnesses: concrete states and operands that meet every hypothesis of a statement -/

/-- The memory of row 11 of section 3 with a bit-reversal table that names samples 1 and 8, 2 and 4. -/
def mem16 : Memory :=
  words 0x10000000 (List.replicate 16 0xF83003E8)
    (words 0x10001000 (List.replicate 8 0x5A825A82) (words 0x10002000 [0x00080001, 0x00040002] []))

/-- A 16-sample transform running, its worker at `pc`. -/
def run16 (pc : Nat) : State := running regs16 [at' pc] mem16

/-- Two workers of a 4-sample transform in the first stage. -/
def two4 : State := running good4 [at' 1, at' 1] mem4

/-- The same with an access of worker 1 in the detector's record. -/
def raced (x : Access) : State := { brev4 1 with log := [x] }

/-- Program 1 in its first stage as the invariant wants it: one release has been made. -/
def inv4 : State := { run4 1 with epoch := 1, turns := [.worker 0] }

theorem witness_DecodedMicroOpIsItsEncoding : decode (.u 0x4000000000000001) = .ok (.swpt 1) := rfl

theorem witness_DecoderFollowsOpcodeTable :
    (∃ row ∈ opcodeRows, row.width = 64) ∧ ∃ row ∈ opcodeRows, row.width = 32 := by decide

theorem witness_ReservedMicroOpsRefused : ((run4 1).worker 0).ws = .run ∧ (run4 1).nextOp 0 = some (.bfly 0 2 0) ∧
    (Instr.bfly 0 2 0).accessesMemory = true ∧ (opField 0x0FFF000000000000).toNat = 0 ∧
    6 ≤ (opField 0x6000000000000000).toNat ∧ zField 0x1001000000000000 ≠ 0 ∧
    (f2Field 0x2000000100000000 ≠ 0 ∧ (opField 0x2000000100000000).toNat ≠ 1) ∧
    (f1Field 0x4000000000010000 ≠ 0 ∧ (opField 0x4000000000010000).toNat ≠ 1 ∧ (opField 0x4000000000010000).toNat ≠ 2) ∧
    (f0Field 0x3000000000000001 ≠ 0 ∧ (opField 0x3000000000000001).toNat = 3) ∧
    (f0Field 0x5000000000000001 ≠ 0 ∧ (opField 0x5000000000000001).toNat = 5) := by decide

theorem witness_CommandCodeIsTwoBits : (0xFFFFFFFC : Word).toNat % 4 = 0 ∧ (0xFFFFFFFD : Word).toNat % 4 = 1 ∧
    (0xFFFFFFFE : Word).toNat % 4 = 2 ∧ (0xFFFFFFFF : Word).toNat % 4 = 3 := by decide

theorem witness_HeadroomAvoidsTheWrap :
    |lane0 (bfDiff (pack 32767 0) (pack (-32768) 0))| + |lane1 (bfDiff (pack 32767 0) (pack (-32768) 0))| ≤ 32767 := by
  decide

theorem witness_Q15NarrowLaws : (0 < (1 : Int) ∧ (32767 : Int) ≤ 32767) ∧ (-32767 ≤ (0 : Int) ∧ -32767 ≤ (-32767 : Int)) ∧
    -32768 ≤ (-32768 : Int) := by decide

theorem witness_MemoryIsLittleEndian : (3 : Nat) < 4 ∧ (0 < 1 ∨ 1 + 4 ≤ 0) ∧ (5 < 1 ∨ 1 + 4 ≤ 5) ∧
    ∀ i, i < 2 → Memory.read mem16 (0x10002002 + i) = some (if i = 0 then 8 else 0) := by decide

theorem witness_BflyCompletes : let s := run16 1
    (5 : Half).toNat < (9 : Half).toNat ∧ (9 : Half).toNat < s.regs.fftLen.toNat ∧
    (3 : Half).toNat < s.regs.fftLen.toNat / 2 ∧ s.params.memValid 0x10000014 4 = true ∧
    s.params.memValid 0x10000024 4 = true ∧ s.params.memValid 0x1000100C 4 = true ∧
    s.races [s.rd 0x10000014 4, s.rd 0x10000024 4, s.rd 0x1000100C 4, s.wr 0x10000014 4, s.wr 0x10000024 4] = false ∧
    Memory.readWord s.mem 0x10000014 = some 0xF83003E8 ∧ Memory.readWord s.mem 0x10000024 = some 0xF83003E8 ∧
    Memory.readWord s.mem 0x1000100C = some 0x5A825A82 := by decide

theorem witness_BflynCompletes : let s := run16 1
    (14 : Half).toNat % 2 = 0 ∧ (15 : Half).toNat = (14 : Half).toNat + 1 ∧ (15 : Half).toNat < s.regs.fftLen.toNat ∧
    s.params.memValid 0x10000038 4 = true ∧ s.params.memValid 0x1000003C 4 = true ∧
    s.races [s.rd 0x10000038 4, s.rd 0x1000003C 4, s.wr 0x10000038 4, s.wr 0x1000003C 4] = false ∧
    Memory.readWord s.mem 0x10000038 = some 0xF83003E8 ∧ Memory.readWord s.mem 0x1000003C = some 0xF83003E8 := by decide

theorem witness_SwptCompletes : let s := run16 1
    2 * (1 : Half).toNat + 1 < s.regs.brevLen.toNat ∧ s.params.memValid 0x10002004 2 = true ∧
    s.params.memValid 0x10002006 2 = true ∧ s.params.memValid 0x10000008 4 = true ∧
    s.params.memValid 0x10000010 4 = true ∧ s.races [s.rd 0x10002004 2, s.rd 0x10002006 2] = false ∧
    s.races [s.rd 0x10000008 4, s.rd 0x10000010 4, s.wr 0x10000008 4, s.wr 0x10000010 4] = false ∧
    Memory.readN s.mem 0x10002004 2 = some 2 ∧ Memory.readN s.mem 0x10002006 2 = some 4 ∧
    2 < s.regs.fftLen.toNat ∧ 4 < s.regs.fftLen.toNat ∧
    Memory.readWord s.mem 0x10000008 = some 0xF83003E8 ∧ Memory.readWord s.mem 0x10000010 = some 0xF83003E8 := by decide

theorem witness_EndCompletes : (run4 8).cur < (run4 8).workers.length := by decide

theorem witness_BarReleasesAllOrWaits :
    (let s := running good4 [at' 2, at' 1] []
     s.status.busy = true ∧ ∀ c, c < s.cores → (s.worker c).ws = .run ∧ s.nextOp c = some .bar) ∨
    (let s := run4 0
     s.status.busy = true ∧ ∀ c, c < s.cores → (s.worker c).ws = .run ∧ s.nextOp c = some .bar) := .inr (by decide)

theorem witness_BarReleasesAllOrWaits_waits : let s := two4
    ¬ (s.status.busy = true ∧ ∀ c, c < s.cores → (s.worker c).ws = .run ∧ s.nextOp c = some .bar) := by decide

theorem witness_ButterflyFrame : (∃ t, exec (.bfly 5 9 3) (run16 1) = .next t) ∧ ∃ t, exec (.bflyn 14 15) (run16 1) = .next t :=
  ⟨⟨_, rfl⟩, _, rfl⟩

theorem witness_SwptFrame : (∃ t, exec (.swpt 0) (run16 1) = .next t) ∧
    Memory.readHalf (run16 1).mem ((run16 1).brevPtr 0) = some 1 ∧
    Memory.readHalf (run16 1).mem ((run16 1).brevPtr 1) = some 8 := ⟨⟨_, rfl⟩, by decide, by decide⟩

/-- `run16 1` on a platform that does not back `[lo, hi)`. -/
def hole16 (lo hi : Nat) : State := { run16 1 with params := { (run16 1).params with holes := [(lo, hi)] } }

/-- `BFLY 5, 9, 3`: the last byte of sample 5, of sample 9, of twiddle entry 3 is not backed. -/
theorem witness_BusFault_bfly :
    ((5 : Half).toNat < (9 : Half).toNat ∧ (9 : Half).toNat < (run16 1).regs.fftLen.toNat ∧
      (3 : Half).toNat < (run16 1).regs.fftLen.toNat / 2) ∧
    (hole16 0x10000017 0x10000018).params.memValid ((run16 1).samplePtr 5) 4 = false ∧
    ((hole16 0x10000027 0x10000028).params.memValid ((run16 1).samplePtr 5) 4 = true ∧
      (hole16 0x10000027 0x10000028).params.memValid ((run16 1).samplePtr 9) 4 = false) ∧
    ((hole16 0x1000100F 0x10001010).params.memValid ((run16 1).samplePtr 5) 4 = true ∧
      (hole16 0x1000100F 0x10001010).params.memValid ((run16 1).samplePtr 9) 4 = true ∧
      (hole16 0x1000100F 0x10001010).params.memValid ((run16 1).twidPtr 3) 4 = false) := by decide

theorem witness_BusFault_default : (run16 1).params.holes = [] ∧ 0xFFFFFFFC + 4 ≤ 2 ^ 32 := by decide

theorem witness_BusFault_bflyn :
    ((14 : Half).toNat % 2 = 0 ∧ (15 : Half).toNat = (14 : Half).toNat + 1 ∧
      (15 : Half).toNat < (run16 1).regs.fftLen.toNat) ∧
    (hole16 0x1000003B 0x1000003C).params.memValid ((run16 1).samplePtr 14) 4 = false ∧
    ((hole16 0x1000003F 0x10000040).params.memValid ((run16 1).samplePtr 14) 4 = true ∧
      (hole16 0x1000003F 0x10000040).params.memValid ((run16 1).samplePtr 15) 4 = false) := by decide

theorem witness_BusFault_swpt_table :
    2 * (1 : Half).toNat + 1 < (run16 1).regs.brevLen.toNat ∧
    (hole16 0x10002005 0x10002006).params.memValid ((run16 1).brevPtr 2) 2 = false ∧
    ((hole16 0x10002007 0x10002008).params.memValid ((run16 1).brevPtr 2) 2 = true ∧
      (hole16 0x10002007 0x10002008).params.memValid ((run16 1).brevPtr 3) 2 = false) := by decide

theorem witness_BusFault_swpt_sample : let s := hole16 0x10000013 0x10000014
    2 * (1 : Half).toNat + 1 < s.regs.brevLen.toNat ∧ s.params.memValid (s.brevPtr 2) 2 = true ∧
    s.params.memValid (s.brevPtr 3) 2 = true ∧ s.races [s.rd (s.brevPtr 2) 2, s.rd (s.brevPtr 3) 2] = false ∧
    Memory.readHalf s.mem (s.brevPtr 2) = some 2 ∧ Memory.readHalf s.mem (s.brevPtr 3) = some 4 ∧
    2 < s.regs.fftLen.toNat ∧ 4 < s.regs.fftLen.toNat ∧
    (s.params.memValid (s.samplePtr 2) 4 = true ∧ s.params.memValid (s.samplePtr 4) 4 = false) ∧
    (hole16 0x1000000B 0x1000000C).params.memValid (s.samplePtr 2) 4 = false := by decide

/-- The table `[8, 7]`, then `[7, 8]`, of an 8-sample transform: the first entry equal to `fftLen`, then the second. -/
theorem witness_BrevIndexFault :
    (let s := running regs8 [at' 12] (words 0x10002000 [0x00070008] [])
     2 * (0 : Half).toNat + 1 < s.regs.brevLen.toNat ∧ s.params.memValid (s.brevPtr 0) 2 = true ∧
     s.params.memValid (s.brevPtr 1) 2 = true ∧ s.races [s.rd (s.brevPtr 0) 2, s.rd (s.brevPtr 1) 2] = false ∧
     Memory.readHalf s.mem (s.brevPtr 0) = some 8 ∧ Memory.readHalf s.mem (s.brevPtr 1) = some 7 ∧
     s.regs.fftLen.toNat ≤ 8) ∧
    (let s := running regs8 [at' 12] (words 0x10002000 [0x00080007] [])
     2 * (0 : Half).toNat + 1 < s.regs.brevLen.toNat ∧ s.params.memValid (s.brevPtr 0) 2 = true ∧
     s.params.memValid (s.brevPtr 1) 2 = true ∧ s.races [s.rd (s.brevPtr 0) 2, s.rd (s.brevPtr 1) 2] = false ∧
     Memory.readHalf s.mem (s.brevPtr 0) = some 7 ∧ Memory.readHalf s.mem (s.brevPtr 1) = some 8 ∧
     7 < s.regs.fftLen.toNat ∧ s.regs.fftLen.toNat ≤ 8) := by decide

theorem witness_WorkerFaultMechanism : (run4 1).cur < (run4 1).workers.length ∧ (run4 1).status.err = false ∧
    ({ run4 1 with status := { (run4 1).status with err := true } } : State).status.err = true := by decide

theorem witness_UnadmittedMicroOpsRefused : let s := run16 1
    ¬ ((5 : Half).toNat < (16 : Half).toNat ∧ (16 : Half).toNat < s.regs.fftLen.toNat ∧
      (0 : Half).toNat < s.regs.fftLen.toNat / 2) ∧
    ¬ ((5 : Half).toNat < (9 : Half).toNat ∧ (9 : Half).toNat < s.regs.fftLen.toNat ∧
      (8 : Half).toNat < s.regs.fftLen.toNat / 2) ∧
    ¬ ((3 : Half).toNat % 2 = 0 ∧ (4 : Half).toNat = (3 : Half).toNat + 1 ∧ (4 : Half).toNat < s.regs.fftLen.toNat) ∧
    ¬ (2 * (6 : Half).toNat + 1 < s.regs.brevLen.toNat) := by decide

/-- Worker 1 has written the last byte of sample 2, which `BFLY 0, 2, 0` reads and `BFLYN 2, 3` writes. -/
theorem witness_ConflictStops_butterfly :
    let l : Access := { worker := 1, write := true, addr := 0x1000000B, size := 1 }
    let s := raced l
    let n := s.regs.fftLen.toNat
    l ∈ s.log ∧ l.worker ≠ s.cur ∧ ((s.rd (s.samplePtr 2) 4).write = true ∨ l.write = true) ∧
    s.samplePtr 2 ≤ 0x1000000B ∧ 0x1000000B < s.samplePtr 2 + 4 ∧ l.addr ≤ 0x1000000B ∧ 0x1000000B < l.addr + l.size ∧
    ((0 : Half).toNat < (2 : Half).toNat ∧ (2 : Half).toNat < n ∧ (0 : Half).toNat < n / 2) ∧
    ((2 : Half).toNat % 2 = 0 ∧ (3 : Half).toNat = (2 : Half).toNat + 1 ∧ (3 : Half).toNat < n) ∧
    s.params.memValid (s.samplePtr 0) 4 = true ∧ s.params.memValid (s.samplePtr 2) 4 = true ∧
    s.params.memValid (s.samplePtr 3) 4 = true ∧ s.params.memValid (s.twidPtr 0) 4 = true := by decide

/-- Worker 1 has written a byte of the pair's first table entry. -/
theorem witness_ConflictStops_table :
    let l : Access := { worker := 1, write := true, addr := 0x10002000, size := 1 }
    let s := raced l
    l ∈ s.log ∧ l.worker ≠ s.cur ∧ ((s.rd (s.brevPtr 0) 2).write = true ∨ l.write = true) ∧
    s.brevPtr 0 ≤ 0x10002000 ∧ 0x10002000 < s.brevPtr 0 + 2 ∧ l.addr ≤ 0x10002000 ∧ 0x10002000 < l.addr + l.size ∧
    2 * (0 : Half).toNat + 1 < s.regs.brevLen.toNat ∧ s.params.memValid (s.brevPtr 0) 2 = true ∧
    s.params.memValid (s.brevPtr 1) 2 = true := by decide

/-- Worker 1 has read a byte of sample 1, which `SWPT 0` writes. -/
theorem witness_ConflictStops_swap :
    let l : Access := { worker := 1, write := false, addr := 0x10000004, size := 4 }
    let s := raced l
    let n := s.regs.fftLen.toNat
    l ∈ s.log ∧ l.worker ≠ s.cur ∧ ((s.wr (s.samplePtr 1) 4).write = true ∨ l.write = true) ∧
    s.samplePtr 1 ≤ 0x10000004 ∧ 0x10000004 < s.samplePtr 1 + 4 ∧ l.addr ≤ 0x10000004 ∧ 0x10000004 < l.addr + l.size ∧
    2 * (0 : Half).toNat + 1 < s.regs.brevLen.toNat ∧ s.params.memValid (s.brevPtr 0) 2 = true ∧
    s.params.memValid (s.brevPtr 1) 2 = true ∧ s.races [s.rd (s.brevPtr 0) 2, s.rd (s.brevPtr 1) 2] = false ∧
    Memory.readHalf s.mem (s.brevPtr 0) = some 1 ∧ Memory.readHalf s.mem (s.brevPtr 1) = some 2 ∧ 1 < n ∧ 2 < n ∧
    s.params.memValid (s.samplePtr 1) 4 = true ∧ s.params.memValid (s.samplePtr 2) 4 = true := by decide

theorem witness_regionsApart : (brev4 8).regionsApart := by
  intro a h
  have e1 : (brev4 8).regs = { good4 with brev := true, ncores := 1 } := rfl
  simp only [State.inBuffer, State.inTwiddles, State.inBrevTable, State.samplePtr, State.twidPtr, State.brevPtr,
    State.fftN, e1, good4, Regs.reset, BitVec.ofNat_eq_ofNat, BitVec.toNat_ofNat, Bool.and_eq_true, decide_eq_true_eq,
    Bool.and_eq_false_iff, decide_eq_false_iff_not] at *
  omega

theorem witness_SwapTwiceRestores : (brev4 8).regionsApart ∧ (brev4 8).regs.brev = true ∧
    ∃ t u, exec (.swpt 0) (brev4 8) = .next t ∧ exec (.swpt 0) t = .next u :=
  ⟨witness_regionsApart, rfl, _, _, rfl, rfl⟩

theorem witness_StartWithoutContext : State.reset.ctx = false := rfl

theorem witness_CommandWhileBusySetsOvr : ({ run4 1 with ctx := true } : State).status.busy = true ∧
    ({ run4 1 with ctx := true } : State).ctx = true := by decide

/-- "good4" passes every check, with `FLAGS.BREV = 0` and `1`, in every region's last place. -/
theorem witness_configLegal : configLegal Params.default good4 ∧ configLegal Params.default { good4 with brev := true } ∧
    configLegal Params.default { good4 with bufBase := 0xFFFFFFF0, ncores := 32 } :=
  ⟨(configError_none_iff _ _).1 (by decide), (configError_none_iff _ _).1 (by decide),
   (configError_none_iff _ _).1 (by decide)⟩

/-- The eight checks of `START` in their order; `isPow2_iff` says that the first is R275's. -/
def startChecks (r : Regs) : List Bool :=
  let n := r.fftLen.toNat
  [4 ≤ n && n ≤ 2 ^ 12 && isPow2 n, 1 ≤ r.ncores.toNat && r.ncores.toNat ≤ 32, r.bufLen.toNat == 2 * n,
   n / 2 ≤ r.twidLen.toNat, !r.brev || r.brevLen.toNat % 2 == 0 && r.brevLen.toNat ≤ n,
   r.bufBase.toNat % 4 == 0 && r.bufBase.toNat + 4 * n ≤ 2 ^ 32,
   r.twidBase.toNat % 4 == 0 && r.twidBase.toNat + 2 * n ≤ 2 ^ 32,
   !r.brev || r.brevBase.toNat % 2 == 0 && r.brevBase.toNat + 2 * r.brevLen.toNat ≤ 2 ^ 32]

/-- For each clause a configuration, one unit from "good4", that passes the other checks. -/
theorem witness_StartReportsFirstConfigError :
    (idle good4).ctx = true ∧ (idle good4).status.busy = false ∧ (idle good4).params.maxLog = 12 ∧
    (idle good4).params.maxCores = 32 ∧
    startChecks { good4 with fftLen := 3, bufLen := 6 } = [false, true, true, true, true, true, true, true] ∧
    startChecks { good4 with ncores := 0 } = [true, false, true, true, true, true, true, true] ∧
    startChecks { good4 with ncores := 33 } = [true, false, true, true, true, true, true, true] ∧
    startChecks { good4 with bufLen := 7 } = [true, true, false, true, true, true, true, true] ∧
    startChecks { good4 with twidLen := 1 } = [true, true, true, false, true, true, true, true] ∧
    startChecks { good4 with brev := true, brevLen := 3 } = [true, true, true, true, false, true, true, true] ∧
    startChecks { good4 with brev := true, brevLen := 6 } = [true, true, true, true, false, true, true, true] ∧
    startChecks { good4 with bufBase := 0xFFFFFFF4 } = [true, true, true, true, true, false, true, true] ∧
    startChecks { good4 with twidBase := 0x10001002 } = [true, true, true, true, true, true, false, true] ∧
    startChecks { good4 with brev := true, brevBase := 0xFFFFFFFE } = [true, true, true, true, true, true, true, false] := by
  decide

theorem witness_InverseRequestCompletes : let s := idle { good4 with inv := true }
    s.ctx = true ∧ s.status.busy = false ∧ configLegal s.params s.regs ∧ s.regs.inv = true :=
  ⟨rfl, rfl, (configError_none_iff _ _).1 (by decide), rfl⟩

theorem witness_StartForks : let s := idle good4
    s.ctx = true ∧ s.status.busy = false ∧ configLegal s.params s.regs ∧ s.regs.inv = false ∧
      s.workers.length = s.params.maxCores :=
  ⟨rfl, rfl, (configError_none_iff _ _).1 (by decide), rfl, by decide⟩

theorem witness_ClearCommand : (idle good4).status.busy = false ∧ (run4 1).status.busy = true := ⟨rfl, rfl⟩

theorem witness_NopAndReservedCommands : State.reset.status.busy = false ∧ (run4 0).status.busy = true := ⟨rfl, rfl⟩

theorem witness_CommandFrame : Instr.nop.isMicroOp = false ∧ Instr.start.isMicroOp = false ∧
    Instr.clear.isMicroOp = false ∧ Instr.reservedCmd3.isMicroOp = false := by decide

theorem witness_RegisterWriteReadBack : (4 % 4 = 0 ∧ 4 ≤ 4 ∧ 4 ≤ 0x28) ∧ (0x20 % 4 = 0 ∧ 4 ≤ 0x20 ∧ 0x20 ≤ 0x28) ∧
    (0x28 % 4 = 0 ∧ 4 ≤ 0x28 ∧ 0x28 ≤ 0x28) ∧ 0x2C % 4 = 0 ∧ 0 % 4 = 0 ∧ 0x34 % 4 = 0 ∧ 0x38 % 4 = 0 ∧ 0x3C % 4 = 0 ∧
    State.reset.status.busy = false := by decide

theorem witness_ConfigurationLockedWhileBusy : (4 % 4 = 0 ∧ 4 ≤ 4 ∧ 4 ≤ 0x28) ∧ (0x28 % 4 = 0 ∧ 4 ≤ 0x28 ∧ 0x28 ≤ 0x28) ∧
    (run4 1).status.busy = true := by decide

theorem witness_RegisterReads : (0 % 4 = 0 ∧ 0 < 64) ∧ (0x3C % 4 = 0 ∧ 0x3C < 64) ∧ State.reset.params.legal = true := by
  decide

/-- The first and the last byte of the buffer, the twiddle table and the bit-reversal table, and one byte past each. -/
theorem witness_HostMemoryAccess : let s := brev4 1
    s.status.busy = true ∧ s.inBuffer (0x10000000 : Word).toNat = true ∧ s.inBuffer (0x1000000F : Word).toNat = true ∧
    s.inTwiddles (0x10001007 : Word).toNat = true ∧ s.inBrevTable (0x10002003 : Word).toNat = true ∧
    (s.inBuffer (0x10000010 : Word).toNat = false ∧ s.inTwiddles (0x10000010 : Word).toNat = false ∧
      s.inBrevTable (0x10000010 : Word).toNat = false) ∧
    s.inTwiddles (0x10001008 : Word).toNat = false ∧ s.inBrevTable (0x10002004 : Word).toNat = false ∧
    (idle good4).status.busy = false ∧ Memory.read s.mem (0x10001000 : Word).toNat = some 0xFF := by decide

theorem witness_OddRegisterAccessRefused : (0x3F < 64 ∧ 1 ≤ 1 ∧ (1 ≠ 4 ∨ 0x3F % 4 ≠ 0)) ∧
    (2 < 64 ∧ 1 ≤ 4 ∧ (4 ≠ 4 ∨ 2 % 4 ≠ 0)) ∧ (0 < 64 ∧ 1 ≤ 2 ∧ (2 ≠ 4 ∨ 0 % 4 ≠ 0)) := by decide

theorem witness_StepRuns_worker : let s : State := { run4 1 with turns := [.worker 0] }
    s.turns = [.worker 0] ∧ s.issued 0 = some (.u 0x1000000000020000) ∧ decodeTableWord 64 0x1000000000020000 = some (.bfly 0 2 0) ∧
    (s.worker 0).ws = .run ∧ s.nextOp 0 = some (.bfly 0 2 0) ∧ Instr.bfly 0 2 0 ≠ .bar := by decide

theorem witness_StepRuns_others : ({ run4 0 with turns := [.release] } : State).turns = [.release] ∧
    ({ run4 0 with turns := [.regWrite (Params.default.regAddr 0x30) 4 2 false] } : State).turns =
      [.regWrite ((run4 0).params.regAddr 0x30) 4 2 false] ∧ decode (.c 2) = .ok .clear ∧
    ({ run4 1 with turns := [.issue 0 0x5000000000000000] } : State).turns = [.issue 0 0x5000000000000000] ∧
    ((run4 1).worker 0).ws = .run ∧ (run4 1).nextOp 0 = some (.bfly 0 2 0) ∧
    decode (.u 0x5000000000000000) = .ok .endOp :=
  ⟨rfl, rfl, rfl, rfl, rfl, by decide, rfl⟩

theorem witness_DisabledAgentsTakeNoStep : (State.reset.worker 0).ws ≠ .run ∧ (run4 0).nextOp 0 = some .bar ∧
    decodeTableWord 64 0x3000000000000000 = some .bar ∧ State.reset.status.busy = false ∧ (0 < (run4 1).cores ∧ ((run4 1).worker 0).ws ≠ .ended) := by decide

/-- Program 1 with its worker `ENDED` at `END`. -/
def ended4 : State := running { good4 with ie := true } [{ at' 8 with ws := .ended }] mem4

theorem witness_JoinCompletes : ended4.status.busy = true ∧ ∀ c, c < ended4.cores → (ended4.worker c).ws = .ended := by decide

theorem witness_ResetState : 4 ≠ 0 := by decide

theorem witness_InterruptLine_join : ended4.regs.ie = true ∧ ended4.joinEnabled = true ∧
    ∃ t, takeTurn .join ended4 = .next t := ⟨by decide, by decide, _, rfl⟩

theorem witness_InterruptLine_start : (idle { good4 with ie := true }).regs.ie = true ∧
    (idle { good4 with ie := true }).ctx = true ∧ (idle { good4 with ie := true }).status.busy = false ∧
    (∃ t, exec .start (idle { good4 with ie := true }) = .next t ∧ t.status.busy = true) ∧
    (∃ t, exec .start (idle { good4 with ie := true, inv := true }) = .next t ∧ t.status.busy = false) ∧
    (∃ t, exec .start (idle { good4 with ie := true, ncores := 0 }) = .next t ∧ t.status.busy = false) :=
  ⟨rfl, rfl, rfl, ⟨_, rfl, rfl⟩, ⟨_, rfl, rfl⟩, _, rfl, rfl⟩

theorem witness_InterruptLine_falls : (∃ t, takeTurn (.regWrite (ended4.params.regAddr 0x2C) 4 0 true) ended4 = .next t) ∧
    ∃ t, takeTurn .reset ended4 = .next t := ⟨⟨_, rfl⟩, _, rfl⟩

theorem witness_InterruptLine_rest : (∃ t, exec .clear (idle { good4 with ie := true }) = .next t) ∧
    ended4.ctx = false ∧ (∃ t, exec .start ended4 = .next t) ∧ ended4.status.busy = true ∧ ∃ t, exec .clear ended4 = .next t :=
  ⟨⟨_, rfl⟩, rfl, ⟨_, rfl⟩, rfl, _, rfl⟩

theorem witness_TraceShowsIssuedMicroOps : (run4 1).issued 0 = some (.u 0x1000000000020000) ∧
    (0x1000000000020000 : UWord) ≠ barWord ∧ (∃ t, takeTurn (.worker 0) (run4 1) = .next t) ∧
    (run4 0).releaseEnabled = true ∧ (∃ t, takeTurn .release (run4 0) = .next t) ∧
    (∀ d, Turn.join ≠ .worker d) ∧ ∃ t, takeTurn .join ended4 = .next t :=
  ⟨by decide, by decide, ⟨_, rfl⟩, by decide, ⟨_, rfl⟩, fun _ h => (by cases h), _, rfl⟩

theorem witness_scheduler_ranges : (1 ≤ 1 ∧ 2 ≤ 2 ∧ 2 ≤ 16 ∧ 0 < 1) ∧ (2 ≤ 16 ∧ 16 ≤ 16 ∧ 1 ≤ 255 ∧ 254 < 255) ∧
    (2 % 2 = 0 ∧ 2 ≤ 2 ^ 2) ∧ (65536 % 2 = 0 ∧ 65536 ≤ 2 ^ 16) := by decide

theorem witness_BlockPartitionCovers : 1 ≤ 1 ∧ 0 ∈ owned 0 1 8 ∧ 7 ∈ owned 2 8 3 := by decide

theorem witness_ScheduledMicroOpsAdmitted : 2 ≤ 2 ∧ 2 ≤ 16 ∧ 1 ≤ 1 ∧ 0 < 1 ∧ 2 % 2 = 0 ∧ 2 ≤ 2 ^ 2 ∧
    Instr.swpt 0 ∈ prog (2 ^ 2) 1 true 2 0 := by decide

theorem witness_LoopRegistersFollowTheProgram : 1 ≤ 2 ∧ 1 ≤ 1 ∧ (prog (2 ^ 2) 1 true 2 0)[0]? = some .bar ∧
    (prog (2 ^ 2) 1 true 2 0)[9]? = some .endOp := by decide

/-- The invariant holds of a running invocation. -/
theorem witness_Inv : Inv inv4 := by
  have c1 : ∀ c, c < inv4.cores → c = 0 := fun c h => Nat.lt_one_iff.1 h
  have far : ∀ c, inv4.cores ≤ c → (inv4.worker c).ws = .idle := by
    intro c h
    match c, h with
    | 0, h => exact absurd h (by decide)
    | c + 1, _ => rfl
  refine
    { params := by decide
      contexts := by decide
      memory := by decide
      noIssue := fun c w h => ?_
      idle := fun h => absurd h (by decide)
      idleLog := fun h => absurd h (by decide)
      config := fun _ => by decide
      notDone := fun _ => by decide
      spare := far
      forked := fun _ c h => ?_
      inProg := fun _ c h => ?_
      barriers := fun _ c h => ?_
      errClear := fun _ => by decide
      errBusy := fun _ => ⟨fun h => absurd h (by decide), fun ⟨c, h, hf⟩ => ?_⟩
      errWorker := fun _ h => absurd h (by decide)
      errConfig := fun h => absurd h (by decide)
      logged := fun x h => absurd h (List.not_mem_nil) }
  · exact absurd (List.mem_singleton.1 h) (by simp)
  · rw [c1 c h]
    decide
  · rw [c1 c h]
    exact ⟨.bfly 0 2 0, by decide, fun h => absurd h (by decide), fun h => absurd h (by decide)⟩
  · rw [c1 c h]
    decide
  · rw [c1 c h] at hf
    exact absurd hf (by decide)

theorem witness_StepKeepsInvariant : Inv inv4 ∧ ∃ t, step inv4 = .next t := ⟨witness_Inv, _, rfl⟩

/-- Program 1 with its worker `FAULTED`, the host about to try a `CLEAR`. -/
def faulted4 : State :=
  { running good4 [{ at' 1 with ws := .faulted }] mem4 with
    turns := [.regWrite (Params.default.regAddr 0x30) 4 2 true] }

theorem witness_FaultedInvocationNeverCompletes : faulted4.status.busy = true ∧ 0 < faulted4.cores ∧
    (faulted4.worker 0).ws = .faulted ∧ (∃ t, step faulted4 = .next t) ∧ faulted4.popTurn.1 ≠ .reset :=
  ⟨rfl, by decide, rfl, ⟨_, rfl⟩, by decide⟩

theorem witness_ScaleHasNoEffect : ∀ a n, inv4.popTurn.1 ≠ .regRead a n := by
  intro a n h
  cases h

theorem witness_WorkersWriteOnlyTheBuffer : (∃ t, takeTurn (.worker 0) inv4 = .next t) ∧
    inv4.inBuffer 0x10000010 = false ∧ (∃ t, takeTurn .release (run4 0) = .next t) ∧ ∃ t, takeTurn .join ended4 = .next t :=
  ⟨⟨_, rfl⟩, by decide, ⟨_, rfl⟩, _, rfl⟩

theorem witness_WorkerStepsCommute : 0 ≠ 1 ∧ 0 < two4.workers.length ∧ 1 < two4.workers.length ∧ Memory.wf two4.mem ∧
    (Instr.bfly 0 2 0).accessesMemory = true ∧ (Instr.bfly 1 3 1).accessesMemory = true ∧
    ∃ s1 u, exec (.bfly 0 2 0) { two4 with cur := 0 } = .next s1 ∧ exec (.bfly 1 3 1) { s1 with cur := 1 } = .next u ∧
      (u.worker 0).ws ≠ .faulted ∧ (u.worker 1).ws ≠ .faulted :=
  ⟨by decide, by decide, by decide, by decide, rfl, rfl, _, _, rfl, rfl, by decide, by decide⟩

theorem witness_ScheduledWorkIsNeverRefused : Inv inv4 ∧ inv4.status.busy = true ∧ inv4.launchPremise :=
  ⟨witness_Inv, rfl, by unfold Memory.defined; decide, by unfold Memory.defined; decide, fun h => absurd h (by decide)⟩

end Sys2Proof.Tests
end

namespace Sys2Proof.Machine

open Sys2Proof

/-! ## Places in `prog(c)` -/

theorem barCount_take_succ (l : List Instr) (k : Nat) (i : Instr) (h : l[k]? = some i) :
    barCount (l.take (k + 1)) = barCount (l.take k) + if i = .bar then 1 else 0 := by
  rw [List.take_add_one, h]
  by_cases hi : i = .bar <;> simp [barCount, hi]

/-- The last micro-op is `END` (42_stage_scheduler.md R169), so another follows every other one. -/
theorem prog_succ (n p l c k : Nat) (brev : Bool) (i : Instr) (h : (prog n p brev l c)[k]? = some i) (hi : i ≠ .endOp) :
    ∃ j, (prog n p brev l c)[k + 1]? = some j := by
  obtain ⟨body, hb⟩ : ∃ body, prog n p brev l c = body ++ [.endOp] :=
    ⟨twiddleStages n c p n n 1 ++ .bar :: (finalBody n c p ++ .bar :: brevBody brev l c p), by simp [prog]⟩
  rw [hb] at h ⊢
  obtain ⟨hk, he⟩ := List.getElem?_eq_some_iff.mp h
  have hlt : k < body.length := by
    by_contra hge
    rw [List.getElem_append_right (by omega), List.getElem_singleton] at he
    exact hi he.symm
  exact ⟨_, List.getElem?_eq_getElem (by simpa using hlt)⟩

/-- A participant's context as 10_state.md R22, R23 and 43_barrier_controller.md R193 want it: not `IDLE`, at a micro-op of
`prog(c)` that fits its status, past as many `BAR` as there were releases. -/
def State.Placed (s : State) (c : Nat) (w : Worker) : Prop :=
  w.ws ≠ .idle ∧
  (∃ i, (s.prog c)[w.pc]? = some i ∧ (w.ws = .ended → i = .endOp) ∧ (w.ws = .faulted → i.accessesMemory = true)) ∧
  barCount ((s.prog c).take w.pc) = s.epoch

theorem Inv.placed {s : State} (h : Inv s) (hb : s.status.busy = true) (c : Nat) (hc : c < s.cores) :
    s.Placed c (s.worker c) :=
  ⟨h.forked hb c hc, h.inProg hb c hc, h.barriers hb c hc⟩

/-- The start of `prog(c)`, where the fork places a worker (R226). -/
theorem State.placed_start (s : State) (c : Nat) (w : Worker) (hw : w.ws = .run) (hpc : w.pc = 0) (he : s.epoch = 0) :
    s.Placed c w := by
  refine ⟨by simp [hw], ?_, by simp [hpc, he, barCount]⟩
  have hlen : 0 < (s.prog c).length := by simp [State.prog, Machine.prog]
  exact ⟨_, by rw [hpc]; exact List.getElem?_eq_getElem hlen, by simp [hw], by simp [hw]⟩

/-- A `RUN` worker placed one micro-op further, once that micro-op, not `END`, is done (R22); if it was a `BAR`, the epoch
has grown (43_barrier_controller.md R192). -/
theorem State.placed_succ (s t : State) (c : Nat) (w : Worker) (i : Instr) (hp : t.prog c = s.prog c)
    (hi : s.nextOp c = some i) (hne : i ≠ .endOp) (hs : s.Placed c (s.worker c)) (hw : w.ws = .run)
    (hpc : w.pc = (s.worker c).pc + 1) (he : t.epoch = s.epoch + if i = .bar then 1 else 0) : t.Placed c w := by
  obtain ⟨-, -, hcount⟩ := hs
  obtain ⟨j, hj⟩ := prog_succ _ _ _ _ _ _ _ hi hne
  refine ⟨by simp [hw], ⟨j, by rw [hp, hpc]; exact hj, by simp [hw], by simp [hw]⟩, ?_⟩
  rw [hp, hpc, barCount_take_succ _ _ _ hi, hcount, he]

/-! ## What makes up the invariant -/

/-- The invariant of a block that does not run. -/
theorem Inv.of_idle {t : State} (params : t.params.legal = true) (contexts : t.workers.length = t.params.maxCores)
    (memory : Memory.wf t.mem) (noIssue : ∀ c w, Turn.issue c w ∉ t.turns) (hb : t.status.busy = false)
    (idle : ∀ c, (t.worker c).ws = .idle) (hlog : t.log = [])
    (errClear : t.status.err = false → t.status.errCode = .none ∧ t.status.errWorker = 0 ∧ t.errInfo = 0)
    (errConfig : t.status.err = true → t.status.errCode.isConfig = true ∧ t.status.errWorker = 0xFF) : Inv t where
  params := params
  contexts := contexts
  memory := memory
  noIssue := noIssue
  idle _ := idle
  idleLog _ := hlog
  config h := by simp [hb] at h
  notDone h := by simp [hb] at h
  spare c _ := idle c
  forked h := by simp [hb] at h
  inProg h := by simp [hb] at h
  barriers h := by simp [hb] at h
  errClear := errClear
  errBusy h := by simp [hb] at h
  errWorker h := by simp [hb] at h
  errConfig _ := errConfig
  logged := by simp [hlog]

/-- The invariant of a running block. -/
theorem Inv.of_running {t : State} (params : t.params.legal = true) (contexts : t.workers.length = t.params.maxCores)
    (memory : Memory.wf t.mem) (noIssue : ∀ c w, Turn.issue c w ∉ t.turns) (hb : t.status.busy = true)
    (config : configError t.params t.regs = none ∧ t.regs.inv = false)
    (notDone : t.status.done = false ∧ t.status.invnop = false)
    (spare : ∀ c, t.cores ≤ c → (t.worker c).ws = .idle) (placed : ∀ c, c < t.cores → t.Placed c (t.worker c))
    (errClear : t.status.err = false → t.status.errCode = .none ∧ t.status.errWorker = 0 ∧ t.errInfo = 0)
    (errBusy : t.status.err = true ↔ ∃ c, c < t.cores ∧ (t.worker c).ws = .faulted)
    (errWorker : t.status.err = true → t.status.errCode.isWorker = true ∧ t.status.errWorker.toNat < t.cores ∧
      (t.worker t.status.errWorker.toNat).ws = .faulted)
    (logged : ∀ x ∈ t.log, x.worker < t.cores) : Inv t where
  params := params
  contexts := contexts
  memory := memory
  noIssue := noIssue
  idle h := by simp [hb] at h
  idleLog h := by simp [hb] at h
  config _ := config
  notDone _ := notDone
  spare := spare
  forked _ c hc := (placed c hc).1
  inProg _ c hc := (placed c hc).2.1
  barriers _ c hc := (placed c hc).2.2
  errClear := errClear
  errBusy _ := errBusy
  errWorker _ := errWorker
  errConfig h := by simp [hb] at h
  logged := logged

/-- What the invariant does not see: `CTRL.IE`, `UNSUP`, `OVR`, the latches, the trace and the counter; memory may change
while it stays canonical, the turns while none hands a word, the detector's record while it names participants of a run. -/
theorem Inv.update {s t : State} (h : Inv s)
    (e : t = { s with
      regs := { s.regs with ie := t.regs.ie }
      status := { s.status with unsup := t.status.unsup, ovr := t.status.ovr }
      mem := t.mem, log := t.log, cur := t.cur, ctx := t.ctx, rdata := t.rdata, turns := t.turns, tick := t.tick
      trace := t.trace })
    (hm : Memory.wf t.mem) (ht : ∀ c w, Turn.issue c w ∉ t.turns) (hi : s.status.busy = false → t.log = [])
    (hl : ∀ x ∈ t.log, x.worker < s.cores) : Inv t := by
  rw [e]
  exact ⟨h.params, h.contexts, hm, ht, h.idle, hi, h.config, h.notDone, h.spare, h.forked, h.inProg, h.barriers,
    h.errClear, h.errBusy, h.errWorker, h.errConfig, hl⟩

/-- The same with memory, the turns and the detector's record left alone. -/
theorem Inv.congr {s t : State} (h : Inv s)
    (e : t = { s with
      regs := { s.regs with ie := t.regs.ie }
      status := { s.status with unsup := t.status.unsup, ovr := t.status.ovr }
      cur := t.cur, ctx := t.ctx, rdata := t.rdata, tick := t.tick, trace := t.trace }) : Inv t := by
  rw [e]
  exact h.update rfl h.memory h.noIssue h.idleLog h.logged

/-! ## Participants -/

/-- A worker that is not `IDLE` is a participant of a running invocation (R23, R195). -/
theorem Inv.participant {s : State} (h : Inv s) (c : Nat) (hc : (s.worker c).ws ≠ .idle) :
    s.status.busy = true ∧ c < s.cores := by
  constructor
  · by_contra hb
    exact hc (h.idle (by simpa using hb) c)
  · by_contra hge
    exact hc (h.spare c (by omega))

/-- There are fewer participants than an 8-bit worker number can name (00_scope.md R7, R224). -/
theorem Inv.cores_le {s : State} (h : Inv s) (hb : s.status.busy = true) : s.cores ≤ s.workers.length ∧ s.cores ≤ 255 := by
  obtain ⟨-, ⟨-, hle⟩, -⟩ := (configError_none_iff _ _).mp (h.config hb).1
  have hp := h.params
  simp only [Params.legal, Bool.and_eq_true, decide_eq_true_eq] at hp
  have : s.cores = s.regs.ncores.toNat := rfl
  have := h.contexts
  omega

/-! ## What the effects of a turn keep -/

/-- Where the context of a `RUN` worker is replaced by one that is placed, every context is still as it should be. -/
theorem Inv.contexts_set {s t : State} (h : Inv s) (c : Nat) (w : Worker) (hr : (s.worker c).ws = .run)
    (hw : t.workers = s.workers.set c w) (hregs : t.regs = s.regs) (hepoch : t.epoch = s.epoch) (hp : s.Placed c w) :
    (∀ d, t.cores ≤ d → (t.worker d).ws = .idle) ∧ ∀ d, d < t.cores → t.Placed d (t.worker d) := by
  obtain ⟨hb, hc⟩ := h.participant c (by simp [hr])
  have hcores : t.cores = s.cores := by rw [State.cores, hregs, State.cores]
  have hplaced : ∀ d v, s.Placed d v → t.Placed d v := by
    intro d v hv
    simpa [State.Placed, State.prog, State.fftN, hcores, hregs, hepoch] using hv
  rw [hcores]
  constructor
  · intro d hd
    rw [State.worker_set_ne s t c d w hw (by omega)]
    exact h.spare d hd
  · intro d hd
    by_cases hdc : d = c
    · subst hdc
      rw [State.worker_set_self s t d w hw (State.lt_length_of_ws s d (by simp [hr]))]
      exact hplaced d w hp
    · rw [State.worker_set_ne s t c d w hw hdc]
      exact hplaced d _ (h.placed hb d hd)

/-- A `RUN` worker takes a context that is not `FAULTED`: it has passed a micro-op, or `END` (R22, R228). -/
theorem Inv.setWorker {s : State} (h : Inv s) (c : Nat) (w : Worker) (hr : (s.worker c).ws = .run)
    (hp : s.Placed c w) (hw : w.ws ≠ .faulted) : Inv (s.setWorker c w) := by
  obtain ⟨hb, -⟩ := h.participant c (by simp [hr])
  obtain ⟨hspare, hplaced⟩ := h.contexts_set (t := s.setWorker c w) c w hr rfl rfl rfl hp
  have hfault : ∀ d, ((s.setWorker c w).worker d).ws = .faulted ↔ (s.worker d).ws = .faulted := by
    intro d
    by_cases hd : d = c
    · subst hd
      rw [State.worker_set_self s _ d w rfl (State.lt_length_of_ws s d (by simp [hr]))]
      simp [hr, hw]
    · rw [State.worker_set_ne s _ c d w rfl hd]
  refine Inv.of_running h.params (by simpa using h.contexts) h.memory h.noIssue hb (h.config hb) (h.notDone hb) hspare
    hplaced h.errClear ?_ ?_ h.logged
  · simp only [hfault]
    exact h.errBusy hb
  · simp only [hfault]
    exact h.errWorker hb

/-- A worker fault of a `RUN` worker, whose micro-op accesses memory (60_exceptions.md R280, R284). -/
theorem Inv.raiseFault {s : State} (h : Inv s) (e : ErrCode) (x : Word) (i : Instr) (he : e.isWorker = true)
    (hr : (s.worker s.cur).ws = .run) (hi : s.nextOp s.cur = some i) (ha : i.accessesMemory = true) :
    Inv (s.raiseFault e x) := by
  obtain ⟨hb, hc⟩ := h.participant s.cur (by simp [hr])
  obtain ⟨-, -, hcount⟩ := h.placed hb s.cur hc
  obtain ⟨hspare, hplaced⟩ := h.contexts_set s.cur _ hr (State.raiseFault_workers s e x) (by simp) (by simp)
    ⟨by simp, ⟨i, hi, by simp, fun _ => ha⟩, hcount⟩
  have hcores : (s.raiseFault e x).cores = s.cores := by simp [State.cores]
  have hself : ((s.raiseFault e x).worker s.cur).ws = .faulted := by
    rw [State.worker_set_self s _ s.cur _ (State.raiseFault_workers s e x)
      (State.lt_length_of_ws s s.cur (by simp [hr]))]
  have herr := State.raiseFault_err s e x
  refine Inv.of_running (by simpa using h.params) (by simpa using h.contexts) (by simpa using h.memory)
    (by simpa using h.noIssue) (by simpa using hb) (by simpa using h.config hb) (by simpa using h.notDone hb) hspare
    hplaced (by simp [herr]) ⟨fun _ => ⟨s.cur, hcores ▸ hc, hself⟩, fun _ => herr⟩ ?_ (by simpa [hcores] using h.logged)
  intro _
  cases hs : s.status.err with
  | false =>
    have hcur : (BitVec.ofNat 8 s.cur).toNat = s.cur := by
      have := (h.cores_le hb).2
      simp only [BitVec.toNat_ofNat]
      omega
    rw [(State.raiseFault_status_first s e x hs).1]
    simp only [hcur, hcores]
    exact ⟨he, hc, hself⟩
  | true =>
    obtain ⟨hcode, hlt, hfault⟩ := h.errWorker hb hs
    rw [(State.raiseFault_status_later s e x hs).1, hcores]
    refine ⟨hcode, hlt, ?_⟩
    rw [State.worker_set_ne s _ s.cur _ _ (State.raiseFault_workers s e x) (by rintro e; simp [e, hr] at hfault)]
    exact hfault

/-- The release, all participants being `RUN` at `BAR` (43_barrier_controller.md R192). -/
theorem Inv.release {s : State} (h : Inv s) (hen : s.releaseEnabled = true) : Inv s.release := by
  obtain ⟨hb, hbar⟩ := s.releaseEnabled_iff.mp hen
  have hworker : ∀ c, c < s.cores → s.release.worker c = { s.worker c with pc := (s.worker c).pc + 1 } := fun c hc =>
    State.worker_updateFirst_lt s _ _ _ c (State.release_workers s) hc (Nat.lt_of_lt_of_le hc (h.cores_le hb).1)
  have hspare : ∀ c, s.cores ≤ c → s.release.worker c = s.worker c := fun c =>
    State.worker_updateFirst_ge s _ _ _ c (State.release_workers s)
  have hnone : ∀ c, c < s.cores → (s.release.worker c).ws ≠ .faulted := by
    intro c hc
    simp [hworker c hc, (hbar c hc).1]
  have herr : s.status.err ≠ true := by
    intro he
    obtain ⟨c, hc, hf⟩ := (h.errBusy hb).mp he
    simp [(hbar c hc).1] at hf
  refine Inv.of_running h.params ?_ h.memory h.noIssue hb (h.config hb) (h.notDone hb) ?_ ?_ h.errClear ?_
    (fun he => absurd he herr) (by simp)
  · simpa [updateFirst_length] using h.contexts
  · intro c hc
    have hc : s.cores ≤ c := hc
    rw [hspare c hc]
    exact h.spare c hc
  · intro c hc
    have hc : c < s.cores := hc
    rw [hworker c hc]
    exact s.placed_succ s.release c _ .bar rfl (hbar c hc).2 (by simp) (h.placed hb c hc) (hbar c hc).1 rfl (by simp)
  · exact ⟨fun he => absurd he herr, fun ⟨c, hc, hf⟩ => absurd hf (hnone c hc)⟩

/-- The fork of a command whose configuration passed the checks (45_launcher_and_host_commands.md R223, R226). -/
theorem Inv.fork {s : State} (h : Inv s) (hb : s.status.busy = false) (hc : configError s.params s.regs = none)
    (hinv : s.regs.inv = false) : Inv s.acceptStart.fork := by
  have hle : s.cores ≤ s.workers.length := by
    obtain ⟨-, ⟨-, hle⟩, -⟩ := (configError_none_iff _ _).mp hc
    exact h.contexts ▸ hle
  have hworker : ∀ c, c < s.cores → s.acceptStart.fork.worker c = { s.worker c with ws := .run, pc := 0 } := fun c hc =>
    State.worker_updateFirst_lt s _ _ _ c (State.fork_workers _) hc (Nat.lt_of_lt_of_le hc hle)
  have hspare : ∀ c, s.cores ≤ c → s.acceptStart.fork.worker c = s.worker c := fun c =>
    State.worker_updateFirst_ge s _ _ _ c (State.fork_workers _)
  refine Inv.of_running h.params ?_ h.memory h.noIssue rfl ⟨hc, hinv⟩ ⟨rfl, rfl⟩ ?_ ?_ (fun _ => ⟨rfl, rfl, rfl⟩) ?_
    (fun he => by simp at he) (by simp)
  · simpa [updateFirst_length] using h.contexts
  · intro c hc
    have hc : s.cores ≤ c := hc
    rw [hspare c hc]
    exact h.idle hb c
  · intro c hc
    have hc : c < s.cores := hc
    exact State.placed_start _ c _ (by rw [hworker c hc]) (by rw [hworker c hc]) rfl
  · constructor
    · intro he
      simp at he
    · rintro ⟨c, hc, hf⟩
      have hc : c < s.cores := hc
      simp [hworker c hc] at hf

/-- The join, all participants being `ENDED`, so that none has faulted (R229). -/
theorem Inv.join {s : State} (h : Inv s) (hen : s.joinEnabled = true) : Inv s.join := by
  obtain ⟨hb, hended⟩ := s.joinEnabled_iff.mp hen
  refine Inv.of_idle h.params (by simpa using h.contexts) h.memory h.noIssue rfl ?_ rfl h.errClear ?_
  · intro c
    rw [State.worker_map_idle s _ c (State.join_workers s)]
  · intro he
    obtain ⟨c, hc, hf⟩ := (h.errBusy hb).mp he
    simp [hended c hc] at hf

/-- Reset (70_reset_and_hazards.md R310). -/
theorem Inv.doReset {s : State} (h : Inv s) : Inv s.doReset := by
  refine Inv.of_idle h.params (by simp) h.memory h.noIssue rfl ?_ rfl (fun _ => ⟨rfl, rfl, rfl⟩) (by simp [Status.reset])
  intro c
  rw [State.worker_replicate _ _ c (State.doReset_workers s)]
  rfl

/-- What the host may change of an idle block: the registers, and the flags and the error record while they say nothing of a
worker fault. -/
theorem Inv.idleUpdate {s : State} (h : Inv s) (hb : s.status.busy = false) (r : Regs) (st : Status) (info : Word)
    (hst : st.busy = false) (hclear : st.err = false → st.errCode = .none ∧ st.errWorker = 0 ∧ info = 0)
    (hconfig : st.err = true → st.errCode.isConfig = true ∧ st.errWorker = 0xFF) :
    Inv { s with regs := r, status := st, errInfo := info } :=
  Inv.of_idle h.params h.contexts h.memory h.noIssue hst (h.idle hb) (h.idleLog hb) hclear hconfig

/-! ## The turns -/

theorem Inv.setOvr {s : State} (h : Inv s) : Inv s.setOvr :=
  h.congr rfl

theorem Inv.setUnsup {s : State} (h : Inv s) : Inv s.setUnsup :=
  h.congr rfl

/-- A host command (45_launcher_and_host_commands.md R223, R230, R231). -/
theorem Inv.exec_command {s t : State} (h : Inv s) (i : Instr) (hi : i.isMicroOp = false) (ht : exec i s = .next t) :
    Inv t := by
  by_cases hs : i = .start
  · subst hs
    change execStart s = .next t at ht
    rcases execStart_cases s with ⟨-, e⟩ | ⟨-, -, e⟩ | ⟨-, hb, ⟨c, info, hc, e⟩ | ⟨-, -, e⟩ | ⟨hc, hinv, e⟩⟩ <;>
      (rw [e] at ht; cases ht)
    · exact h.setUnsup
    · exact h.setOvr
    · exact h.idleUpdate hb s.regs _ info hb (by simp) fun _ => ⟨configError_isConfig _ _ _ _ hc, rfl⟩
    · exact h.idleUpdate hb s.regs _ 0 hb (fun _ => ⟨rfl, rfl, rfl⟩) (by simp)
    · exact h.fork hb hc hinv
  · rcases exec_command_cases s i hi hs with ⟨-, e⟩ | ⟨hb, -, e⟩ | ⟨-, -, e⟩ <;> (rw [e] at ht; cases ht)
    · exact h.setOvr
    · exact h.idleUpdate hb s.regs _ 0 hb (fun _ => ⟨rfl, rfl, rfl⟩) (by simp)
    · exact h

/-- `cmd` is a host command (30_encoding.md R99). -/
theorem decodeC_isMicroOp (v : Word) : (decodeC v).isMicroOp = false := by
  unfold decodeC
  split <;> rfl

theorem Inv.writeReg {s : State} (h : Inv s) (r : HostReg) (v : Word) : Inv (s.writeReg r v) := by
  rcases s.writeReg_cases r v with e | e | ⟨-, e⟩ | ⟨hb, q, e⟩ <;> rw [e]
  · exact h
  · exact h.congr rfl
  · exact h.setOvr
  · exact h.idleUpdate hb q s.status s.errInfo hb h.errClear (h.errConfig hb)

theorem Inv.hostWrite {s t : State} (h : Inv s) (addr : Word) (n : Nat) (v : Word) (ctx : Bool)
    (ht : s.hostWrite addr n v ctx = .next t) : Inv t := by
  rcases s.hostWrite_cases addr n v ctx with e | e | e | ⟨r, e⟩ <;> rw [e] at ht
  · cases ht
  · cases ht
    exact h
  · have hctx : Inv { s with ctx := ctx } :=
      h.congr rfl
    exact hctx.exec_command _ (decodeC_isMicroOp v) ht
  · cases ht
    exact h.writeReg r v

/-- A host read leaves all but what the host sees (R232). -/
theorem State.hostRead_next (s t : State) (addr : Word) (n : Nat) (h : s.hostRead addr n = .next t) :
    ∃ v, t = { s with rdata := v } := by
  unfold State.hostRead State.withOffset at h
  split at h
  · split at h
    · exact ⟨_, by simpa using h.symm⟩
    · cases h
  · cases h
    exact ⟨s.rdata, rfl⟩

theorem State.hostMemRead_next (s t : State) (addr : Word) (h : s.hostMemRead addr = .next t) :
    ∃ v, t = { s with rdata := v } := by
  unfold State.hostMemRead at h
  split at h
  · cases h
  · split at h
    · exact ⟨_, by simpa using h.symm⟩
    · cases h

theorem State.hostMemWrite_next (s t : State) (addr : Word) (v : Byte) (h : s.hostMemWrite addr v = .next t) :
    t = { s with mem := Memory.write s.mem addr.toNat v } := by
  unfold State.hostMemWrite at h
  split at h
  · cases h
  · simpa using h.symm

theorem Inv.rdata {s : State} (h : Inv s) (v : Word) : Inv { s with rdata := v } :=
  h.congr rfl

/-- The decoder reads back what the scheduler encodes (30_encoding.md R90). -/
theorem decode_encode_op (i : Instr) : decode (encode i) = .ok i := by
  cases i <;> simp [encode, decode, decodeU, decodeC]

/-- A worker's turn passes, or executes its next micro-op, which is not `BAR` (45_launcher_and_host_commands.md R227). -/
theorem State.workerTurn_next (s t : State) (c : Nat) (h : s.workerTurn c = .next t) :
    t = s ∨ ∃ i w, (s.worker c).ws = .run ∧ s.nextOp c = some i ∧ i ≠ .bar ∧
      exec i { s with cur := c, trace := s.trace ++ [(c, w)] } = .next t := by
  unfold State.workerTurn at h
  split at h
  · rename_i w hw
    split at h
    · cases h
      exact .inl rfl
    · rename_i hbar
      refine .inr ?_
      unfold State.issued at hw
      split at hw
      · rename_i hr
        obtain ⟨i, hi, henc⟩ := Option.map_eq_some_iff.mp hw
        have hdec : decode (.u w) = .ok i := henc ▸ decode_encode_op i
        unfold State.runWord at h
        rw [hdec] at h
        refine ⟨i, w, hr, hi, ?_, h⟩
        rintro rfl
        exact hbar (Code.u.inj henc).symm
      · cases hw
  · cases h
    exact .inl rfl

/-- The stores of a completed micro-op lie in the space of `2^32` bytes (20_memory.md R75). -/
theorem Memory.wf_store (m : Memory) (p : Params) (a : Nat) (v : Word) (h : Memory.wf m) (hv : p.memValid a 4 = true) :
    Memory.wf (Memory.writeN m a 4 v.toNat) :=
  Memory.wf_writeN _ _ _ _ h (Params.memValid_bound p a 4 hv (by decide))

/-- A `RUN` worker executes its next micro-op, which accesses memory (60_exceptions.md R280, 10_state.md R22). -/
theorem Inv.exec_memory {s t : State} (h : Inv s) (i : Instr) (hr : (s.worker s.cur).ws = .run)
    (hi : s.nextOp s.cur = some i) (ha : i.accessesMemory = true) (ht : exec i s = .next t) : Inv t := by
  obtain ⟨hb, hc⟩ := h.participant s.cur (by simp [hr])
  have logged : ∀ l : List Access, (∀ y ∈ l, y ∈ s.log ∨ y.worker = s.cur) → ∀ y ∈ l, y.worker < s.cores := by
    intro l hl y hy
    rcases hl y hy with hy | hy
    · exact h.logged y hy
    · exact hy ▸ hc
  have recorded : ∀ m l, Memory.wf m → (∀ y ∈ l, y ∈ s.log ∨ y.worker = s.cur) → Inv { s with mem := m, log := l } :=
    fun m l hm hl => h.update rfl hm h.noIssue (by simp [hb]) (logged l hl)
  cases exec_memory_effect s t i ha ht with
  | fault l e x he hl ht =>
    subst ht
    refine (recorded s.mem l h.memory hl).raiseFault e x i ?_ hr hi ha
    rcases he with rfl | rfl <;> rfl
  | stores l a b u v w _ _ hva hvb hw hpc hl ht =>
    subst ht
    have hs := recorded _ l (Memory.wf_store _ s.params _ v (Memory.wf_store _ s.params _ u h.memory hva) hvb) hl
    refine hs.setWorker s.cur { w with pc := w.pc + 1 } hr ?_ (by simp [hw, hr])
    have hne : i ≠ .endOp := by rintro rfl; simp [Instr.accessesMemory] at ha
    have hbar : i ≠ .bar := by rintro rfl; simp [Instr.accessesMemory] at ha
    exact s.placed_succ _ s.cur _ i rfl hi hne (h.placed hb _ hc) (hw.trans hr) (by simp [hpc]) (by simp [hbar])

/-- A `RUN` worker executes `END` (R228). -/
theorem Inv.exec_end {s t : State} (h : Inv s) (hr : (s.worker s.cur).ws = .run) (hi : s.nextOp s.cur = some .endOp)
    (ht : exec .endOp s = .next t) : Inv t := by
  obtain ⟨hb, hc⟩ := h.participant s.cur (by simp [hr])
  obtain ⟨-, -, hcount⟩ := h.placed hb s.cur hc
  cases ht
  exact h.setWorker s.cur _ hr ⟨by simp, ⟨.endOp, hi, by simp, by simp⟩, hcount⟩ (by simp)

theorem Inv.workerTurn {s t : State} (h : Inv s) (c : Nat) (ht : s.workerTurn c = .next t) : Inv t := by
  rcases s.workerTurn_next t c ht with rfl | ⟨i, w, hr, hi, hbar, ht⟩
  · exact h
  have hcur : Inv { s with cur := c, trace := s.trace ++ [(c, w)] } :=
    h.congr rfl
  rcases mem_prog _ _ _ _ _ i (List.mem_of_getElem? hi) with rfl | rfl | ha
  · exact absurd rfl hbar
  · exact hcur.exec_end hr hi ht
  · exact hcur.exec_memory i hr hi ha ht

/-- Every turn but that of a hand-issued word keeps the invariant. -/
theorem Inv.takeTurn {s t : State} (h : Inv s) (turn : Turn) (hno : ∀ c w, turn ≠ .issue c w)
    (ht : takeTurn turn s = .next t) : Inv t := by
  cases turn with
  | regRead addr n =>
    obtain ⟨v, rfl⟩ := s.hostRead_next t addr n ht
    exact h.rdata v
  | regWrite addr n v ctx => exact h.hostWrite addr n v ctx ht
  | memRead addr =>
    obtain ⟨v, rfl⟩ := s.hostMemRead_next t addr ht
    exact h.rdata v
  | memWrite addr v =>
    obtain rfl := s.hostMemWrite_next t addr v ht
    exact h.update rfl (Memory.wf_write _ _ _ h.memory addr.isLt) h.noIssue h.idleLog h.logged
  | reset =>
    cases ht
    exact h.doReset
  | worker c => exact h.workerTurn c ht
  | release =>
    change execBar s = .next t at ht
    unfold execBar at ht
    split at ht <;> cases ht
    · exact h.release ‹_›
    · exact h
  | join =>
    change s.joinTurn = .next t at ht
    unfold State.joinTurn at ht
    split at ht <;> cases ht
    · exact h.join ‹_›
    · exact h
  | issue c w => exact absurd rfl (hno c w)

/-- The turn taken is no hand-issued word, and taking it off keeps the invariant (log 2). -/
theorem Inv.popTurn {s : State} (h : Inv s) : (∀ c w, s.popTurn.1 ≠ .issue c w) ∧ Inv s.popTurn.2 := by
  have hno := h.noIssue
  cases ht : s.turns with
  | nil =>
    rw [s.popTurn_nil ht]
    refine ⟨fun c w => ?_, h.congr rfl⟩
    rcases Turn.ofFree_cases (Config.freeTurn s.tick) with e | e | ⟨d, e⟩ <;> simp [e]
  | cons turn rest =>
    rw [s.popTurn_cons turn rest ht]
    rw [ht] at hno
    refine ⟨fun c w e => hno c w (e ▸ List.mem_cons_self), h.update rfl h.memory ?_ h.idleLog h.logged⟩
    exact fun c w hm => hno c w (List.mem_cons_of_mem _ hm)

/-- Settles O54: the invariant is kept by taking the turn off and by what each agent's turn does. -/
theorem stepKeepsInvariant : Obligations.StepKeepsInvariant := by
  intro s t h ht
  obtain ⟨hno, hpop⟩ := h.popTurn
  exact hpop.takeTurn _ hno ht

end Sys2Proof.Machine

namespace Sys2Proof.Machine

open Sys2Proof

/-! ## The length of `prog(c)` (10_state.md R22) -/

/-- A share of `n` items is no more than `n` (42_stage_scheduler.md R162). -/
theorem length_owned_le (c n p : Nat) : (owned c n p).length ≤ n := by
  rw [owned, List.length_range', block]
  split <;> dsimp only <;> omega

/-- In a stage with group size `d`, which divides `N`, a twiddle factor serves `N / d` butterflies (R163). -/
theorem length_groupOps_le (d q mod j : Nat) (hd : 0 < d) : (groupOps (d * q) d mod j).length ≤ q := by
  rw [groupOps, List.length_map, groupStarts, List.length_range', ceilDiv]
  apply Nat.le_of_lt_succ
  rw [Nat.div_lt_iff_lt_mul hd, Nat.succ_mul, Nat.mul_comm q d]
  omega

/-- The body of a twiddle stage has at most `N / 2` butterflies (R163). -/
theorem length_stageBody_le (d q mod c p : Nat) (hd : 0 < d) :
    (stageBody (d * q) d mod c p).length ≤ d / 2 * q := by
  rw [stageBody, List.length_flatMap]
  calc ((owned c (d / 2) p).map fun j => (groupOps (d * q) d mod j).length).sum
      ≤ ((owned c (d / 2) p).map fun j => (groupOps (d * q) d mod j).length).length * q :=
        List.sum_le_card_nsmul _ q fun x hx => by
          obtain ⟨j, -, rfl⟩ := List.mem_map.mp hx
          exact length_groupOps_le d q mod j hd
    _ ≤ d / 2 * q := by
        rw [List.length_map]
        exact Nat.mul_le_mul_right q (length_owned_le c (d / 2) p)

theorem two_pow_succ_half (k : Nat) : 2 ^ (k + 1) / 2 = 2 ^ k := by
  rw [Nat.pow_succ, Nat.mul_div_cancel _ (by decide)]

/-- From group size `2 ^ (k + 1)` on there are `k` twiddle stages, each of two `BAR` and at most `N / 2` butterflies. -/
theorem length_twiddleStages_le (m c p fuel : Nat) : ∀ k mod, k < m →
    (twiddleStages (2 ^ m) c p fuel (2 ^ (k + 1)) mod).length ≤ k * (2 + 2 ^ m / 2) := by
  induction fuel with
  | zero => intro k mod _; simp [twiddleStages]
  | succ fuel ih =>
    intro k mod hk
    cases k with
    | zero => simp [twiddleStages_two]
    | succ k =>
      have hbody : (stageBody (2 ^ m) (2 ^ (k + 1 + 1)) mod c p).length ≤ 2 ^ m / 2 := by
        obtain ⟨q, rfl⟩ : ∃ q, m = k + 2 + q := ⟨m - (k + 2), by omega⟩
        have h := length_stageBody_le (2 ^ (k + 2)) (2 ^ q) mod c p (by positivity)
        have hhalf : 2 ^ (k + 2) / 2 * 2 ^ q = 2 ^ (k + 2 + q) / 2 := by
          rw [two_pow_succ_half, ← pow_add, show k + 2 + q = k + 1 + q + 1 by omega, two_pow_succ_half]
        rwa [hhalf, ← pow_add] at h
      have hrest := ih k (mod * 2) (by omega)
      rw [twiddleStages_succ _ _ _ _ _ _ (by omega), Nat.succ_mul]
      simp only [List.length_cons, List.length_append]
      omega

/-- Settles O52: `m - 1` twiddle stages, the final stage, and the bit-reversal phase. -/
theorem programLengthBound : Obligations.ProgramLengthBound := by
  intro m p l c brev hm _ hl
  obtain ⟨k, rfl⟩ : ∃ k, m = k + 1 := ⟨m - 1, by omega⟩
  have htw := length_twiddleStages_le (k + 1) c p (2 ^ (k + 1)) k 1 (by omega)
  have hfinal : (finalBody (2 ^ (k + 1)) c p).length ≤ 2 ^ (k + 1) / 2 := by
    rw [finalBody, List.length_map]
    exact length_owned_le _ _ _
  have hbrev : (brevBody brev l c p).length ≤ 2 ^ (k + 1) / 2 := by
    unfold brevBody
    split
    · rw [List.length_map]
      have := length_owned_le c (l / 2) p
      omega
    · exact Nat.zero_le _
  simp only [prog, List.length_append, List.length_cons, List.length_nil]
  rw [Nat.mul_comm, Nat.add_mul]
  rw [Nat.mul_add] at htw
  omega

/-! ## The loop registers (10_state.md R24) -/

/-- From `r` on, the loop registers stand at the micro-ops of the list one after the other. -/
def LoopRegs.Emits (cfg : SchedConfig) : LoopRegs → List Instr → Prop
  | _, [] => True
  | r, i :: l => r.op = i ∧ LoopRegs.Emits cfg (r.next cfg) l

/-- What is emitted from the fork on is what the loop registers stand at after `k` micro-ops. -/
theorem LoopRegs.Emits.op_after {cfg : SchedConfig} {c : Nat} (l : List Instr) :
    ∀ b k i, LoopRegs.Emits cfg (LoopRegs.after cfg c b) l → l[k]? = some i → (LoopRegs.after cfg c (b + k)).op = i := by
  induction l with
  | nil => intro b k i _ h; simp at h
  | cons x l ih =>
    rintro b k i ⟨hx, hl⟩ h
    cases k with
    | zero => simpa [hx] using h
    | succ k =>
      rw [← Nat.add_assoc, Nat.add_right_comm]
      exact ih (b + 1) k i hl (by simpa using h)

/-- A phase of one micro-op per item: `f j` for the item in `J`, then the next item or the phase `skip`. Both the final stage
and the bit-reversal phase are one (R165, R168). -/
theorem LoopRegs.emits_items (cfg : SchedConfig) (body skip : Phase) (f : Nat → Instr) (rest : List Instr)
    (hop : ∀ r : LoopRegs, r.ph = body → r.op = f r.j ∧
      r.next cfg = if r.j + 1 < r.jend then { r with j := r.j + 1 } else { r with ph := skip }) (n : Nat) :
    ∀ r : LoopRegs, r.ph = body → r.jend = r.j + (n + 1) →
      (∀ r' : LoopRegs, r'.c = r.c → r'.ph = skip → LoopRegs.Emits cfg r' rest) →
      LoopRegs.Emits cfg r ((List.range' r.j (n + 1)).map f ++ rest) := by
  induction n with
  | zero =>
    intro r hph hj hrest
    refine ⟨(hop r hph).1, ?_⟩
    rw [(hop r hph).2, if_neg (by omega)]
    exact hrest _ rfl rfl
  | succ n ih =>
    intro r hph hj hrest
    refine ⟨(hop r hph).1, ?_⟩
    rw [(hop r hph).2, if_pos (by omega)]
    exact ih { r with j := r.j + 1 } hph (show r.jend = r.j + 1 + (n + 1) by omega) hrest

/-- Entering a phase whose items are partitioned: with a share that is not empty at its first item, else past the phase
(R162). -/
theorem LoopRegs.enter_cases (r : LoopRegs) (cfg : SchedConfig) (n : Nat) (body skip : Phase) :
    (owned r.c n cfg.p = [] ∧ (r.enter cfg n body skip).ph = skip) ∨
    (∃ k, owned r.c n cfg.p = List.range' (r.enter cfg n body skip).j (k + 1) ∧
      (r.enter cfg n body skip).ph = body ∧ (r.enter cfg n body skip).i0 = (r.enter cfg n body skip).j ∧
      (r.enter cfg n body skip).jend = (r.enter cfg n body skip).j + (k + 1)) := by
  unfold owned LoopRegs.enter
  generalize block r.c n cfg.p = b
  by_cases h : b.1 < b.2
  · exact .inr ⟨b.2 - b.1 - 1, by congr 1; omega, by simp [h], rfl, by dsimp only; omega⟩
  · exact .inl ⟨by rw [show b.2 - b.1 = 0 by omega]; rfl, by simp [h]⟩

/-- The final stage's or the bit-reversal phase's micro-ops from the phase's entry on. -/
theorem LoopRegs.emits_enter_items (cfg : SchedConfig) (body skip : Phase) (f : Nat → Instr) (rest : List Instr)
    (hop : ∀ r : LoopRegs, r.ph = body → r.op = f r.j ∧
      r.next cfg = if r.j + 1 < r.jend then { r with j := r.j + 1 } else { r with ph := skip })
    (n : Nat) (r : LoopRegs) (hrest : ∀ r' : LoopRegs, r'.c = r.c → r'.ph = skip → LoopRegs.Emits cfg r' rest) :
    LoopRegs.Emits cfg (r.enter cfg n body skip) ((owned r.c n cfg.p).map f ++ rest) := by
  rcases r.enter_cases cfg n body skip with ⟨ho, hph⟩ | ⟨k, ho, hph, -, hjend⟩ <;> rw [ho]
  · exact hrest _ rfl hph
  · exact LoopRegs.emits_items cfg body skip f rest hop k _ hph hjend hrest

/-- The bit-reversal phase and `END` (R168, R169). -/
theorem LoopRegs.emits_brev (cfg : SchedConfig) (r : LoopRegs) (hph : r.ph = .finClose) :
    LoopRegs.Emits cfg (r.next cfg) (brevBody cfg.brev cfg.l r.c cfg.p ++ [.endOp]) := by
  have done : ∀ r' : LoopRegs, r'.ph = .done → LoopRegs.Emits cfg r' [.endOp] := by
    intro r' h
    exact ⟨by simp [LoopRegs.op, h], trivial⟩
  cases hb : cfg.brev with
  | false =>
    simp only [LoopRegs.next, hph, hb]
    exact done _ rfl
  | true =>
    simp only [LoopRegs.next, hph, hb, if_true, brevBody]
    refine LoopRegs.emits_enter_items cfg .brev .done (fun k => .swpt (idx k)) _ ?_ _ r fun r' _ => done r'
    intro r' h
    simp [LoopRegs.op, LoopRegs.next, h]

/-- The final stage and what follows it (R165). -/
theorem LoopRegs.emits_final (cfg : SchedConfig) (r : LoopRegs) (hph : r.ph = .finOpen) :
    LoopRegs.Emits cfg r
      (.bar :: (finalBody cfg.n r.c cfg.p ++ .bar :: (brevBody cfg.brev cfg.l r.c cfg.p ++ [.endOp]))) := by
  refine ⟨by simp [LoopRegs.op, hph], ?_⟩
  have hnext : r.next cfg = r.enter cfg (cfg.n / 2) .finBody .finClose := by simp [LoopRegs.next, hph]
  rw [hnext, finalBody]
  refine LoopRegs.emits_enter_items cfg .finBody .finClose _ _ ?_ _ r fun r' hc h => ⟨by simp [LoopRegs.op, h], ?_⟩
  · intro r' h
    simp [LoopRegs.op, LoopRegs.next, h]
  · rw [← hc]
    exact r'.emits_brev cfg h

/-- The registers a twiddle stage is run with (R163, R164). -/
def LoopRegs.InStage (r : LoopRegs) (c n1 mod : Nat) : Prop := r.c = c ∧ r.n1 = n1 ∧ r.n2 = n1 / 2 ∧ r.mod = mod

/-- The butterflies of one twiddle factor, from the group start in `I0` on: `k + 1` are left (R163). -/
theorem LoopRegs.emits_group (cfg : SchedConfig) (c n1 mod : Nat) (rest : List Instr) (k : Nat) :
    ∀ r : LoopRegs, r.InStage c n1 mod → r.ph = .twBody → r.i0 + k * n1 < cfg.n → cfg.n ≤ r.i0 + (k + 1) * n1 →
      (∀ i0, LoopRegs.Emits cfg
        (if r.j + 1 < r.jend then { r with j := r.j + 1, i0 := r.j + 1 } else { r with i0 := i0, ph := .twClose }) rest) →
      LoopRegs.Emits cfg r
        ((List.range' r.i0 (k + 1) n1).map (fun i0 => .bfly (idx i0) (idx (i0 + n1 / 2)) (idx (mod * r.j))) ++ rest) := by
  induction k with
  | zero =>
    rintro r ⟨-, hn1, hn2, hmod⟩ hph hlt hge hrest
    refine ⟨by simp [LoopRegs.op, hph, hn2, hmod], ?_⟩
    have hnext : r.next cfg =
        if r.j + 1 < r.jend then { r with j := r.j + 1, i0 := r.j + 1 } else { r with i0 := r.i0, ph := .twClose } := by
      simp only [LoopRegs.next, hph]
      rw [if_neg (by omega)]
    rw [hnext]
    exact hrest r.i0
  | succ k ih =>
    rintro r ⟨hc, hn1, hn2, hmod⟩ hph hlt hge hrest
    rw [Nat.succ_mul] at hlt hge
    refine ⟨by simp [LoopRegs.op, hph, hn2, hmod], ?_⟩
    have hnext : r.next cfg = { r with i0 := r.i0 + n1 } := by
      simp only [LoopRegs.next, hph, hn1]
      rw [if_pos (by have := Nat.zero_le (k * n1); omega)]
    rw [hnext]
    exact ih { r with i0 := r.i0 + n1 } ⟨hc, hn1, hn2, hmod⟩ hph (show r.i0 + n1 + k * n1 < cfg.n by omega)
      (show cfg.n ≤ r.i0 + n1 + (k + 1) * n1 by omega) hrest

/-- `ceil_div` counts the group starts below `N` (R163). -/
theorem ceilDiv_spec (n n1 j : Nat) (hn1 : 0 < n1) (hj : j < n) :
    ∃ k, ceilDiv (n - j) n1 = k + 1 ∧ j + k * n1 < n ∧ n ≤ j + (k + 1) * n1 := by
  have hc : ceilDiv (n - j) n1 = (n - j - 1) / n1 + 1 := by
    rw [ceilDiv, show n - j + n1 - 1 = n - j - 1 + n1 by omega, Nat.add_div_right _ hn1]
  refine ⟨(n - j - 1) / n1, hc, ?_, ?_⟩
  · have := Nat.div_mul_le_self (n - j - 1) n1
    omega
  · have := Nat.lt_div_mul_add (a := n - j - 1) hn1
    rw [Nat.succ_mul]
    omega

/-- The body of a twiddle stage from twiddle factor `J` on: `k + 1` factors are left (R163). -/
theorem LoopRegs.emits_groups (cfg : SchedConfig) (c n1 mod : Nat) (rest : List Instr) (hn1 : 0 < n1) (k : Nat) :
    ∀ r : LoopRegs, r.InStage c n1 mod → r.ph = .twBody → r.i0 = r.j → r.jend = r.j + (k + 1) → r.jend ≤ cfg.n →
      (∀ r' : LoopRegs, r'.InStage c n1 mod → r'.ph = .twClose → LoopRegs.Emits cfg r' rest) →
      LoopRegs.Emits cfg r ((List.range' r.j (k + 1)).flatMap (groupOps cfg.n n1 mod) ++ rest) := by
  induction k with
  | zero =>
    intro r hr hph hi0 hjend hle hrest
    obtain ⟨q, hq, hlt, hge⟩ := ceilDiv_spec cfg.n n1 r.j hn1 (by omega)
    have hlast := LoopRegs.emits_group cfg c n1 mod rest q r hr hph (hi0 ▸ hlt) (hi0 ▸ hge) fun i0 => by
      rw [if_neg (by omega)]
      exact hrest _ hr rfl
    rw [hi0] at hlast
    simpa [groupOps, groupStarts, hq] using hlast
  | succ k ih =>
    intro r hr hph hi0 hjend hle hrest
    obtain ⟨q, hq, hlt, hge⟩ := ceilDiv_spec cfg.n n1 r.j hn1 (by omega)
    have hnext := ih { r with j := r.j + 1, i0 := r.j + 1 } hr hph rfl (show r.jend = r.j + 1 + (k + 1) by omega) hle hrest
    have hfirst := LoopRegs.emits_group cfg c n1 mod _ q r hr hph (hi0 ▸ hlt) (hi0 ▸ hge) fun i0 => by
      rw [if_pos (by omega)]
      exact hnext
    rw [hi0] at hfirst
    rw [List.range'_succ, List.flatMap_cons, List.append_assoc, groupOps, groupStarts, hq]
    exact hfirst

/-- A twiddle stage's body and its closing `BAR`, from the entry on (R163). -/
theorem LoopRegs.emits_stageBody (cfg : SchedConfig) (c n1 mod : Nat) (rest : List Instr) (hn1 : 0 < n1)
    (hle : n1 / 2 ≤ cfg.n) (r : LoopRegs) (hr : r.InStage c n1 mod)
    (hrest : ∀ r' : LoopRegs, r'.InStage c n1 mod → r'.ph = .twClose → LoopRegs.Emits cfg r' rest) :
    LoopRegs.Emits cfg (r.enter cfg (n1 / 2) .twBody .twClose) (stageBody cfg.n n1 mod c cfg.p ++ rest) := by
  have hin : (r.enter cfg (n1 / 2) .twBody .twClose).InStage c n1 mod := hr
  obtain ⟨rfl, -⟩ := hr
  rw [stageBody]
  rcases r.enter_cases cfg (n1 / 2) .twBody .twClose with ⟨ho, hph⟩ | ⟨k, ho, hph, hi0, hjend⟩
  · rw [ho]
    exact hrest _ hin hph
  · have hlast : (r.enter cfg (n1 / 2) .twBody .twClose).j + k < n1 / 2 :=
      lt_of_mem_owned (c := r.c) (p := cfg.p) (by rw [ho, List.mem_range'_1]; omega)
    rw [ho]
    exact LoopRegs.emits_groups cfg r.c n1 mod rest hn1 k _ hin hph hi0 hjend (by omega) hrest

/-- The phase a stage with group size `n1` opens with: the final stage has group size 2 (R164). -/
def openingPhase (n1 : Nat) : Phase := if n1 > 2 then .twOpen else .finOpen

/-- The twiddle stages from group size `2 ^ (k + 1)` on, and what follows them (R160, R164). -/
theorem LoopRegs.emits_twiddleStages (cfg : SchedConfig) (c : Nat) (rest : List Instr)
    (hrest : ∀ r : LoopRegs, r.c = c → r.ph = .finOpen → LoopRegs.Emits cfg r rest) (k : Nat) :
    ∀ (fuel mod : Nat) (r : LoopRegs), k ≤ fuel → 2 ^ (k + 1) ≤ cfg.n → r.InStage c (2 ^ (k + 1)) mod →
      r.ph = openingPhase (2 ^ (k + 1)) →
      LoopRegs.Emits cfg r (twiddleStages cfg.n c cfg.p fuel (2 ^ (k + 1)) mod ++ rest) := by
  induction k with
  | zero =>
    intro fuel mod r _ _ hr hph
    rw [zero_add, pow_one, twiddleStages_two]
    exact hrest r hr.1 hph
  | succ k ih =>
    intro fuel mod r hfuel hle hr hph
    obtain ⟨fuel, rfl⟩ : ∃ f, fuel = f + 1 := ⟨fuel - 1, by omega⟩
    have hhalf : 2 ^ (k + 1 + 1) / 2 = 2 ^ (k + 1) := two_pow_succ_half (k + 1)
    have hpos : 0 < 2 ^ (k + 1) := by positivity
    have hph : r.ph = .twOpen := hph.trans (if_pos (by
      have := Nat.one_le_two_pow (n := k)
      omega))
    rw [twiddleStages_succ _ _ _ _ _ _ (by omega)]
    rw [List.cons_append, List.append_assoc]
    refine ⟨by simp [LoopRegs.op, hph], ?_⟩
    have hnext : r.next cfg = r.enter cfg (2 ^ (k + 1 + 1) / 2) .twBody .twClose := by
      obtain ⟨-, -, hn2, -⟩ := hr
      simp only [LoopRegs.next, hph, hn2]
    rw [hnext]
    refine r.emits_stageBody cfg c _ mod _ (by omega) (by omega) hr fun r' hr' hph' => ⟨by simp [LoopRegs.op, hph'], ?_⟩
    obtain ⟨hc', -, hn2', hmod'⟩ := hr'
    refine ih fuel (mod * 2) (r'.next cfg) (by omega) (by omega) ?_ ?_
    · simp [LoopRegs.next, hph', LoopRegs.InStage, hc', hn2', hmod', hhalf]
    · simp [LoopRegs.next, hph', hn2', hhalf, openingPhase]

/-- From the fork on the loop registers stand at the micro-ops of `prog(c)` (R160). -/
theorem LoopRegs.emits_prog (cfg : SchedConfig) (m c : Nat) (hn : cfg.n = 2 ^ (m + 1)) :
    LoopRegs.Emits cfg (LoopRegs.init cfg c) (prog cfg.n cfg.p cfg.brev cfg.l c) := by
  have hfuel : m ≤ cfg.n := by
    have := Nat.lt_two_pow_self (n := m + 1)
    omega
  have h := LoopRegs.emits_twiddleStages cfg c _ (fun r hc hph => hc ▸ r.emits_final cfg hph) m cfg.n 1
    (LoopRegs.init cfg c) hfuel hn.ge ⟨rfl, hn, congrArg (· / 2) hn, rfl⟩ (congrArg openingPhase hn)
  rwa [← hn] at h

/-- Settles O51: the loop registers emit `prog(c)` from the fork on. -/
theorem loopRegistersFollowTheProgram : Obligations.LoopRegistersFollowTheProgram := by
  intro m p l c k brev i hm _ hi
  obtain ⟨m, rfl⟩ : ∃ q, m = q + 1 := ⟨m - 1, by omega⟩
  have h := (LoopRegs.emits_prog { n := 2 ^ (m + 1), p := p, brev := brev, l := l } m c rfl).op_after _ 0 k i hi
  rwa [Nat.zero_add] at h

end Sys2Proof.Machine

namespace Sys2Proof.Machine

open Sys2Proof

/-! ## `SCALE` (10_state.md R37) -/

/-- `s` with another value in `SCALE`. -/
def State.withScale (s : State) (v : Word) : State := { s with regs := { s.regs with scale := v } }

/-- An outcome whose next state has another value in `SCALE`. -/
def scaled (v : Word) : Out → Out
  | .next t => .next (t.withScale v)
  | .fault r => .fault r
  | .refused r => .refused r

/-! ### The guards a micro-op runs under -/

theorem ifAdmitted_withScale (s : State) (v : Word) (i : Instr) (k k' : Out) (hk : k' = scaled v k) :
    (s.withScale v).ifAdmitted i k' = scaled v (s.ifAdmitted i k) := by
  unfold State.ifAdmitted
  rw [apply_ite (scaled v), hk]
  rfl

theorem raiseFault_withScale (s : State) (v : Word) (e : ErrCode) (x : Word) :
    (s.withScale v).raiseFault e x = (s.raiseFault e x).withScale v := by
  cases h : s.status.err <;> simp [State.raiseFault, State.withScale, State.setWorker, State.worker, h]

theorem withBus_withScale (s : State) (v : Word) (l : List (Nat × Nat)) (k k' : Out) (hk : k' = scaled v k) :
    (s.withScale v).withBus l k' = scaled v (s.withBus l k) := by
  unfold State.withBus
  rw [show (s.withScale v).params = s.params from rfl]
  cases s.params.firstInvalid l with
  | none => exact hk
  | some a => exact congrArg _ (raiseFault_withScale s v _ _)

theorem withAccess_withScale (s : State) (v : Word) (acc : List Access) (k k' : State → Out)
    (hk : ∀ t, k' (t.withScale v) = scaled v (k t)) :
    (s.withScale v).withAccess acc k' = scaled v (s.withAccess acc k) := by
  unfold State.withAccess
  rw [apply_ite (scaled v), ← hk]
  rfl

theorem withWord_withScale (s : State) (v : Word) (a : Nat) (k k' : Word → Out) (hk : ∀ w, k' w = scaled v (k w)) :
    (s.withScale v).withWord a k' = scaled v (s.withWord a k) := by
  unfold State.withWord
  rw [show (s.withScale v).mem = s.mem from rfl]
  cases Memory.readWord s.mem a with
  | none => rfl
  | some w => exact hk w

theorem withHalf_withScale (s : State) (v : Word) (a : Nat) (k k' : Nat → Out) (hk : ∀ h, k' h = scaled v (k h)) :
    (s.withScale v).withHalf a k' = scaled v (s.withHalf a k) := by
  unfold State.withHalf
  rw [show (s.withScale v).mem = s.mem from rfl]
  cases Memory.readHalf s.mem a with
  | none => rfl
  | some h => exact hk h

/-! ### The operations -/

theorem execBfly_withScale (s : State) (v : Word) (a b ic : Half) :
    execBfly a b ic (s.withScale v) = scaled v (execBfly a b ic s) :=
  ifAdmitted_withScale s v _ _ _ <| withBus_withScale s v _ _ _ <| withAccess_withScale s v _ _ _ fun t =>
    withWord_withScale t v _ _ _ fun _ => withWord_withScale t v _ _ _ fun _ => withWord_withScale t v _ _ _ fun _ => rfl

theorem execBflyn_withScale (s : State) (v : Word) (a b : Half) :
    execBflyn a b (s.withScale v) = scaled v (execBflyn a b s) :=
  ifAdmitted_withScale s v _ _ _ <| withBus_withScale s v _ _ _ <| withAccess_withScale s v _ _ _ fun t =>
    withWord_withScale t v _ _ _ fun _ => withWord_withScale t v _ _ _ fun _ => rfl

theorem execSwpt_withScale (s : State) (v : Word) (p : Half) : execSwpt p (s.withScale v) = scaled v (execSwpt p s) := by
  refine ifAdmitted_withScale s v _ _ _ <| withBus_withScale s v _ _ _ <| withAccess_withScale s v _ _ _ fun t =>
    withHalf_withScale t v _ _ _ fun a => withHalf_withScale t v _ _ _ fun b => ?_
  rw [show (t.withScale v).fftN = t.fftN from rfl]
  by_cases ha : a ≥ t.fftN
  · simp only [if_pos ha]
    exact congrArg _ (raiseFault_withScale t v _ _)
  by_cases hb : b ≥ t.fftN
  · simp only [if_neg ha, if_pos hb]
    exact congrArg _ (raiseFault_withScale t v _ _)
  simp only [if_neg ha, if_neg hb]
  exact withBus_withScale t v _ _ _ <| withAccess_withScale t v _ _ _ fun u =>
    withWord_withScale u v _ _ _ fun _ => withWord_withScale u v _ _ _ fun _ => rfl

/-- `check_config()` does not read `SCALE` (45_launcher_and_host_commands.md R224), nor does the rest of `START`. -/
theorem execStart_withScale (s : State) (v : Word) : execStart (s.withScale v) = scaled v (execStart s) := by
  unfold execStart
  rw [apply_ite (scaled v), apply_ite (scaled v)]
  have hc : configError (s.withScale v).acceptStart.params (s.withScale v).acceptStart.regs =
    configError s.acceptStart.params s.acceptStart.regs := rfl
  simp only [hc]
  cases configError s.acceptStart.params s.acceptStart.regs with
  | some x => rfl
  | none =>
    simp only [apply_ite (scaled v)]
    rfl

/-- No operation reads or writes `SCALE`. -/
theorem exec_withScale (i : Instr) (s : State) (v : Word) : exec i (s.withScale v) = scaled v (exec i s) := by
  have ite_next : ∀ (c : Bool) (x y : State), (if c then .next (x.withScale v) else .next (y.withScale v) : Out) =
      scaled v (if c then .next x else .next y) := by
    intro c x y
    cases c <;> rfl
  cases i with
  | bfly a b ic => exact execBfly_withScale s v a b ic
  | bflyn a b => exact execBflyn_withScale s v a b
  | bar => exact ite_next s.releaseEnabled s.release s
  | swpt p => exact execSwpt_withScale s v p
  | endOp => rfl
  | nop => exact ite_next s.status.busy s.setOvr s
  | start => exact execStart_withScale s v
  | clear => exact ite_next s.status.busy s.setOvr s.clearStatus
  | reservedCmd3 => exact ite_next s.status.busy s.setOvr s

/-! ### The turns -/

/-- A register write leaves `SCALE` alone or puts the same value there from whatever value it held. -/
theorem writeReg_withScale (s : State) (v : Word) (r : HostReg) (w : Word) :
    ∃ x, (s.withScale v).writeReg r w = (s.writeReg r w).withScale x := by
  have locked : ∀ q : Regs → Regs, (∀ q0, ∃ x, q { q0 with scale := v } = { q q0 with scale := x }) →
      ∃ x, (s.withScale v).lockedWrite (q (s.withScale v).regs) = (s.lockedWrite (q s.regs)).withScale x := by
    intro q hq
    obtain ⟨x, hx⟩ := hq s.regs
    cases hb : s.status.busy
    · refine ⟨x, ?_⟩
      rw [State.lockedWrite_idle s _ hb, State.lockedWrite_idle (s.withScale v) _ hb]
      exact congrArg (fun q => { s with regs := q }) hx
    · refine ⟨v, ?_⟩
      rw [State.lockedWrite_busy s _ hb, State.lockedWrite_busy (s.withScale v) _ hb]
      rfl
  cases r with
  | cap => exact ⟨v, rfl⟩
  | fftLen => exact locked (fun q => { q with fftLen := w }) fun _ => ⟨v, rfl⟩
  | twidBase => exact locked (fun q => { q with twidBase := w }) fun _ => ⟨v, rfl⟩
  | twidLen => exact locked (fun q => { q with twidLen := w }) fun _ => ⟨v, rfl⟩
  | brevBase => exact locked (fun q => { q with brevBase := w }) fun _ => ⟨v, rfl⟩
  | brevLen => exact locked (fun q => { q with brevLen := w }) fun _ => ⟨v, rfl⟩
  | bufBase => exact locked (fun q => { q with bufBase := w }) fun _ => ⟨v, rfl⟩
  | bufLen => exact locked (fun q => { q with bufLen := w }) fun _ => ⟨v, rfl⟩
  | flags => exact locked (fun q => { q with inv := w.getLsbD 0, brev := w.getLsbD 1 }) fun _ => ⟨v, rfl⟩
  | scale => exact locked (fun q => { q with scale := w }) fun _ => ⟨w, rfl⟩
  | ncores => exact locked (fun q => { q with ncores := w }) fun _ => ⟨v, rfl⟩
  | ctrl => exact ⟨v, rfl⟩
  | cmd => exact ⟨v, rfl⟩
  | status => exact ⟨v, rfl⟩
  | errInfo => exact ⟨v, rfl⟩

theorem hostWrite_withScale (s : State) (v : Word) (addr : Word) (n : Nat) (w : Word) (ctx : Bool) :
    ∃ x, (s.withScale v).hostWrite addr n w ctx = scaled x (s.hostWrite addr n w ctx) := by
  unfold State.hostWrite State.withOffset
  rw [show (s.withScale v).params = s.params from rfl]
  split
  · split
    · dsimp only
      split
      · exact ⟨v, exec_withScale _ { s with ctx := ctx } v⟩
      · obtain ⟨x, hx⟩ := writeReg_withScale s v _ w
        exact ⟨x, congrArg _ hx⟩
      · exact ⟨v, rfl⟩
    · exact ⟨v, rfl⟩
  · exact ⟨v, rfl⟩

theorem runWord_withScale (s : State) (v : Word) (c : Nat) (w : UWord) :
    (s.withScale v).runWord c w = scaled v (s.runWord c w) := by
  unfold State.runWord
  cases decode (.u w) with
  | ok i => exact exec_withScale i { s with cur := c, trace := s.trace ++ [(c, w)] } v
  | error => rfl

theorem workerTurn_withScale (s : State) (v : Word) (c : Nat) :
    (s.withScale v).workerTurn c = scaled v (s.workerTurn c) := by
  unfold State.workerTurn
  rw [show (s.withScale v).issued c = s.issued c from rfl]
  rcases s.issued c with _ | (w | w)
  · rfl
  · dsimp only
    rw [apply_ite (scaled v), runWord_withScale]
    rfl
  · rfl

/-- Every turn but a register read. -/
theorem takeTurn_withScale (s : State) (v : Word) (turn : Turn) (h : ∀ a n, turn ≠ .regRead a n) :
    ∃ x, takeTurn turn (s.withScale v) = scaled x (takeTurn turn s) := by
  cases turn with
  | regRead a n => exact absurd rfl (h a n)
  | regWrite addr n w ctx => exact hostWrite_withScale s v addr n w ctx
  | memRead addr =>
    refine ⟨v, ?_⟩
    change (s.withScale v).hostMemRead addr = scaled v (s.hostMemRead addr)
    unfold State.hostMemRead
    rw [apply_ite (scaled v)]
    rw [show (s.withScale v).mem = s.mem from rfl]
    cases Memory.read s.mem addr.toNat <;> rfl
  | memWrite addr b =>
    refine ⟨v, ?_⟩
    change (s.withScale v).hostMemWrite addr b = scaled v (s.hostMemWrite addr b)
    unfold State.hostMemWrite
    rw [apply_ite (scaled v)]
    rfl
  | reset => exact ⟨0, rfl⟩
  | worker c => exact ⟨v, workerTurn_withScale s v c⟩
  | release => exact ⟨v, exec_withScale .bar s v⟩
  | join =>
    refine ⟨v, ?_⟩
    change (s.withScale v).joinTurn = scaled v s.joinTurn
    unfold State.joinTurn
    rw [apply_ite (scaled v)]
    rfl
  | issue c w =>
    refine ⟨v, ?_⟩
    change (s.withScale v).issueTurn c w = scaled v (s.issueTurn c w)
    unfold State.issueTurn
    rw [apply_ite (scaled v), runWord_withScale]
    rfl

theorem popTurn_withScale (s : State) (v : Word) : (s.withScale v).popTurn = (s.popTurn.1, s.popTurn.2.withScale v) := by
  cases h : s.turns with
  | nil => rw [State.popTurn_nil s h, State.popTurn_nil (s.withScale v) h]; rfl
  | cons t rest => rw [State.popTurn_cons s t rest h, State.popTurn_cons (s.withScale v) t rest h]; rfl

/-- Settles O56: the same turn is taken, and it commutes with a change of `SCALE`. -/
theorem scaleHasNoEffect : Obligations.ScaleHasNoEffect := by
  intro s v h
  obtain ⟨x, hx⟩ := takeTurn_withScale s.popTurn.2 v _ h
  have hstep : step (s.withScale v) = scaled x (step s) := by
    rw [step, popTurn_withScale]
    exact hx
  cases hs : step s with
  | next t => exact ⟨x, hstep.trans (congrArg (scaled x) hs)⟩
  | fault r => exact hstep.trans (congrArg (scaled x) hs)
  | refused r => exact hstep.trans (congrArg (scaled x) hs)

end Sys2Proof.Machine

namespace Sys2Proof.Machine

open Sys2Proof

/-! ## The locked registers (10_state.md R40) and the words the host reads (R36, R39, R42) -/

/-- Offsets 0x04 to 0x28 are the configuration registers; a write of one while `BUSY` is turned into `OVR`. -/
theorem State.writeReg_locked (o : Nat) (h4 : o % 4 = 0) (hlo : 4 ≤ o) (hhi : o ≤ 0x28) :
    ∃ r, HostReg.ofOffset o = some r ∧ r ≠ .cmd ∧
      ∀ (s : State) (v : Word), s.status.busy = true → s.writeReg r v = s.setOvr := by
  obtain ⟨k, rfl⟩ : ∃ k, o = 4 * k := ⟨o / 4, by omega⟩
  obtain ⟨h1, h10⟩ : 1 ≤ k ∧ k ≤ 10 := by omega
  interval_cases k <;> exact ⟨_, rfl, by decide, fun s v hb => s.lockedWrite_busy _ hb⟩

/-- A write of a register other than `CMD` (R233). -/
theorem State.hostWrite_reg (s : State) (o : Nat) (v : Word) (ctx : Bool) (r : HostReg) (h4 : o % 4 = 0) (hlt : o < 64)
    (hr : HostReg.ofOffset o = some r) (hc : r ≠ .cmd) :
    s.hostWrite (s.params.regAddr o) 4 v ctx = .next (s.writeReg r v) := by
  rw [State.hostWrite, s.withOffset_regAddr o _ hlt h4, hr]
  cases r with
  | cmd => exact absurd rfl hc
  | _ => rfl

/-- Settles O35: the offset names a locked register. -/
theorem configurationLockedWhileBusy : Obligations.ConfigurationLockedWhileBusy := by
  intro s o v ctx h4 hlo hhi hb
  obtain ⟨r, hr, hc, hw⟩ := State.writeReg_locked o h4 hlo hhi
  exact (s.hostWrite_reg o v ctx r h4 (by omega) hr hc).trans (by rw [hw s v hb]; rfl)

/-- The high part of a concatenation weighs `2 ^ w`. -/
theorem toNat_append_add {n w : Nat} (x : BitVec n) (y : BitVec w) : (x ++ y).toNat = 2 ^ w * x.toNat + y.toNat := by
  rw [BitVec.toNat_append, ← Nat.shiftLeft_add_eq_or_of_lt y.isLt, Nat.shiftLeft_eq, Nat.mul_comm]

/-- Where the fields of `STATUS` stand (R42). -/
theorem Status.toNat_toWord (t : Status) :
    t.toWord.toNat = t.busy.toNat + 2 * t.done.toNat + 4 * t.err.toNat + 8 * t.unsup.toNat + 16 * t.invnop.toNat +
      32 * t.ovr.toNat + 256 * t.errCode.code.toNat + 65536 * t.errWorker.toNat := by
  simp only [Status.toWord, toNat_append_add, BitVec.toNat_ofBool, BitVec.toNat_ofNat]
  omega

theorem Regs.toNat_flagsWord (r : Regs) : r.flagsWord.toNat = r.inv.toNat + 2 * r.brev.toNat := by
  simp only [Regs.flagsWord, toNat_append_add, BitVec.toNat_ofBool, BitVec.toNat_ofNat]
  omega

theorem Regs.toNat_ctrlWord (r : Regs) : r.ctrlWord.toNat = r.ie.toNat := by
  simp only [Regs.ctrlWord, toNat_append_add, BitVec.toNat_ofBool, BitVec.toNat_ofNat]
  omega

/-- Settles O37: the layout of each of the three words, and the table of 60_exceptions.md R271. -/
theorem statusWordLayout : Obligations.StatusWordLayout := fun s =>
  ⟨s.status.toNat_toWord, s.regs.toNat_flagsWord, s.regs.toNat_ctrlWord, rfl, rfl, rfl, rfl, rfl, rfl, rfl, rfl, rfl⟩

end Sys2Proof.Machine

namespace Sys2Proof.Machine

open Sys2Proof

/-! ## Little-endian memory and the register window (20_memory.md R62, R76) -/

/-- A read is the sum of its bytes, each times its power of 256 (R62). -/
theorem Memory.readN_eq_sum (n : Nat) : ∀ (m : Memory) (a : Nat) (f : Nat → Byte),
    (∀ i, i < n → Memory.read m (a + i) = some (f i)) →
    Memory.readN m a n = some (∑ i ∈ Finset.range n, (f i).toNat * 256 ^ i) := by
  induction n with
  | zero => intro m a f _; rfl
  | succ n ih =>
    intro m a f h
    have hfirst : Memory.read m a = some (f 0) := h 0 (by omega)
    have hrest := ih m (a + 1) (fun i => f (i + 1)) fun i hi => by
      rw [Nat.add_assoc, Nat.add_comm 1]
      exact h (i + 1) (by omega)
    simp only [Memory.readN, hfirst, hrest]
    rw [Finset.sum_range_succ', Finset.mul_sum, pow_zero, Nat.mul_one, Nat.add_comm]
    simp only [pow_succ', Nat.mul_left_comm 256]

/-- Settles O12: a store byte by byte, a read as the sum of its bytes, and the one after the other. -/
theorem memoryIsLittleEndian : Obligations.MemoryIsLittleEndian := fun m a n v f =>
  ⟨Memory.read_writeN_inside n m a v, Memory.read_writeN_outside n m a v, Memory.readN_eq_sum n m a f,
    Memory.readN_writeN_self n m a v⟩

/-- Settles O39: both register turns go through `withOffset`, which refuses before the access is made. -/
theorem oddRegisterAccessRefused : Obligations.OddRegisterAccessRefused := by
  intro s o n v ctx ho hn h4
  constructor
  · change s.hostRead _ n = _
    rw [State.hostRead, s.withOffset_odd o n _ ho hn h4]
  · change s.hostWrite _ n v ctx = _
    rw [State.hostWrite, s.withOffset_odd o n _ ho hn h4]

end Sys2Proof.Machine

namespace Sys2Proof.Machine

open Sys2Proof

/-! ## What the guards of a micro-op do where their check passes -/

theorem State.ifAdmitted_pos (s : State) (i : Instr) (k : Out)
    (h : i.admitted s.regs.fftLen.toNat s.regs.brevLen.toNat = true) : s.ifAdmitted i k = k := if_pos h

theorem State.withBus_valid (s : State) (l : List (Nat × Nat)) (k : Out)
    (h : ∀ x ∈ l, s.params.memValid x.1 x.2 = true) : s.withBus l k = k := by
  rw [State.withBus, (Params.firstInvalid_none _ _).mpr h]

theorem State.withAccess_race (s : State) (acc : List Access) (k : State → Out) (h : s.races acc = true) :
    s.withAccess acc k = .fault (.race s.cur) := if_pos h

theorem State.withAccess_clear (s : State) (acc : List Access) (k : State → Out) (h : s.races acc = false) :
    s.withAccess acc k = k { s with log := acc ++ s.log } := by
  rw [State.withAccess, h]
  rfl

theorem State.withHalf_some (s : State) (a x : Nat) (k : Nat → Out) (h : Memory.readHalf s.mem a = some x) :
    s.withHalf a k = k x := by
  rw [State.withHalf, h]

/-! ## A conflict stops the micro-op (20_memory.md R71, R72) -/

/-- A byte that one of worker `cur`'s accesses shares with another worker's of the epoch, one of the two a write. -/
theorem State.races_of_shared_byte (s : State) (acc : List Access) (z l : Access) (k : Nat) (hz : z ∈ acc)
    (hown : z.worker = s.cur) (hl : l ∈ s.log) (hne : l.worker ≠ s.cur) (hw : z.write = true ∨ l.write = true)
    (hzk : z.addr ≤ k ∧ k < z.addr + z.size) (hlk : l.addr ≤ k ∧ k < l.addr + l.size) : s.races acc = true := by
  have hconf : z.conflicts l = true :=
    (Access.conflicts_iff z l (by omega) (by omega)).2 ⟨by rw [hown]; exact hne.symm, hw, k, hzk, hlk⟩
  rw [State.races, Bool.or_eq_true]
  exact .inr (List.any_eq_true.2 ⟨z, hz, List.any_eq_true.2 ⟨l, hl, hconf⟩⟩)

/-- Settles O24: each list of accesses that holds `z` is a race, and what comes before the detector passes. -/
theorem conflictStopsTheRun : Obligations.ConflictStopsTheRun := by
  intro s a b ic p x y k z l n pa pb pw e0 e1 v hl hne hw hz1 hz2 hl1 hl2
  have race : ∀ (t : State) (acc : List Access), t.cur = s.cur → l ∈ t.log → (∀ q ∈ acc, q.worker = s.cur) →
      z ∈ acc → t.races acc = true := fun t acc hcur hlog hown hz =>
    t.races_of_shared_byte acc z l k hz (hcur ▸ hown z hz) hlog (hcur ▸ hne) hw ⟨hz1, hz2⟩ ⟨hl1, hl2⟩
  refine ⟨fun hadm ha hb hp hz => ?bfly, fun hadm ha hb hz => ?bflyn, fun hadm h0 h1 => ⟨fun hz => ?table, ?swap⟩⟩
  case bfly =>
    exact (s.ifAdmitted_pos _ _ (by simpa [Instr.admitted, and_assoc] using hadm)).trans <|
      (s.withBus_valid _ _ (by simpa using ⟨ha, hb, hp⟩)).trans <|
      s.withAccess_race _ _ (race s _ rfl hl (by simp [State.rd, State.wr]) hz)
  case bflyn =>
    exact (s.ifAdmitted_pos _ _ (by simpa [Instr.admitted, and_assoc] using hadm)).trans <|
      (s.withBus_valid _ _ (by simpa using ⟨ha, hb⟩)).trans <|
      s.withAccess_race _ _ (race s _ rfl hl (by simp [State.rd, State.wr]) hz)
  case table =>
    exact (s.ifAdmitted_pos _ _ (by simpa [Instr.admitted] using hadm)).trans <|
      (s.withBus_valid _ _ (by simpa using ⟨h0, h1⟩)).trans <|
      s.withAccess_race _ _ (race s _ rfl hl (by simp [State.rd]) hz)
  case swap =>
    intro hclear hx hy hxn hyn hvx hvy hz
    exact (s.ifAdmitted_pos _ _ (by simpa [Instr.admitted] using hadm)).trans <|
      (s.withBus_valid _ _ (by simpa using ⟨h0, h1⟩)).trans <|
      (s.withAccess_clear _ _ hclear).trans <|
      ((s.noted p).withHalf_some e0 x _ hx).trans <|
      ((s.noted p).withHalf_some e1 y _ hy).trans <|
      (if_neg (Nat.not_le.2 hxn)).trans <|
      (if_neg (Nat.not_le.2 hyn)).trans <|
      ((s.noted p).withBus_valid _ _ (by simpa using ⟨hvx, hvy⟩)).trans <|
      (s.noted p).withAccess_race _ _
        (race (s.noted p) _ rfl (List.mem_append_right _ hl) (by simp [State.rd, State.wr]) hz)

end Sys2Proof.Machine

namespace Sys2Proof.Machine

open Sys2Proof

/-! ## Which micro-ops the scheduler emits (42_stage_scheduler.md R163 to R168) -/

theorem idx_toNat (k : Nat) (h : k < 2 ^ 16) : (idx k).toNat = k := by
  rw [idx, BitVec.toNat_ofNat, Nat.mod_eq_of_lt h]

/-- The group size times the twiddle stride is `N` in every twiddle stage (R164). -/
theorem mem_twiddleStages_pow (n c p : Nat) (i : Instr) : ∀ fuel k q, 2 ^ (k + 1) * q = n →
    i ∈ twiddleStages n c p fuel (2 ^ (k + 1)) q →
    i = .bar ∨ ∃ e q, 2 * e * q = n ∧ i ∈ stageBody n (2 * e) q c p := by
  intro fuel
  induction fuel with
  | zero => intro k q _ h; simp [twiddleStages] at h
  | succ fuel ih =>
    intro k q hn h
    cases k with
    | zero => simp [twiddleStages_two] at h
    | succ k =>
      rw [twiddleStages_succ _ _ _ _ _ _ (by omega)] at h
      simp only [List.mem_cons, List.mem_append] at h
      have hnext : 2 ^ (k + 1) * (q * 2) = n := by rw [← hn, pow_succ 2 (k + 1)]; ring
      rcases h with h | h | h | h
      · exact .inl h
      · rw [pow_succ'] at h hn
        exact .inr ⟨_, q, hn, h⟩
      · exact .inl h
      · exact ih k (q * 2) hnext h

/-- The second sample of a butterfly in a stage with group size `d`, which divides `N`, lies below `N` (R163). -/
theorem groupStart_add_half_lt {d q j i0 : Nat} (hj : j < d / 2) (h : i0 ∈ groupStarts (d * q) d j) :
    i0 + d / 2 < d * q := by
  obtain ⟨t, ht, rfl⟩ := List.mem_range'.1 h
  have hq : ceilDiv (d * q - j) d ≤ q := by
    simpa [groupOps, groupStarts] using length_groupOps_le d q 0 j (by omega)
  have hmul : d * (t + 1) ≤ d * q := Nat.mul_le_mul_left d (by omega)
  rw [Nat.mul_succ] at hmul
  omega

/-- A twiddle stage with group size `2e` and stride `q`: its butterflies name samples below `N` and twiddle entries below
`N / 2` (30_encoding.md R105). -/
theorem admitted_of_mem_stageBody {e q c p l : Nat} {i : Instr} (hn : 2 * e * q ≤ 2 ^ 16)
    (h : i ∈ stageBody (2 * e * q) (2 * e) q c p) : i.admitted (2 * e * q) l = true := by
  obtain ⟨j, hj, h⟩ := (mem_stageBody _ _ _ _ _ _).1 h
  obtain ⟨i0, hi0, rfl⟩ := (mem_groupOps _ _ _ _ _).1 h
  have hj := lt_of_mem_owned hj
  have hb := groupStart_add_half_lt hj hi0
  have hhalf : 2 * e * q / 2 = q * e := by rw [Nat.mul_assoc, Nat.mul_div_cancel_left _ (by decide), Nat.mul_comm]
  have hq : 0 < q := Nat.pos_of_ne_zero (by rintro rfl; omega)
  have hic : q * j < q * e := Nat.mul_lt_mul_of_pos_left (by omega) hq
  simp only [Instr.admitted, Bool.and_eq_true, decide_eq_true_eq, hhalf]
  rw [idx_toNat i0 (by omega), idx_toNat (i0 + 2 * e / 2) (by omega), idx_toNat (q * j) (by omega)]
  omega

theorem admitted_of_mem_finalBody {n c p l : Nat} {i : Instr} (hn : n ≤ 2 ^ 16) (h : i ∈ finalBody n c p) :
    i.admitted n l = true := by
  obtain ⟨k, hk, rfl⟩ := (mem_finalBody _ _ _ _).1 h
  have hk := lt_of_mem_owned hk
  simp only [Instr.admitted, Bool.and_eq_true, decide_eq_true_eq, beq_iff_eq]
  rw [idx_toNat (2 * k) (by omega), idx_toNat (2 * k + 1) (by omega)]
  omega

theorem admitted_of_mem_brevBody {brev : Bool} {n l c p : Nat} {i : Instr} (hl : brev = true → l ≤ 2 ^ 16)
    (h : i ∈ brevBody brev l c p) : i.admitted n l = true := by
  obtain ⟨hb, k, hk, rfl⟩ := (mem_brevBody _ _ _ _ _).1 h
  have hk := lt_of_mem_owned hk
  have hl := hl hb
  simp only [Instr.admitted, decide_eq_true_eq]
  rw [idx_toNat k (by omega)]
  omega

/-- Every micro-op of `prog(c)` is admitted (30_encoding.md R105, R166). -/
theorem admitted_of_mem_prog (m p l c : Nat) (brev : Bool) (i : Instr) (hn : 2 ^ (m + 1) ≤ 2 ^ 16)
    (hl : brev = true → l ≤ 2 ^ 16) (h : i ∈ prog (2 ^ (m + 1)) p brev l c) : i.admitted (2 ^ (m + 1)) l = true := by
  simp only [prog, List.mem_append, List.mem_cons, List.not_mem_nil, or_false] at h
  rcases h with h | rfl | h | rfl | h | rfl
  · rcases mem_twiddleStages_pow _ c p i _ m 1 (Nat.mul_one _) h with rfl | ⟨e, q, he, h⟩
    · rfl
    · rw [← he] at hn h ⊢
      exact admitted_of_mem_stageBody hn h
  · rfl
  · exact admitted_of_mem_finalBody hn h
  · rfl
  · exact admitted_of_mem_brevBody hl h
  · rfl

/-- `SWPT` is emitted with `FLAGS.BREV = 1` alone (R168). -/
theorem brev_of_swpt_mem_prog (n p l c : Nat) (brev : Bool) (k : Half) (h : .swpt k ∈ prog n p brev l c) :
    brev = true := by
  simp only [prog, List.mem_append, List.mem_cons, List.not_mem_nil, or_false, reduceCtorEq, false_or] at h
  rcases h with h | h | h
  · rcases mem_twiddleStages n c p _ _ _ _ h with h | ⟨_, _, h⟩
    · cases h
    · obtain ⟨_, -, h⟩ := (mem_stageBody _ _ _ _ _ _).1 h
      obtain ⟨_, -, h⟩ := (mem_groupOps _ _ _ _ _).1 h
      cases h
  · obtain ⟨_, -, h⟩ := (mem_finalBody _ _ _ _).1 h
    cases h
  · exact ((mem_brevBody _ _ _ _ _).1 h).1

/-- In a running invocation the scheduler hands out admitted micro-ops only (R166). -/
theorem Inv.admitted_nextOp {s : State} (h : Inv s) (hb : s.status.busy = true) (c : Nat) (i : Instr)
    (hi : s.nextOp c = some i) : i.admitted s.regs.fftLen.toNat s.regs.brevLen.toNat = true := by
  obtain ⟨⟨h4, hmax, k, hk⟩, -, -, -, hbrev, -⟩ := (configError_none_iff _ _).mp (h.config hb).1
  have hp := h.params
  simp only [Params.legal, Bool.and_eq_true, decide_eq_true_eq] at hp
  have hmax16 : 2 ^ s.params.maxLog ≤ 2 ^ 16 := Nat.pow_le_pow_right (by decide) (by omega)
  have hn : s.regs.fftLen.toNat ≤ 2 ^ 16 := hmax.trans hmax16
  have hmem := List.mem_of_getElem? hi
  cases k with
  | zero => omega
  | succ m =>
    rw [State.prog, State.fftN, hk] at hmem
    rw [hk] at hn hbrev ⊢
    exact admitted_of_mem_prog m _ _ c _ i hn (fun e => (hbrev e).2.trans hn) hmem

/-! ## Which guards refuse: neither the bus check nor the detector, and a read only where a byte holds no value -/

theorem State.withBus_refused (s : State) (l : List (Nat × Nat)) (k : Out) (r : Refusal)
    (h : s.withBus l k = .refused r) : k = .refused r := by
  unfold State.withBus at h
  split at h
  · cases h
  · exact h

theorem State.withAccess_refused (s : State) (acc : List Access) (k : State → Out) (r : Refusal)
    (h : s.withAccess acc k = .refused r) : k { s with log := acc ++ s.log } = .refused r := by
  unfold State.withAccess at h
  split at h
  · cases h
  · exact h

theorem State.withWord_refused (s : State) (a : Nat) (k : Word → Out) (r : Refusal)
    (hd : (Memory.readWord s.mem a).isSome) (h : s.withWord a k = .refused r) : ∃ w, k w = .refused r := by
  obtain ⟨w, hw⟩ := Option.isSome_iff_exists.mp hd
  rw [State.withWord, hw] at h
  exact ⟨w, h⟩

theorem State.withHalf_refused (s : State) (a : Nat) (k : Nat → Out) (r : Refusal)
    (hd : (Memory.readHalf s.mem a).isSome) (h : s.withHalf a k = .refused r) : ∃ x, k x = .refused r := by
  obtain ⟨x, hx⟩ := Option.isSome_iff_exists.mp hd
  rw [State.withHalf, hx] at h
  exact ⟨x, h⟩

/-! ## What the launch premise makes readable (20_memory.md R80) -/

theorem Memory.defined.readN {m : Memory} {a n : Nat} (h : Memory.defined m a n) (b k : Nat) (hlo : a ≤ b)
    (hhi : b + k ≤ a + n) : (Memory.readN m b k).isSome := by
  refine Memory.readN_isSome k m b fun i hi => ?_
  have hbyte := h (b + i - a) (by omega)
  rwa [show a + (b + i - a) = b + i by omega] at hbyte

theorem State.launchPremise.sample {s : State} (h : s.launchPremise) (k : Nat) (hk : k < s.fftN) :
    (Memory.readWord s.mem (s.samplePtr k)).isSome := by
  obtain ⟨hbuf, -, -⟩ := h
  rw [Memory.readWord, Option.isSome_map]
  exact hbuf.readN _ 4 (by unfold State.samplePtr; omega) (by unfold State.samplePtr; omega)

theorem State.launchPremise.twiddle {s : State} (h : s.launchPremise) (ic : Nat) (hic : ic < s.fftN / 2) :
    (Memory.readWord s.mem (s.twidPtr ic)).isSome := by
  obtain ⟨-, htwid, -⟩ := h
  rw [Memory.readWord, Option.isSome_map]
  exact htwid.readN _ 4 (by unfold State.twidPtr; omega) (by unfold State.twidPtr; omega)

theorem State.launchPremise.entry {s : State} (h : s.launchPremise) (hb : s.regs.brev = true) (e : Nat)
    (he : e < s.regs.brevLen.toNat) : (Memory.readHalf s.mem (s.brevPtr e)).isSome := by
  obtain ⟨-, -, htable⟩ := h
  exact (htable hb).readN _ 2 (by unfold State.brevPtr; omega) (by unfold State.brevPtr; omega)

/-! ## An admitted micro-op under the launch premise is not refused -/

theorem execBfly_ne_refused (s : State) (a b ic : Half) (r : Refusal)
    (hadm : (Instr.bfly a b ic).admitted s.regs.fftLen.toNat s.regs.brevLen.toNat = true) (hm : s.launchPremise) :
    execBfly a b ic s ≠ .refused r := by
  intro h
  replace h := (s.ifAdmitted_pos _ _ hadm).symm.trans h
  simp only [Instr.admitted, Bool.and_eq_true, decide_eq_true_eq] at hadm
  obtain ⟨⟨hab, hb⟩, hic⟩ := hadm
  replace h := State.withAccess_refused _ _ _ _ (State.withBus_refused _ _ _ _ h)
  obtain ⟨_, h⟩ := State.withWord_refused _ _ _ _ (hm.sample a.toNat (hab.trans hb)) h
  obtain ⟨_, h⟩ := State.withWord_refused _ _ _ _ (hm.sample b.toNat hb) h
  obtain ⟨_, h⟩ := State.withWord_refused _ _ _ _ (hm.twiddle ic.toNat hic) h
  cases h

theorem execBflyn_ne_refused (s : State) (a b : Half) (r : Refusal)
    (hadm : (Instr.bflyn a b).admitted s.regs.fftLen.toNat s.regs.brevLen.toNat = true) (hm : s.launchPremise) :
    execBflyn a b s ≠ .refused r := by
  intro h
  replace h := (s.ifAdmitted_pos _ _ hadm).symm.trans h
  simp only [Instr.admitted, Bool.and_eq_true, decide_eq_true_eq, beq_iff_eq] at hadm
  obtain ⟨⟨-, hab⟩, hb⟩ := hadm
  replace h := State.withAccess_refused _ _ _ _ (State.withBus_refused _ _ _ _ h)
  obtain ⟨_, h⟩ := State.withWord_refused _ _ _ _ (hm.sample a.toNat (show a.toNat < s.regs.fftLen.toNat by omega)) h
  obtain ⟨_, h⟩ := State.withWord_refused _ _ _ _ (hm.sample b.toNat hb) h
  cases h

/-- The table entries hold values, and so do the samples they name once the index checks have passed
(44_bit_reversal_engine.md R208). -/
theorem execSwpt_ne_refused (s : State) (p : Half) (r : Refusal)
    (hadm : (Instr.swpt p).admitted s.regs.fftLen.toNat s.regs.brevLen.toNat = true) (hm : s.launchPremise)
    (hbrev : s.regs.brev = true) : execSwpt p s ≠ .refused r := by
  intro h
  replace h := (s.ifAdmitted_pos _ _ hadm).symm.trans h
  simp only [Instr.admitted, decide_eq_true_eq] at hadm
  replace h := State.withAccess_refused _ _ _ _ (State.withBus_refused _ _ _ _ h)
  obtain ⟨a, h⟩ := State.withHalf_refused _ _ _ _ (hm.entry hbrev (2 * p.toNat) (by omega)) h
  obtain ⟨b, h⟩ := State.withHalf_refused _ _ _ _ (hm.entry hbrev (2 * p.toNat + 1) hadm) h
  split at h
  · cases h
  rename_i ha
  split at h
  · cases h
  rename_i hb
  replace h := State.withAccess_refused _ _ _ _ (State.withBus_refused _ _ _ _ h)
  obtain ⟨_, h⟩ := State.withWord_refused _ _ _ _ (hm.sample a (Nat.lt_of_not_le ha)) h
  obtain ⟨_, h⟩ := State.withWord_refused _ _ _ _ (hm.sample b (Nat.lt_of_not_le hb)) h
  cases h

/-! ## The turns of the block's own agents -/

/-- Everything a worker's turn can do: it passes, or executes its next micro-op, which is not `BAR`
(45_launcher_and_host_commands.md R227). -/
theorem State.workerTurn_cases (s : State) (c : Nat) :
    s.workerTurn c = .next s ∨ ∃ i w, s.nextOp c = some i ∧ i ≠ .bar ∧
      s.workerTurn c = exec i { s with cur := c, trace := s.trace ++ [(c, w)] } := by
  by_cases hr : (s.worker c).ws = .run
  case neg => exact .inl (by rw [State.workerTurn, s.issued_none c hr])
  cases hi : s.nextOp c with
  | none => exact .inl (by rw [State.workerTurn, State.issued, if_pos hr, hi]; rfl)
  | some i =>
    by_cases hbar : i = .bar
    · subst hbar
      exact .inl (by rw [State.workerTurn, s.issued_run c _ hr hi]; rfl)
    · obtain ⟨w, hw⟩ : ∃ w, encode i = .u w := by
        have hu := s.isMicroOp_of_nextOp c i hi
        cases i <;> simp_all [encode, Instr.isMicroOp]
      have hne : w ≠ barWord := fun e => hbar ((encode_eq_barWord i).1 (e ▸ hw))
      refine .inr ⟨i, w, rfl, hbar, ?_⟩
      rw [State.workerTurn, s.issued_run c i hr hi, hw]
      dsimp only
      rw [if_neg hne, State.runWord, ← hw, decode_encode_op]

theorem Inv.workerTurn_ne_refused {s : State} (h : Inv s) (hb : s.status.busy = true) (hm : s.launchPremise) (c : Nat)
    (r : Refusal) : s.workerTurn c ≠ .refused r := by
  rcases s.workerTurn_cases c with e | ⟨i, w, hi, hbar, e⟩ <;> rw [e]
  · simp
  have hadm := h.admitted_nextOp hb c i hi
  have hmem := List.mem_of_getElem? hi
  cases i with
  | bfly a b ic => exact execBfly_ne_refused _ a b ic r hadm hm
  | bflyn a b => exact execBflyn_ne_refused _ a b r hadm hm
  | bar => exact absurd rfl hbar
  | swpt p => exact execSwpt_ne_refused _ p r hadm hm (brev_of_swpt_mem_prog _ _ _ c _ p hmem)
  | endOp => simp [exec, execEnd]
  | _ => exact absurd (s.isMicroOp_of_nextOp c _ hi) (by simp [Instr.isMicroOp])

/-- Settles O59: the scheduler's micro-ops are admitted and read defined bytes; the release and the join have no refusal. -/
theorem scheduledWorkIsNeverRefused : Obligations.ScheduledWorkIsNeverRefused := by
  intro s c r h hb hm
  refine ⟨h.workerTurn_ne_refused hb hm c r, ?release, ?join⟩
  case release =>
    change execBar s ≠ _
    unfold execBar
    split <;> simp
  case join =>
    change s.joinTurn ≠ _
    unfold State.joinTurn
    split <;> simp

end Sys2Proof.Machine

namespace Sys2Proof

open Sys2Proof.Machine

/-! ## Decoding against encoding (30_encoding.md R91 to R98) -/

/-- Settles O1: the word decodes to the operation, and its bytes decode as the word does. -/
theorem decodeEncodeRoundTrip : Obligations.DecodeEncodeRoundTrip := fun i =>
  ⟨decode_encode_op i, (decodeBytes_bytes _).trans (decode_encode_op i)⟩

/-- Settles O2: in each of the five forms the word is put together from its fields again. -/
theorem decodedMicroOpIsItsEncoding : Obligations.DecodedMicroOpIsItsEncoding := by
  intro w i h
  obtain ⟨hz, h⟩ := decodeU_eq_ok w i h
  refine Eq.trans ?_ (congrArg Code.u (encodeFields_fields w hz))
  rcases h with ⟨hop, rfl⟩ | ⟨hop, h2, rfl⟩ | ⟨hop, h2, h1, h0, rfl⟩ | ⟨hop, h2, h1, rfl⟩ | ⟨hop, h2, h1, h0, rfl⟩ <;>
    simp only [encode, *]

/-! ## Reserved words (30_encoding.md R98) -/

/-- What R98 leaves to a word that decodes: a defined `op`, and zero in every field its format does not use. -/
theorem fields_of_decodeU_eq_ok {w : UWord} {i : Instr} (h : decodeU w = .ok i) :
    (1 ≤ (opField w).toNat ∧ (opField w).toNat ≤ 5) ∧ zField w = 0 ∧
      (f2Field w ≠ 0 → (opField w).toNat = 1) ∧
      (f1Field w ≠ 0 → (opField w).toNat = 1 ∨ (opField w).toNat = 2) ∧
      (f0Field w ≠ 0 → (opField w).toNat ≠ 3 ∧ (opField w).toNat ≠ 5) := by
  obtain ⟨hz, h⟩ := decodeU_eq_ok w i h
  rcases h with ⟨hop, -⟩ | ⟨hop, h2, -⟩ | ⟨hop, h2, h1, h0, -⟩ | ⟨hop, h2, h1, -⟩ | ⟨hop, h2, h1, h0, -⟩ <;>
    simp [*]

/-- Settles O4: a word that decodes meets none of the conditions, and the word of `BAR` decodes. -/
theorem reservedMicroOpsRefused : Obligations.ReservedMicroOpsRefused := by
  intro w s c hres
  obtain ⟨e, he⟩ : ∃ e, decode (.u w) = .error e := by
    cases h : decode (.u w) with
    | error e => exact ⟨e, rfl⟩
    | ok i =>
      obtain ⟨⟨hlo, hhi⟩, hz, h2, h1, h0⟩ := fields_of_decodeU_eq_ok h
      rcases hres with hr | hr | hr | ⟨hf, hr⟩ | ⟨hf, hr⟩ | ⟨hf, hr⟩
      · omega
      · omega
      · exact absurd hz hr
      · exact absurd (h2 hf) hr
      · have := h1 hf
        omega
      · have := h0 hf
        omega
  have hrun : s.runWord c w = .refused .reservedMicroOp := by rw [State.runWord, he]
  have hbar : w ≠ barWord := by
    rintro rfl
    cases (decode_encode_op .bar).symm.trans he
  exact ⟨hrun, fun j hr hj ha => (if_pos ⟨(s.takesWord_iff c).2 ⟨hr, j, hj, ha⟩, hbar⟩).trans hrun⟩

/-! ## Commands (30_encoding.md R99, R100) -/

/-- Settles O5: the decoder reads the residue of the command modulo 4. -/
theorem commandCodeIsTwoBits : Obligations.CommandCodeIsTwoBits := by
  intro v
  have hcode : (v.extractLsb' 0 2).toNat = v.toNat % 4 := by simp
  refine ⟨fun h => ?_, fun h => ?_, fun h => ?_, fun h => ?_⟩ <;> simp only [decodeC, hcode, h]

/-- Settles O6: the decoder computes each. -/
theorem specWordsDecode : Obligations.SpecWordsDecode :=
  ⟨rfl, rfl, rfl, rfl, rfl, rfl, rfl, rfl, rfl⟩

/-! ## The opcode table (30_encoding.md R93 to R97, R100, R101) -/

/-- The words that decode to an operation with the property `P`, by field. -/
theorem exists_decode_eq_ok_iff (w : UWord) (P : Instr → Prop) :
    (∃ i, decode (.u w) = .ok i ∧ P i) ↔ zField w = 0 ∧
      ((opField w = 1 ∧ P (.bfly (f0Field w) (f1Field w) (f2Field w))) ∨
       (opField w = 2 ∧ f2Field w = 0 ∧ P (.bflyn (f0Field w) (f1Field w))) ∨
       (opField w = 3 ∧ f2Field w = 0 ∧ f1Field w = 0 ∧ f0Field w = 0 ∧ P .bar) ∨
       (opField w = 4 ∧ f2Field w = 0 ∧ f1Field w = 0 ∧ P (.swpt (f0Field w))) ∨
       (opField w = 5 ∧ f2Field w = 0 ∧ f1Field w = 0 ∧ f0Field w = 0 ∧ P .endOp)) := by
  constructor
  · rintro ⟨i, h, hP⟩
    obtain ⟨hz, h⟩ := decodeU_eq_ok w i h
    refine ⟨hz, ?_⟩
    rcases h with ⟨_, rfl⟩ | ⟨_, _, rfl⟩ | ⟨_, _, _, _, rfl⟩ | ⟨_, _, _, rfl⟩ | ⟨_, _, _, _, rfl⟩ <;> simp [*]
  · rintro ⟨hz, h⟩
    rcases h with ⟨_, hP⟩ | ⟨_, _, hP⟩ | ⟨_, _, _, _, hP⟩ | ⟨_, _, _, hP⟩ | ⟨_, _, _, _, hP⟩ <;>
      exact ⟨_, by simp [decode, decodeU, *], hP⟩

/-- A mask of the upper bits, from bit `k` on, compares the number those bits stand for. -/
theorem and_upperMask_iff {n : Nat} (w : BitVec n) (k q mask pattern : Nat) (hk : k ≤ n)
    (hmask : mask = (2 ^ (n - k) - 1) <<< k) (hpattern : pattern = q <<< k) :
    w.toNat &&& mask = pattern ↔ w.toNat / 2 ^ k = q := by
  have hlt : w.toNat >>> k < 2 ^ (n - k) := by
    rw [Nat.shiftRight_eq_div_pow, Nat.div_lt_iff_lt_mul (by positivity), ← pow_add, Nat.sub_add_cancel hk]
    exact w.isLt
  have hand : w.toNat &&& mask = (w.toNat >>> k) <<< k := by
    rw [hmask, ← Nat.mod_eq_of_lt hlt, ← Nat.and_two_pow_sub_one_eq_mod]
    apply Nat.eq_of_testBit_eq
    intro i
    by_cases hi : k ≤ i <;> simp [Nat.testBit_shiftLeft, hi, Bool.and_comm]
  rw [hand, hpattern, Nat.shiftLeft_eq, Nat.shiftLeft_eq, Nat.mul_left_inj (by positivity), Nat.shiftRight_eq_div_pow]

/-- The fields of a format-U word as numbers (R91). -/
theorem fields_toNat (w : UWord) :
    (opField w).toNat = w.toNat / 2 ^ 60 ∧ (zField w).toNat = w.toNat / 2 ^ 48 % 2 ^ 12 ∧
      (f2Field w).toNat = w.toNat / 2 ^ 32 % 2 ^ 16 ∧ (f1Field w).toNat = w.toNat / 2 ^ 16 % 2 ^ 16 ∧
      (f0Field w).toNat = w.toNat % 2 ^ 16 := by
  have hw := w.isLt
  simp [opField, zField, f2Field, f1Field, f0Field, Nat.shiftRight_eq_div_pow]
  omega

/-- The format-U rows: each mask takes in the fields that the row's format fixes. -/
theorem decode_u_follows_opcodeRows (w : UWord) : ∀ row ∈ opcodeRows, row.width = 64 →
    (w.toNat &&& row.mask = row.pattern ↔ ∃ i, decode (.u w) = .ok i ∧ i.mnemonic = row.mnemonic) := by
  obtain ⟨hop, hz, h2, h1, h0⟩ := fields_toNat w
  have hw := w.isLt
  simp only [exists_decode_eq_ok_iff, Instr.mnemonic, ← BitVec.toNat_inj, hop, hz, h2, h1, h0]
  simp only [opcodeRows, List.forall_mem_cons, forall_const]
  refine ⟨(and_upperMask_iff w 48 0x1000 _ _ (by decide) rfl rfl).trans ?bfly,
    (and_upperMask_iff w 32 0x20000000 _ _ (by decide) rfl rfl).trans ?bflyn,
    (and_upperMask_iff w 0 0x3000000000000000 _ _ (by decide) rfl rfl).trans ?bar,
    (and_upperMask_iff w 16 0x400000000000 _ _ (by decide) rfl rfl).trans ?swpt,
    (and_upperMask_iff w 0 0x5000000000000000 _ _ (by decide) rfl rfl).trans ?endOp, by simp⟩
  all_goals
    simp
    omega

/-- The format-C rows: the mask takes in the command code, bits 1:0 (R100, R101). -/
theorem decode_c_follows_opcodeRows (w : Word) : ∀ row ∈ opcodeRows, row.width = 32 →
    (w.toNat &&& row.mask = row.pattern ↔ ∃ i, decode (.c w) = .ok i ∧ i.mnemonic = row.mnemonic) := by
  obtain ⟨h0, h1, h2, h3⟩ := commandCodeIsTwoBits w
  have hmask : w.toNat &&& 3 = w.toNat % 4 := Nat.and_two_pow_sub_one_eq_mod _ 2
  have hdec : decode (.c w) = .ok (decodeC w) := rfl
  have hres : w.toNat % 4 = 0 ∨ w.toNat % 4 = 1 ∨ w.toNat % 4 = 2 ∨ w.toNat % 4 = 3 := by omega
  rcases hres with h | h | h | h
  · simp [opcodeRows, hmask, hdec, h0 h, h, Instr.mnemonic]
  · simp [opcodeRows, hmask, hdec, h1 h, h, Instr.mnemonic]
  · simp [opcodeRows, hmask, hdec, h2 h, h, Instr.mnemonic]
  · simp [opcodeRows, hmask, hdec, h3 h, h, Instr.mnemonic]

/-- Settles O3: the rows of each format. -/
theorem decoderFollowsOpcodeTable : Obligations.DecoderFollowsOpcodeTable := fun row hrow =>
  ⟨fun hw w => decode_u_follows_opcodeRows w row hrow hw, fun hw w => decode_c_follows_opcodeRows w row hrow hw⟩

end Sys2Proof

namespace Sys2Proof.Machine

open Sys2Proof

/-! ## What is admitted (30_encoding.md R105, 41_butterfly_unit.md R144) -/

theorem State.ifAdmitted_neg (s : State) (i : Instr) (k : Out)
    (h : ¬ i.admitted s.regs.fftLen.toNat s.regs.brevLen.toNat = true) :
    s.ifAdmitted i k = .refused .notAdmitted := if_neg h

/-- A memory micro-op outside the admitted forms is refused in every state. -/
theorem exec_of_not_admitted (s : State) (i : Instr) (hi : i.accessesMemory = true)
    (h : ¬ i.admitted s.regs.fftLen.toNat s.regs.brevLen.toNat = true) : exec i s = .refused .notAdmitted := by
  cases i with
  | bfly a b ic => exact s.ifAdmitted_neg _ _ h
  | bflyn a b => exact s.ifAdmitted_neg _ _ h
  | swpt p => exact s.ifAdmitted_neg _ _ h
  | _ => cases hi

/-- Settles O23: `a < a` and `a = a + 1` are false, so the aliased forms are outside R105 like the others. -/
theorem unadmittedMicroOpsRefused : Obligations.UnadmittedMicroOpsRefused := by
  intro s a b ic p
  refine ⟨fun h => ?_, fun h => ?_, fun h => ?_, ?_, ?_⟩ <;>
    refine exec_of_not_admitted s _ rfl ?_
  · simpa [Instr.admitted, and_assoc] using h
  · simpa [Instr.admitted, and_assoc] using h
  · simpa [Instr.admitted] using h
  · simp [Instr.admitted]
  · simp [Instr.admitted]

/-- Settles O48: `FFTLEN` and `BREV_LEN` are within the 16-bit index fields. -/
theorem scheduledMicroOpsAdmitted : Obligations.ScheduledMicroOpsAdmitted := by
  intro m p l c brev h2 h16 _ _ hl i hi
  have hn : 2 ^ m ≤ 2 ^ 16 := Nat.pow_le_pow_right (by decide) h16
  obtain ⟨k, rfl⟩ : ∃ k, m = k + 1 := ⟨m - 1, by omega⟩
  exact admitted_of_mem_prog k p l c brev i hn (fun hb => (hl hb).2.trans hn) hi

end Sys2Proof.Machine

namespace Sys2Proof.Machine

open Sys2Proof

/-! ## What the turns show on the trace outputs (30_encoding.md R106) -/

/-- A release shows one `BAR` on each participant's output (log 30). -/
theorem State.release_traceOf (s : State) (d : Nat) :
    s.release.traceOf d = s.traceOf d ++ if d < s.cores then [barWord] else [] := by
  have hmine : (List.range s.cores).filter (· == d) = if d < s.cores then [d] else [] := by
    simp only [List.filter_beq, List.nodup_range.count, List.mem_range]
    split <;> rfl
  simp only [State.traceOf, State.release_trace, List.filter_append, List.map_append, List.filter_map]
  simp only [Function.comp_def, hmine]
  split <;> rfl

/-- A word that is not `BAR`'s shows on the trace outputs when a worker takes it. -/
theorem State.runWord_trace (s t : State) (c : Nat) (w : UWord) (hw : w ≠ barWord) (h : s.runWord c w = .next t) :
    t.trace = s.trace ++ [(c, w)] := by
  unfold State.runWord at h
  split at h
  · rename_i i hi
    have hbar : i ≠ .bar := by
      rintro rfl
      exact hw (Code.u.inj (decodedMicroOpIsItsEncoding w _ hi)).symm
    exact exec_trace _ t i hbar h
  · cases h

/-- A command is no `BAR` (R99, R100). -/
theorem decodeC_ne_bar (v : Word) : decodeC v ≠ .bar := by
  intro e
  have h := decodeC_isMicroOp v
  rw [e] at h
  cases h

/-- Everything a turn can show: nothing, one word of a worker, or the `BAR`s of a release. -/
theorem takeTurn_trace (turn : Turn) (s t : State) (h : takeTurn turn s = .next t) :
    t.trace = s.trace ∨
      (∃ c w, (turn = .worker c ∨ turn = .issue c w) ∧ t.trace = s.trace ++ [(c, w)]) ∨
      (turn = .release ∧ t = s.release) := by
  cases turn with
  | regRead addr n =>
    obtain ⟨v, rfl⟩ := s.hostRead_next t addr n h
    exact .inl rfl
  | regWrite addr n v ctx =>
    replace h : s.hostWrite addr n v ctx = .next t := h
    rcases s.hostWrite_cases addr n v ctx with e | e | e | ⟨r, e⟩ <;> rw [e] at h
    · cases h
    · cases h
      exact .inl rfl
    · exact .inl (exec_trace { s with ctx := ctx } t _ (decodeC_ne_bar v) h)
    · cases h
      rcases s.writeReg_cases r v with e | e | ⟨-, e⟩ | ⟨-, q, e⟩ <;>
        exact .inl (by simp only [e, State.setOvr_trace])
  | memRead addr =>
    obtain ⟨v, rfl⟩ := s.hostMemRead_next t addr h
    exact .inl rfl
  | memWrite addr v =>
    obtain rfl := s.hostMemWrite_next t addr v h
    exact .inl rfl
  | reset =>
    cases h
    exact .inl rfl
  | worker c =>
    replace h : s.workerTurn c = .next t := h
    unfold State.workerTurn at h
    split at h
    · split at h
      · cases h
        exact .inl rfl
      · rename_i w _ hw
        exact .inr (.inl ⟨c, w, .inl rfl, s.runWord_trace t c w hw h⟩)
    · cases h
      exact .inl rfl
  | release =>
    replace h : execBar s = .next t := h
    unfold execBar at h
    split at h <;> cases h
    · exact .inr (.inr ⟨rfl, rfl⟩)
    · exact .inl rfl
  | join =>
    replace h : s.joinTurn = .next t := h
    unfold State.joinTurn at h
    split at h <;> cases h <;> exact .inl rfl
  | issue c w =>
    replace h : s.issueTurn c w = .next t := h
    unfold State.issueTurn at h
    split at h
    · rename_i hgiven
      obtain ⟨-, hw⟩ := hgiven
      exact .inr (.inl ⟨c, w, .inr rfl, s.runWord_trace t c w hw h⟩)
    · cases h
      exact .inl rfl

/-- The trace outputs lose nothing: each worker's grows by at most a word. -/
theorem takeTurn_traceOf (turn : Turn) (s t : State) (h : takeTurn turn s = .next t) (d : Nat) :
    t.traceOf d = s.traceOf d ∨ ∃ u, t.traceOf d = s.traceOf d ++ [u] := by
  rcases takeTurn_trace turn s t h with e | ⟨c, w, -, e⟩ | ⟨-, rfl⟩
  · exact .inl (by rw [State.traceOf, e, State.traceOf])
  · rw [s.traceOf_snoc t c d w e]
    split
    · exact .inr ⟨w, rfl⟩
    · exact .inl rfl
  · rw [State.release_traceOf]
    split
    · exact .inr ⟨barWord, rfl⟩
    · exact .inl (List.append_nil _)

/-! ## Nothing depends on the trace -/

/-- `s` with another record of the trace outputs. -/
def State.withTrace (s : State) (x : List (Nat × UWord)) : State := { s with trace := x }

/-- An outcome whose next state has another record of the trace outputs. -/
def retraced (x : List (Nat × UWord)) : Out → Out
  | .next t => .next (t.withTrace x)
  | .fault r => .fault r
  | .refused r => .refused r

section

variable (s : State) (x : List (Nat × UWord))

/-! ### The guards a micro-op runs under -/

/-- A choice between two next states by what both records leave the same. -/
theorem ite_next_withTrace (c : Bool) (t u : State) :
    (if c then .next (t.withTrace x) else .next (u.withTrace x) : Out) = retraced x (if c then .next t else .next u) := by
  cases c <;> rfl

theorem ifAdmitted_withTrace (i : Instr) (k k' : Out) (hk : k' = retraced x k) :
    (s.withTrace x).ifAdmitted i k' = retraced x (s.ifAdmitted i k) := by
  unfold State.ifAdmitted
  rw [apply_ite (retraced x), hk]
  rfl

theorem raiseFault_withTrace (e : ErrCode) (v : Word) :
    (s.withTrace x).raiseFault e v = (s.raiseFault e v).withTrace x := by
  unfold State.raiseFault
  dsimp only
  rw [apply_ite (State.withTrace · x)]
  rfl

theorem withBus_withTrace (l : List (Nat × Nat)) (k k' : Out) (hk : k' = retraced x k) :
    (s.withTrace x).withBus l k' = retraced x (s.withBus l k) := by
  unfold State.withBus
  rw [show (s.withTrace x).params = s.params from rfl]
  cases s.params.firstInvalid l with
  | none => exact hk
  | some a => exact congrArg _ (raiseFault_withTrace s x _ _)

theorem withAccess_withTrace (acc : List Access) (k k' : State → Out)
    (hk : ∀ t, k' (t.withTrace x) = retraced x (k t)) :
    (s.withTrace x).withAccess acc k' = retraced x (s.withAccess acc k) := by
  unfold State.withAccess
  rw [apply_ite (retraced x), ← hk]
  rfl

theorem withWord_withTrace (a : Nat) (k k' : Word → Out) (hk : ∀ w, k' w = retraced x (k w)) :
    (s.withTrace x).withWord a k' = retraced x (s.withWord a k) := by
  unfold State.withWord
  rw [show (s.withTrace x).mem = s.mem from rfl]
  cases Memory.readWord s.mem a with
  | none => rfl
  | some w => exact hk w

theorem withHalf_withTrace (a : Nat) (k k' : Nat → Out) (hk : ∀ h, k' h = retraced x (k h)) :
    (s.withTrace x).withHalf a k' = retraced x (s.withHalf a k) := by
  unfold State.withHalf
  rw [show (s.withTrace x).mem = s.mem from rfl]
  cases Memory.readHalf s.mem a with
  | none => rfl
  | some h => exact hk h

/-! ### The operations -/

theorem execBfly_withTrace (a b ic : Half) : execBfly a b ic (s.withTrace x) = retraced x (execBfly a b ic s) :=
  ifAdmitted_withTrace s x _ _ _ <| withBus_withTrace s x _ _ _ <| withAccess_withTrace s x _ _ _ fun t =>
    withWord_withTrace t x _ _ _ fun _ => withWord_withTrace t x _ _ _ fun _ => withWord_withTrace t x _ _ _ fun _ => rfl

theorem execBflyn_withTrace (a b : Half) : execBflyn a b (s.withTrace x) = retraced x (execBflyn a b s) :=
  ifAdmitted_withTrace s x _ _ _ <| withBus_withTrace s x _ _ _ <| withAccess_withTrace s x _ _ _ fun t =>
    withWord_withTrace t x _ _ _ fun _ => withWord_withTrace t x _ _ _ fun _ => rfl

theorem execSwpt_withTrace (p : Half) : execSwpt p (s.withTrace x) = retraced x (execSwpt p s) := by
  refine ifAdmitted_withTrace s x _ _ _ <| withBus_withTrace s x _ _ _ <| withAccess_withTrace s x _ _ _ fun t =>
    withHalf_withTrace t x _ _ _ fun a => withHalf_withTrace t x _ _ _ fun b => ?_
  rw [apply_ite (retraced x), apply_ite (retraced x)]
  refine if_congr Iff.rfl ?_ <| if_congr Iff.rfl ?_ ?_
  · exact congrArg _ (raiseFault_withTrace t x _ _)
  · exact congrArg _ (raiseFault_withTrace t x _ _)
  · exact withBus_withTrace t x _ _ _ <| withAccess_withTrace t x _ _ _ fun u =>
      withWord_withTrace u x _ _ _ fun _ => withWord_withTrace u x _ _ _ fun _ => rfl

theorem execStart_withTrace : execStart (s.withTrace x) = retraced x (execStart s) := by
  unfold execStart
  rw [apply_ite (retraced x), apply_ite (retraced x)]
  refine if_congr Iff.rfl rfl <| if_congr Iff.rfl rfl ?_
  rw [show (s.withTrace x).acceptStart = s.acceptStart.withTrace x from rfl]
  generalize s.acceptStart = t
  dsimp only
  rw [show configError (t.withTrace x).params (t.withTrace x).regs = configError t.params t.regs from rfl]
  cases configError t.params t.regs with
  | some c => rfl
  | none => exact ite_next_withTrace x t.regs.inv t.inverseDone t.fork

/-- What an operation does to any other record of the trace outputs: a release adds its `BAR`s, the others leave it. -/
theorem exec_withTrace (i : Instr) : ∃ y, exec i (s.withTrace x) = retraced y (exec i s) := by
  cases i with
  | bfly a b ic => exact ⟨x, execBfly_withTrace s x a b ic⟩
  | bflyn a b => exact ⟨x, execBflyn_withTrace s x a b⟩
  | bar =>
    change ∃ y, execBar (s.withTrace x) = retraced y (execBar s)
    unfold execBar
    rw [show (s.withTrace x).releaseEnabled = s.releaseEnabled from rfl]
    split
    · exact ⟨(s.withTrace x).release.trace, rfl⟩
    · exact ⟨x, rfl⟩
  | swpt p => exact ⟨x, execSwpt_withTrace s x p⟩
  | endOp => exact ⟨x, rfl⟩
  | nop => exact ⟨x, ite_next_withTrace x s.status.busy s.setOvr s⟩
  | start => exact ⟨x, execStart_withTrace s x⟩
  | clear => exact ⟨x, ite_next_withTrace x s.status.busy s.setOvr s.clearStatus⟩
  | reservedCmd3 => exact ⟨x, ite_next_withTrace x s.status.busy s.setOvr s⟩

/-! ### The turns -/

theorem writeReg_withTrace (r : HostReg) (v : Word) : (s.withTrace x).writeReg r v = (s.writeReg r v).withTrace x := by
  have locked : ∀ q : Regs, (s.withTrace x).lockedWrite q = (s.lockedWrite q).withTrace x := by
    intro q
    unfold State.lockedWrite
    rw [apply_ite (State.withTrace · x)]
    rfl
  cases r with
  | cap => rfl
  | ctrl => rfl
  | cmd => rfl
  | status => rfl
  | errInfo => rfl
  | _ => exact locked _

theorem withOffset_withTrace (addr : Word) (n : Nat) (k k' : Nat → Out) (hk : ∀ o, ∃ y, k' o = retraced y (k o)) :
    ∃ y, (s.withTrace x).withOffset addr n k' = retraced y (s.withOffset addr n k) := by
  unfold State.withOffset
  rw [show (s.withTrace x).params = s.params from rfl]
  split
  · split
    · exact hk _
    · exact ⟨x, rfl⟩
  · exact ⟨x, rfl⟩

theorem hostRead_withTrace (addr : Word) (n : Nat) :
    ∃ y, (s.withTrace x).hostRead addr n = retraced y (s.hostRead addr n) :=
  withOffset_withTrace s x addr n _ _ fun _ => ⟨x, rfl⟩

theorem hostWrite_withTrace (addr : Word) (n : Nat) (v : Word) (ctx : Bool) :
    ∃ y, (s.withTrace x).hostWrite addr n v ctx = retraced y (s.hostWrite addr n v ctx) := by
  refine withOffset_withTrace s x addr n _ _ fun o => ?_
  split
  · exact exec_withTrace { s with ctx := ctx } x _
  · exact ⟨x, congrArg _ (writeReg_withTrace s x _ v)⟩
  · exact ⟨x, rfl⟩

theorem hostMemRead_withTrace (addr : Word) : (s.withTrace x).hostMemRead addr = retraced x (s.hostMemRead addr) := by
  unfold State.hostMemRead
  rw [apply_ite (retraced x)]
  refine if_congr Iff.rfl rfl ?_
  rw [show (s.withTrace x).mem = s.mem from rfl]
  cases Memory.read s.mem addr.toNat <;> rfl

theorem hostMemWrite_withTrace (addr : Word) (v : Byte) :
    (s.withTrace x).hostMemWrite addr v = retraced x (s.hostMemWrite addr v) := by
  unfold State.hostMemWrite
  rw [apply_ite (retraced x)]
  rfl

theorem runWord_withTrace (c : Nat) (w : UWord) : ∃ y, (s.withTrace x).runWord c w = retraced y (s.runWord c w) := by
  unfold State.runWord
  cases decode (.u w) with
  | ok i => exact exec_withTrace { s with cur := c, trace := s.trace ++ [(c, w)] } (x ++ [(c, w)]) i
  | error e => exact ⟨x, rfl⟩

theorem workerTurn_withTrace (c : Nat) : ∃ y, (s.withTrace x).workerTurn c = retraced y (s.workerTurn c) := by
  unfold State.workerTurn
  rw [show (s.withTrace x).issued c = s.issued c from rfl]
  split
  · split
    · exact ⟨x, rfl⟩
    · exact runWord_withTrace s x c _
  · exact ⟨x, rfl⟩

theorem issueTurn_withTrace (c : Nat) (w : UWord) :
    ∃ y, (s.withTrace x).issueTurn c w = retraced y (s.issueTurn c w) := by
  unfold State.issueTurn
  rw [show (s.withTrace x).takesWord c = s.takesWord c from rfl]
  split
  · exact runWord_withTrace s x c w
  · exact ⟨x, rfl⟩

theorem takeTurn_withTrace (turn : Turn) : ∃ y, takeTurn turn (s.withTrace x) = retraced y (takeTurn turn s) := by
  cases turn with
  | regRead addr n => exact hostRead_withTrace s x addr n
  | regWrite addr n v ctx => exact hostWrite_withTrace s x addr n v ctx
  | memRead addr => exact ⟨x, hostMemRead_withTrace s x addr⟩
  | memWrite addr v => exact ⟨x, hostMemWrite_withTrace s x addr v⟩
  | reset => exact ⟨x, rfl⟩
  | worker c => exact workerTurn_withTrace s x c
  | release => exact exec_withTrace s x .bar
  | join => exact ⟨x, ite_next_withTrace x s.joinEnabled s.join s⟩
  | issue c w => exact issueTurn_withTrace s x c w

end

/-- A worker's turn shows the word issued to it, which is not `BAR`'s (R106). -/
theorem State.workerTurn_trace (s t : State) (c : Nat) (w : UWord) (hi : s.issued c = some (.u w)) (hw : w ≠ barWord)
    (h : s.workerTurn c = .next t) : t.trace = s.trace ++ [(c, w)] := by
  rw [State.workerTurn, hi] at h
  exact s.runWord_trace t c w hw ((if_neg hw).symm.trans h)

/-- Settles O60: what each turn shows, and that it commutes with another record of the trace outputs. -/
theorem traceShowsIssuedMicroOps : Obligations.TraceShowsIssuedMicroOps := by
  intro s t c w tr turn
  refine ⟨s.workerTurn_trace t c w, fun hen h => ?release, fun h => ⟨takeTurn_traceOf turn s t h, ?frame⟩, ?unread⟩
  case release =>
    obtain rfl : s.release = t := Host.Outcome.next.inj ((if_pos hen).symm.trans h)
    exact ⟨fun d hd => by rw [s.release_traceOf, if_pos hd], fun d hd => by simp [s.release_traceOf, Nat.not_lt.2 hd]⟩
  case frame =>
    intro hworker hrelease hissue
    rcases takeTurn_trace turn s t h with e | ⟨c, w, e | e, -⟩ | ⟨e, -⟩
    · exact e
    · exact absurd e (hworker c)
    · exact absurd e (hissue c w)
    · exact absurd e hrelease
  case unread =>
    obtain ⟨y, hy⟩ := takeTurn_withTrace s tr turn
    cases h : takeTurn turn s with
    | next u => exact ⟨y, hy.trans (congrArg (retraced y) h)⟩
    | fault r => exact hy.trans (congrArg (retraced y) h)
    | refused r => exact hy.trans (congrArg (retraced y) h)

end Sys2Proof.Machine

namespace Sys2Proof.Machine

open Sys2Proof

/-! ## Packed Q15 arithmetic inside a butterfly (40_packed_q15_arithmetic.md R125 to R129) -/

/-! The rules of R125 and R126 speak of either lane alike: `lane` and `lane'` below are the real or the imaginary part. -/

section EitherLane

variable {lane lane' : Word → Int} (hl : lane = lane0 ∨ lane = lane1) (hl' : lane' = lane0 ∨ lane' = lane1)
  (a b w : Word)

include hl

theorem lane_range : -32768 ≤ lane w ∧ lane w ≤ 32767 := by
  obtain rfl | rfl := hl
  · exact lane0_range w
  · exact lane1_range w

theorem lane_half2_range : -16384 ≤ lane (half2 a) ∧ lane (half2 a) ≤ 16383 := by
  obtain rfl | rfl := hl
  · exact lane0_half2_range a
  · exact lane1_half2_range a

theorem lane_bfSum : lane (bfSum a b) = lane (half2 a) + lane (half2 b) := by
  obtain rfl | rfl := hl
  · exact lane0_bfSum a b
  · exact lane1_bfSum a b

theorem lane_bfDiff : lane (bfDiff a b) = lane (half2 a) - lane (half2 b) := by
  obtain rfl | rfl := hl
  · exact lane0_bfDiff a b
  · exact lane1_bfDiff a b

theorem lane_bfSum_range : -32768 ≤ lane (bfSum a b) ∧ lane (bfSum a b) ≤ 32766 := by
  have ha := lane_half2_range hl a
  have hb := lane_half2_range hl b
  rw [lane_bfSum hl]
  omega

/-- One value short of `s16`: the rotation's products rest on it (R126). -/
theorem lane_bfDiff_range : -32767 ≤ lane (bfDiff a b) ∧ lane (bfDiff a b) ≤ 32767 := by
  have ha := lane_half2_range hl a
  have hb := lane_half2_range hl b
  rw [lane_bfDiff hl]
  omega

include hl'

/-- `32767 * 32768` bounds each product of the rotation (R126). -/
theorem lane_bfDiff_mul_range :
    -1073709056 ≤ lane (bfDiff a b) * lane' w ∧ lane (bfDiff a b) * lane' w ≤ 1073709056 := by
  obtain ⟨ht, ht'⟩ := lane_bfDiff_range hl a b
  obtain ⟨hw, hw'⟩ := lane_range hl' w
  exact lane_product_range _ _ ht ht' hw hw'

end EitherLane

/-- Settles O8: the halved lanes leave room for one addition or subtraction. -/
theorem sumAndDifferenceNeverWrap : Obligations.SumAndDifferenceNeverWrap := fun a b _ hl =>
  ⟨lane_half2_range hl a, lane_bfSum hl a b, lane_bfSum_range hl a b, lane_bfDiff hl a b, lane_bfDiff_range hl a b⟩

/-! ## The products -/

section Products

variable (a b w : Word)

theorem dotp_bfDiff_exact_range :
    -2147418112 ≤ lane0 (bfDiff a b) * lane0 w + lane1 (bfDiff a b) * lane1 w ∧
    lane0 (bfDiff a b) * lane0 w + lane1 (bfDiff a b) * lane1 w ≤ 2147418112 := by
  have hre := lane_bfDiff_mul_range (.inl rfl) (.inl rfl) a b w
  have him := lane_bfDiff_mul_range (.inr rfl) (.inr rfl) a b w
  omega

theorem xdif_bfDiff_exact_range :
    -2147418112 ≤ lane1 (bfDiff a b) * lane0 w - lane0 (bfDiff a b) * lane1 w ∧
    lane1 (bfDiff a b) * lane0 w - lane0 (bfDiff a b) * lane1 w ≤ 2147418112 := by
  have him := lane_bfDiff_mul_range (.inr rfl) (.inl rfl) a b w
  have hre := lane_bfDiff_mul_range (.inl rfl) (.inr rfl) a b w
  omega

theorem dotp_bfDiff :
    dotp (bfDiff a b) w = lane0 (bfDiff a b) * lane0 w + lane1 (bfDiff a b) * lane1 w := by
  have := dotp_bfDiff_exact_range a b w
  exact wrap32_of_range _ (by omega) (by omega)

theorem xdif_bfDiff :
    xdif (bfDiff a b) w = lane1 (bfDiff a b) * lane0 w - lane0 (bfDiff a b) * lane1 w := by
  have := xdif_bfDiff_exact_range a b w
  exact wrap32_of_range _ (by omega) (by omega)

end Products

/-- Settles O9: both exact values are within the bound, which is below `2 ^ 31`. -/
theorem productsNeverOverflow : Obligations.ProductsNeverOverflow := by
  intro a b w
  refine ⟨dotp_bfDiff a b w, xdif_bfDiff a b w, ?_, ?_⟩
  · rw [dotp_bfDiff]
    exact dotp_bfDiff_exact_range a b w
  · rw [xdif_bfDiff]
    exact xdif_bfDiff_exact_range a b w

/-! ## The narrowing -/

/-- A product that is in `s16` after the shift by 15 is narrowed without loss of its high bits (R128). -/
theorem q15narrow_of_range (v : Int) (h1 : -1073741824 ≤ v) (h2 : v < 1073741824) : q15narrow v = sra v 15 := by
  have := sra_fifteen v
  exact wrap16_of_range _ (by omega) (by omega)

theorem lane0_bfRot (a b w : Word) : lane0 (bfRot a b w) =
    q15narrow (lane0 (bfDiff a b) * lane0 w + lane1 (bfDiff a b) * lane1 w) := by
  rw [bfRot, lane0_pack, q15narrow, wrap16_wrap16, dotp_bfDiff, q15narrow]

theorem lane1_bfRot (a b w : Word) : lane1 (bfRot a b w) =
    q15narrow (lane1 (bfDiff a b) * lane0 w - lane0 (bfDiff a b) * lane1 w) := by
  rw [bfRot, lane1_pack, q15narrow, wrap16_wrap16, xdif_bfDiff, q15narrow]

theorem abs_lane_le {lane : Word → Int} (hl : lane = lane0 ∨ lane = lane1) (w : Word) : |lane w| ≤ 32768 := by
  have := lane_range hl w
  exact abs_le.2 (by omega)

/-- The argument of R128: each product is at most 32768 times the magnitude of its lane of `t`, so a sum of magnitudes of at
most 32767 keeps the rotated value within what the narrowing keeps. -/
theorem abs_rotated_le (x y u v : Int) (hu : |u| ≤ 32768) (hv : |v| ≤ 32768) (hxy : |x| + |y| ≤ 32767) :
    |x * u + y * v| ≤ 1073709056 :=
  calc |x * u + y * v| ≤ |x| * |u| + |y| * |v| := by rw [← abs_mul, ← abs_mul]; exact abs_add_le _ _
    _ ≤ |x| * 32768 + |y| * 32768 := by gcongr
    _ ≤ 1073709056 := by omega

/-- With R128's headroom the narrowing of a rotated value keeps it. -/
theorem q15narrow_rotated (x y u v : Int) (hu : |u| ≤ 32768) (hv : |v| ≤ 32768) (hxy : |x| + |y| ≤ 32767) :
    q15narrow (x * u + y * v) = sra (x * u + y * v) 15 := by
  have := abs_le.1 (abs_rotated_le x y u v hu hv hxy)
  exact q15narrow_of_range _ (by omega) (by omega)

/-- Settles O10: each lane of the result is a rotated value of the lanes of `t`; the imaginary one turns by `-W.im`. -/
theorem headroomAvoidsTheWrap : Obligations.HeadroomAvoidsTheWrap := by
  intro a b w h
  have hre : |lane0 w| ≤ 32768 := abs_lane_le (.inl rfl) w
  have him : |lane1 w| ≤ 32768 := abs_lane_le (.inr rfl) w
  constructor
  · rw [lane0_bfRot]
    exact q15narrow_rotated _ _ _ _ hre him h
  · rw [lane1_bfRot, sub_eq_add_neg, ← mul_neg]
    exact q15narrow_rotated _ _ _ _ hre ((abs_neg _).trans_le him) ((add_comm _ _).trans_le h)

/-- Times the largest Q15 value: the product stays in range of the narrowing, and `x * 32767 = x * 32768 - x` (R129). -/
theorem q15narrow_mul_max (x : Int) (h1 : -32768 ≤ x) (h2 : x ≤ 32767) : q15narrow (x * 32767) = x + -x / 32768 := by
  rw [q15narrow_of_range _ (by omega) (by omega), sra_fifteen]
  omega

/-- Times the smallest Q15 value: the shift undoes the multiplication by 32768, and only the sign is left (R129). -/
theorem q15narrow_mul_min (x : Int) : q15narrow (x * (-32768)) = wrap16 (-x) := by
  have hshift : sra (x * (-32768)) 15 = -x := by
    rw [sra_fifteen]
    omega
  rw [q15narrow, hshift]

/-- Settles O11: the floor of `-x / 32768` is `-1`, `0` and `1` in the three ranges of `x`. -/
theorem q15NarrowLaws : Obligations.Q15NarrowLaws := by
  intro x h1 h2
  rw [q15narrow_mul_max x h1 h2]
  exact ⟨by omega, by omega, by omega, q15narrow_mul_min x⟩

end Sys2Proof.Machine

namespace Sys2Proof.Machine

open Sys2Proof

/-! ## The packed datapath and the pseudocode on pairs (41_butterfly_unit.md R140) -/

/-- The lanes of `A'`, the same in both modes: a sum of halves needs no wrap (R125). -/
theorem lanes_bfSum (a b : Word) :
    lanes (bfSum a b) = (sra (lane0 a) 1 + sra (lane0 b) 1, sra (lane1 a) 1 + sra (lane1 b) 1) := by
  rw [lanes, lane0_bfSum, lane1_bfSum, lane0_half2, lane0_half2, lane1_half2, lane1_half2]

/-- The lanes of the difference `t`, which needs no wrap either (R125). -/
theorem lanes_bfDiff (a b : Word) :
    lanes (bfDiff a b) = (sra (lane0 a) 1 - sra (lane0 b) 1, sra (lane1 a) 1 - sra (lane1 b) 1) := by
  rw [lanes, lane0_bfDiff, lane1_bfDiff, lane0_half2, lane0_half2, lane1_half2, lane1_half2]

/-- The lanes of `B'` in rotation mode: the products are exact (R126, R127), and only the narrowing wraps (R128). -/
theorem lanes_bfRot (a b w : Word) : lanes (bfRot a b w) =
    (wrap16 (sra ((lanes (bfDiff a b)).1 * lane0 w + (lanes (bfDiff a b)).2 * lane1 w) 15),
      wrap16 (sra ((lanes (bfDiff a b)).2 * lane0 w - (lanes (bfDiff a b)).1 * lane1 w) 15)) := by
  rw [lanes, lane0_bfRot, lane1_bfRot, q15narrow, q15narrow, lanes]

theorem lanes_bf (a b w : Word) :
    (lanes (bf a b w).1, lanes (bf a b w).2) = bfPairs (lanes a) (lanes b) (lanes w) := by
  rw [bf, lanes_bfSum, lanes_bfRot, lanes_bfDiff]
  rfl

theorem lanes_bfn (a b : Word) : (lanes (bfn a b).1, lanes (bfn a b).2) = bfnPairs (lanes a) (lanes b) := by
  rw [bfn, lanes_bfSum, lanes_bfDiff]
  rfl

/-- Settles O7: each lane of sum, difference and rotated difference is the pseudocode's component. -/
theorem butterflyMatchesPseudocode : Obligations.ButterflyMatchesPseudocode := fun a b w =>
  ⟨lanes_bf a b w, lanes_bfn a b⟩

/-! ## The micro-ops complete (41_butterfly_unit.md R141, R142) -/

theorem State.withWord_some (s : State) (a : Nat) (x : Word) (k : Word → Out) (h : Memory.readWord s.mem a = some x) :
    s.withWord a k = k x := by
  rw [State.withWord, h]

/-- Settles O13: every guard passes, and what is stored are the two results of `bf`. -/
theorem bflyCompletes : Obligations.BflyCompletes := by
  intro s a b ic x y w pa pb pw hab hbn hicn hva hvb hvw hclear hx hy hw
  refine ⟨(bf x y w).1, (bf x y w).2, lanes_bf x y w, ?_⟩
  exact (s.ifAdmitted_pos _ _ (by simp [Instr.admitted, hab, hbn, hicn])).trans <|
    (s.withBus_valid _ _ (by simpa using ⟨hva, hvb, hvw⟩)).trans <|
    (s.withAccess_clear _ _ hclear).trans <|
    (State.withWord_some _ pa x _ hx).trans <|
    (State.withWord_some _ pb y _ hy).trans <|
    State.withWord_some _ pw w _ hw

/-- Settles O14: every guard passes, and what is stored are the two results of `bfn`. -/
theorem bflynCompletes : Obligations.BflynCompletes := by
  intro s a b x y pa pb heven hnext hbn hva hvb hclear hx hy
  refine ⟨(bfn x y).1, (bfn x y).2, lanes_bfn x y, ?_⟩
  exact (s.ifAdmitted_pos _ _ (by simp [Instr.admitted, heven, hnext, hnext ▸ hbn])).trans <|
    (s.withBus_valid _ _ (by simpa using ⟨hva, hvb⟩)).trans <|
    (s.withAccess_clear _ _ hclear).trans <|
    (State.withWord_some _ pa x _ hx).trans <|
    State.withWord_some _ pb y _ hy

/-! ## What the micro-ops leave unchanged -/

/-- A worker fault keeps all of `microFrame`: it writes the record only where no earlier fault did (60_exceptions.md R284). -/
theorem State.raiseFault_microFrame (s : State) (e : ErrCode) (x : Word) : microFrame s (s.raiseFault e x) := by
  have others : ∀ d, d ≠ s.cur → (s.raiseFault e x).worker d = s.worker d := fun d hd =>
    State.worker_set_ne s _ s.cur d _ (State.raiseFault_workers s e x) hd
  have record : (s.raiseFault e x).status = s.status ∧ (s.raiseFault e x).errInfo = s.errInfo ∨
      s.status.err = false ∧ (s.raiseFault e x).status.err = true := by
    cases h : s.status.err with
    | true => exact .inl (State.raiseFault_status_later s e x h)
    | false => exact .inr ⟨rfl, State.raiseFault_err s e x⟩
  simpa [microFrame] using ⟨others, record⟩

/-- Either effect of a micro-op that accesses memory keeps all of `microFrame`. -/
theorem MemoryEffect.microFrame {s t : State} (h : MemoryEffect s t) : microFrame s t := by
  cases h with
  | fault l e x _ _ h =>
    subst h
    exact State.raiseFault_microFrame { s with log := l } e x
  | stores l a b u v w _ _ _ _ _ _ _ h =>
    subst h
    exact ⟨rfl, rfl, rfl, rfl, rfl, rfl, rfl, rfl, rfl, List.length_set,
      fun d hd => State.worker_set_ne s _ s.cur d _ rfl hd, rfl, rfl, rfl, rfl, rfl, .inl ⟨rfl, rfl⟩⟩

/-- A butterfly writes no memory (it has faulted), or the two samples it names. -/
theorem butterfly_mem (s t : State) (a b ic : Half)
    (h : exec (.bfly a b ic) s = .next t ∨ exec (.bflyn a b) s = .next t) :
    t.mem = s.mem ∨ ∃ u v : Word, t.mem =
      Memory.writeN (Memory.writeN s.mem (s.samplePtr a.toNat) 4 u.toNat) (s.samplePtr b.toNat) 4 v.toNat := by
  rcases h with h | h
  · rcases (execBfly_next s t a b ic h).2 with ⟨_, -, rfl⟩ | ⟨-, -, x, y, w, -, -, -, rfl⟩
    · exact .inl (State.raiseFault_mem _ _ _)
    · exact .inr ⟨(bf x y w).1, (bf x y w).2, rfl⟩
  · rcases (execBflyn_next s t a b h).2 with ⟨_, -, rfl⟩ | ⟨-, -, x, y, -, -, rfl⟩
    · exact .inl (State.raiseFault_mem _ _ _)
    · exact .inr ⟨(bfn x y).1, (bfn x y).2, rfl⟩

/-- Settles O18: the frame of every micro-op that accesses memory, and a byte outside both samples is in neither store. -/
theorem butterflyFrame : Obligations.ButterflyFrame := by
  intro s t a b ic h
  refine ⟨?frame, fun x ha hb => ?bytes⟩
  case frame =>
    rcases h with h | h
    · exact (execBfly_effect s t a b ic h).microFrame
    · exact (execBflyn_effect s t a b h).microFrame
  case bytes =>
    rcases butterfly_mem s t a b ic h with hm | ⟨u, v, hm⟩
    · rw [hm]
    · rw [hm, Memory.read_writeN_outside 4 _ _ _ _ (by omega), Memory.read_writeN_outside 4 _ _ _ _ (by omega)]

end Sys2Proof.Machine

namespace Sys2Proof.Machine

open Sys2Proof

/-! ## `BAR` and `END` in `prog(c)` (42_stage_scheduler.md R169, R174) -/

@[simp] theorem barCount_nil : barCount [] = 0 := rfl

@[simp] theorem barCount_append (l l' : List Instr) : barCount (l ++ l') = barCount l + barCount l' :=
  List.countP_append

@[simp] theorem barCount_bar_cons (l : List Instr) : barCount (.bar :: l) = barCount l + 1 :=
  List.countP_cons_of_pos (by decide)

/-- The bodies of the stages hold neither `BAR` nor `END`, which access no memory. -/
theorem not_mem_of_accesses {l : List Instr} {i : Instr} (h : ∀ i ∈ l, i.accessesMemory = true)
    (hi : i.accessesMemory = false) : i ∉ l :=
  fun hmem => by simp [h i hmem] at hi

theorem barCount_of_accesses {l : List Instr} (h : ∀ i ∈ l, i.accessesMemory = true) : barCount l = 0 :=
  List.count_eq_zero.2 (not_mem_of_accesses h rfl)

@[simp] theorem barCount_stageBody (n n1 mod c p : Nat) : barCount (stageBody n n1 mod c p) = 0 :=
  barCount_of_accesses fun _ => accesses_of_mem_stageBody

@[simp] theorem barCount_finalBody (n c p : Nat) : barCount (finalBody n c p) = 0 :=
  barCount_of_accesses fun _ => accesses_of_mem_finalBody

@[simp] theorem barCount_brevBody (brev : Bool) (l c p : Nat) : barCount (brevBody brev l c p) = 0 :=
  barCount_of_accesses fun _ => accesses_of_mem_brevBody

/-- From group size `2 ^ (k + 1)` on there are `k` twiddle stages of two `BAR` each, where the fuel suffices (R161). -/
theorem barCount_twiddleStages (n c p : Nat) : ∀ fuel k mod, k ≤ fuel →
    barCount (twiddleStages n c p fuel (2 ^ (k + 1)) mod) = 2 * k
  | _, 0, _, _ => by simp [twiddleStages_two]
  | fuel + 1, k + 1, mod, hk => by
    have hrest := barCount_twiddleStages n c p fuel k (mod * 2) (by omega)
    simp only [twiddleStages_succ n c p fuel (k + 1) mod (by omega), barCount_bar_cons, barCount_append,
      barCount_stageBody, hrest]
    omega

/-- The twiddle stages hold two `BAR` for each of the group sizes `N, N / 2, …, 4`, the final stage has two (R174). -/
theorem barCount_prog (m p l c : Nat) (brev : Bool) : barCount (prog (2 ^ (m + 1)) p brev l c) = 2 * (m + 1) := by
  have hfuel : m ≤ 2 ^ (m + 1) := by
    have := Nat.lt_two_pow_self (n := m + 1)
    omega
  have hend : barCount [.endOp] = 0 := rfl
  simp only [prog, barCount_append, barCount_bar_cons, barCount_twiddleStages _ c p _ m 1 hfuel, barCount_finalBody,
    barCount_brevBody, hend]
  omega

theorem endOp_not_mem_twiddleStages (n c p fuel n1 mod : Nat) : .endOp ∉ twiddleStages n c p fuel n1 mod := by
  intro h
  rcases mem_twiddleStages n c p _ fuel n1 mod h with h | ⟨_, _, h⟩
  · cases h
  · cases accesses_of_mem_stageBody h

/-- `prog(c)` is the three phases and then `END`, which stands in none of them (R169). -/
theorem prog_eq_append_endOp (n p l c : Nat) (brev : Bool) :
    ∃ body, prog n p brev l c = body ++ [.endOp] ∧ .endOp ∉ body := by
  refine ⟨twiddleStages n c p n n 1 ++ .bar :: (finalBody n c p ++ .bar :: brevBody brev l c p), by simp [prog], ?_⟩
  simp only [List.mem_append, List.mem_cons, reduceCtorEq, false_or, not_or]
  exact ⟨endOp_not_mem_twiddleStages n c p n n 1, not_mem_of_accesses (fun _ => accesses_of_mem_finalBody) rfl,
    not_mem_of_accesses (fun _ => accesses_of_mem_brevBody) rfl⟩

/-- Settles O47: the shape of `prog(c)`, and its `BAR` counted stage by stage. -/
theorem programShape : Obligations.ProgramShape := by
  intro m p l c brev hm
  obtain ⟨k, rfl⟩ : ∃ k, m = k + 1 := ⟨m - 1, by omega⟩
  exact ⟨prog_eq_append_endOp _ p l c brev, barCount_prog k p l c brev⟩

end Sys2Proof.Machine

namespace Sys2Proof.Machine

open Sys2Proof

/-! ### The barrier controller (43_barrier_controller.md R191, R192) -/

theorem exec_bar_of_releaseEnabled {s : State} (h : s.releaseEnabled = true) : exec .bar s = .next s.release := if_pos h

theorem exec_bar_of_not_releaseEnabled {s : State} (h : ¬ s.releaseEnabled = true) : exec .bar s = .next s := if_neg h

/-- Only the `pc` of a participant that has a context moves. -/
theorem State.release_worker_lt (s : State) (c : Nat) (hc : c < s.cores) (hl : c < s.workers.length) :
    s.release.worker c = { s.worker c with pc := (s.worker c).pc + 1 } :=
  State.worker_updateFirst_lt s _ _ _ c (State.release_workers s) hc hl

theorem State.release_worker_ge (s : State) (c : Nat) (hc : s.cores ≤ c) : s.release.worker c = s.worker c :=
  State.worker_updateFirst_ge s _ _ _ c (State.release_workers s) hc

/-- Settles O17: the two cases are those of `releaseEnabled`; a participant that is `RUN` has a context for the release
to move. -/
theorem barReleasesAllOrWaits : Obligations.BarReleasesAllOrWaits := by
  intro s
  rw [← s.releaseEnabled_iff]
  refine ⟨fun hen => ⟨s.release, exec_bar_of_releaseEnabled hen, ?participants, s.release_worker_ge, rfl⟩,
    exec_bar_of_not_releaseEnabled⟩
  case participants =>
    intro c hc
    obtain ⟨-, hbar⟩ := s.releaseEnabled_iff.mp hen
    have hrun : (s.worker c).ws = .run := (hbar c hc).1
    exact s.release_worker_lt c hc (s.lt_length_of_ws c (by simp [hrun]))

end Sys2Proof.Machine

namespace Sys2Proof.Machine

open Sys2Proof

/-! ## `SWPT` completes (44_bit_reversal_engine.md R207) -/

/-- The pair's table entries are the halfwords 4 bytes per pair into the BitReversalTable (20_memory.md R68). -/
theorem State.brevPtr_pair (s : State) (k : Nat) :
    s.brevPtr (2 * k) = s.regs.brevBase.toNat + 4 * k ∧ s.brevPtr (2 * k + 1) = s.regs.brevBase.toNat + 4 * k + 2 := by
  unfold State.brevPtr
  omega

/-- Recorded accesses of worker `cur` itself make none of its further accesses a race (20_memory.md R71). -/
theorem State.races_own_log (s : State) (acc l : List Access) (ha : ∀ x ∈ acc, x.worker = s.cur)
    (hl : ∀ y ∈ l, y.worker = s.cur) (h : s.races acc = false) :
    ({ s with log := l ++ s.log } : State).races acc = false := by
  obtain ⟨hover, hlog⟩ := Bool.or_eq_false_iff.1 h
  have hown : ∀ x ∈ acc, (l.any fun y => x.conflicts y) = false := fun x hx =>
    List.any_eq_false.2 fun y hy => by simp [Access.conflicts, ha x hx, hl y hy]
  refine Bool.or_eq_false_iff.2 ⟨hover, List.any_eq_false.2 fun x hx => ?_⟩
  rw [List.any_append, hown x hx, Bool.false_or]
  exact List.any_eq_false.1 hlog x hx

/-- Settles O15: every guard passes, the two table reads being no race with the same worker's sample accesses. -/
theorem swptCompletes : Obligations.SwptCompletes := by
  intro s p a b x y e0 e1 pa pb hadm h0 h1 hva hvb hclear hclear' ha hb han hbn hx hy
  obtain ⟨he0, he1⟩ : s.brevPtr (2 * p.toNat) = e0 ∧ s.brevPtr (2 * p.toNat + 1) = e1 := s.brevPtr_pair p.toNat
  have hclear'' := s.races_own_log _ [s.rd e0 2, s.rd e1 2] (by simp [State.rd, State.wr]) (by simp [State.rd]) hclear'
  clear_value e0 e1
  subst he0 he1
  exact (s.ifAdmitted_pos _ _ (by simpa [Instr.admitted] using hadm)).trans <|
    (s.withBus_valid _ _ (by simpa using ⟨h0, h1⟩)).trans <|
    (s.withAccess_clear _ _ hclear).trans <|
    ((s.noted p).withHalf_some _ a _ ha).trans <|
    ((s.noted p).withHalf_some _ b _ hb).trans <|
    (if_neg (Nat.not_le.2 han)).trans <|
    (if_neg (Nat.not_le.2 hbn)).trans <|
    ((s.noted p).withBus_valid _ _ (by simpa using ⟨hva, hvb⟩)).trans <|
    ((s.noted p).withAccess_clear _ _ hclear'').trans <|
    (State.withWord_some _ pa x _ hx).trans <|
    State.withWord_some _ pb y _ hy

/-! ## What `SWPT` leaves unchanged -/

/-- `SWPT p` passes every check and gets to the exchange of samples `a` and `b` (R207, R208, 20_memory.md R75). -/
structure State.Swaps (s : State) (p : Half) (a b : Nat) : Prop where
  admitted : 2 * p.toNat + 1 < s.regs.brevLen.toNat
  entriesValid : s.params.firstInvalid [(s.brevPtr (2 * p.toNat), 2), (s.brevPtr (2 * p.toNat + 1), 2)] = none
  entryA : Memory.readHalf s.mem (s.brevPtr (2 * p.toNat)) = some a
  entryB : Memory.readHalf s.mem (s.brevPtr (2 * p.toNat + 1)) = some b
  ltA : a < s.fftN
  ltB : b < s.fftN
  samplesValid : s.params.firstInvalid [(s.samplePtr a, 4), (s.samplePtr b, 4)] = none

/-- The memory after the words `x` at `pa` and `y` at `pb` have changed places (R207). -/
def Memory.exchange (m : Memory) (pa pb : Nat) (x y : Word) : Memory :=
  Memory.writeN (Memory.writeN m pa 4 y.toNat) pb 4 x.toNat

/-- Where every check passes, the two samples read change places. -/
theorem State.Swaps.mem {s t : State} {p : Half} {a b : Nat} (hs : s.Swaps p a b) (h : execSwpt p s = .next t) :
    ∃ x y, Memory.readWord s.mem (s.samplePtr a) = some x ∧ Memory.readWord s.mem (s.samplePtr b) = some y ∧
      t.mem = Memory.exchange s.mem (s.samplePtr a) (s.samplePtr b) x y := by
  rcases (execSwpt_next s t p h).2 with ⟨_, hx, -⟩ | ⟨-, -, a', b', ha, hb, h⟩
  · cases hx.symm.trans hs.entriesValid
  obtain rfl : a' = a := Option.some.inj (ha.symm.trans hs.entryA)
  obtain rfl : b' = b := Option.some.inj (hb.symm.trans hs.entryB)
  rcases h with ⟨hge, -⟩ | ⟨-, hge, -⟩ | ⟨-, -, _, hx, -⟩ | ⟨-, -, -, -, x, y, hx, hy, rfl⟩
  · exact absurd hs.ltA (Nat.not_lt.2 hge)
  · exact absurd hs.ltB (Nat.not_lt.2 hge)
  · cases hx.symm.trans hs.samplesValid
  · exact ⟨x, y, hx, hy, rfl⟩

/-- Where a check fails, the worker fault writes no memory (60_exceptions.md R280). -/
theorem execSwpt_mem_of_not_swaps {s t : State} {p : Half} (hs : ¬ ∃ a b, s.Swaps p a b) (h : execSwpt p s = .next t) :
    t.mem = s.mem := by
  obtain ⟨hadm, h⟩ := execSwpt_next s t p h
  rcases h with ⟨_, -, rfl⟩ | ⟨hv, -, a, b, ha, hb, h⟩
  · exact State.raiseFault_mem _ _ _
  rcases h with ⟨-, rfl⟩ | ⟨-, -, rfl⟩ | ⟨-, -, _, -, rfl⟩ | ⟨hlta, hltb, hv', -, -⟩
  · exact State.raiseFault_mem _ _ _
  · exact State.raiseFault_mem _ _ _
  · exact State.raiseFault_mem _ _ _
  · exact absurd ⟨a, b, of_decide_eq_true hadm, hv, ha, hb, hlta, hltb, hv'⟩ hs

/-- An exchange leaves every byte outside the two words. -/
theorem Memory.read_exchange_outside (m : Memory) (pa pb : Nat) (x y : Word) (k : Nat)
    (ha : ¬ (pa ≤ k ∧ k < pa + 4)) (hb : ¬ (pb ≤ k ∧ k < pb + 4)) :
    Memory.read (Memory.exchange m pa pb x y) k = Memory.read m k := by
  rw [Memory.exchange, Memory.read_writeN_outside 4 _ _ _ _ (by omega), Memory.read_writeN_outside 4 _ _ _ _ (by omega)]

/-- Settles O19: the frame of every micro-op that accesses memory; the samples exchanged are those the entries name. -/
theorem swptFrame : Obligations.SwptFrame := by
  intro s t p a b h ha hb
  refine ⟨(execSwpt_effect s t p h).microFrame, fun k hka hkb => ?_⟩
  by_cases hs : ∃ a b, s.Swaps p a b
  case neg => rw [execSwpt_mem_of_not_swaps hs h]
  obtain ⟨a', b', hs⟩ := hs
  obtain rfl : a' = a := Option.some.inj (hs.entryA.symm.trans ha)
  obtain rfl : b' = b := Option.some.inj (hs.entryB.symm.trans hb)
  obtain ⟨x, y, -, -, hm⟩ := hs.mem h
  rw [hm, Memory.read_exchange_outside _ _ _ _ _ k hka hkb]

/-! ## A second exchange undoes the first (44_bit_reversal_engine.md R212, 48_invariants_and_properties.md R259) -/

/-- Byte `i` of a value read is the byte at its address (20_memory.md R62). -/
theorem Memory.read_of_readN (n : Nat) : ∀ (m : Memory) (a v i : Nat), Memory.readN m a n = some v → i < n →
    Memory.read m (a + i) = some (BitVec.ofNat 8 (v / 256 ^ i)) := by
  induction n with
  | zero => intro m a v i _ hi; omega
  | succ n ih =>
    intro m a v i h hi
    simp only [Memory.readN] at h
    split at h
    case h_2 => cases h
    rename_i c r hc hr
    obtain rfl := Option.some.inj h
    have hlt := c.isLt
    cases i with
    | zero =>
      have hlow : BitVec.ofNat 8 (c.toNat + 256 * r) = c := BitVec.eq_of_toNat_eq (by rw [BitVec.toNat_ofNat]; omega)
      rw [Nat.add_zero, hc, pow_zero, Nat.div_one, hlow]
    | succ i =>
      have hhigh : (c.toNat + 256 * r) / 256 = r := by omega
      rw [show a + (i + 1) = a + 1 + i by omega, ih m (a + 1) r i hr (by omega), pow_succ', ← Nat.div_div_eq_div_mul,
        hhigh]

/-- Memories that hold the same word at `a` hold the same bytes there. -/
theorem Memory.read_congr_of_readWord (m m' : Memory) (a k : Nat) (w : Word) (h : Memory.readWord m a = some w)
    (h' : Memory.readWord m' a = some w) (hk : a ≤ k ∧ k < a + 4) : Memory.read m k = Memory.read m' k := by
  obtain ⟨i, rfl⟩ : ∃ i, k = a + i := ⟨k - a, by omega⟩
  obtain ⟨v, hv, rfl⟩ := Option.map_eq_some_iff.1 h
  obtain ⟨v', hv', hw⟩ := Option.map_eq_some_iff.1 h'
  have hlt := Memory.readN_lt 4 m a v hv
  have hlt' := Memory.readN_lt 4 m' a v' hv'
  obtain rfl : v' = v := by
    have := congrArg BitVec.toNat hw
    simp only [BitVec.toNat_ofNat] at this
    omega
  rw [Memory.read_of_readN 4 m a _ i hv (by omega), Memory.read_of_readN 4 m' a _ i hv' (by omega)]

section Exchange

variable (m : Memory) (pa pb : Nat) (x y : Word)

theorem Memory.readWord_exchange_right : Memory.readWord (Memory.exchange m pa pb x y) pb = some x :=
  Memory.readWord_writeN_self _ pb x

variable (hx : Memory.readWord m pa = some x) (hy : Memory.readWord m pb = some y)
  (hpos : pa = pb ∨ pa + 4 ≤ pb ∨ pb + 4 ≤ pa)
include hx hy hpos

/-- The two positions are one sample or apart; in the first case the exchange is of a word with itself (R207). -/
theorem Memory.readWord_exchange_left : Memory.readWord (Memory.exchange m pa pb x y) pa = some y := by
  rcases hpos with rfl | hpos
  · rw [Memory.readWord_exchange_right, ← hx, hy]
  · rw [Memory.exchange, Memory.readWord_writeN_outside _ _ _ _ hpos, Memory.readWord_writeN_self]

/-- The second exchange puts each word back: both read as before it all, and so does every byte. -/
theorem Memory.read_exchange_exchange (k : Nat) :
    Memory.read (Memory.exchange (Memory.exchange m pa pb x y) pa pb y x) k = Memory.read m k := by
  have hleft := Memory.readWord_exchange_left m pa pb x y hx hy hpos
  have hright := Memory.readWord_exchange_right m pa pb x y
  by_cases ha : pa ≤ k ∧ k < pa + 4
  · exact Memory.read_congr_of_readWord _ _ pa k x (Memory.readWord_exchange_left _ pa pb y x hleft hright hpos) hx ha
  by_cases hb : pb ≤ k ∧ k < pb + 4
  · exact Memory.read_congr_of_readWord _ _ pb k y (Memory.readWord_exchange_right _ pa pb y x) hy hb
  · rw [Memory.read_exchange_outside _ _ _ _ _ k ha hb, Memory.read_exchange_outside _ _ _ _ _ k ha hb]

end Exchange

/-- With the regions apart no sample shares a byte with a table entry (70_reset_and_hazards.md R322). -/
theorem State.regionsApart.entry_outside_sample {s : State} (h : s.regionsApart) (hbrev : s.regs.brev = true)
    (e k : Nat) (he : e < s.regs.brevLen.toNat) (hk : k < s.fftN) :
    s.brevPtr e + 2 ≤ s.samplePtr k ∨ s.samplePtr k + 4 ≤ s.brevPtr e := by
  have hsample : s.samplePtr 0 ≤ s.samplePtr k ∧ s.samplePtr k + 4 ≤ s.samplePtr s.fftN := by
    unfold State.samplePtr
    omega
  have hentry : s.brevPtr 0 ≤ s.brevPtr e ∧ s.brevPtr e + 2 ≤ s.brevPtr s.regs.brevLen.toNat := by
    unfold State.brevPtr
    omega
  by_contra hmeet
  have hbuf : s.inBuffer (max (s.brevPtr e) (s.samplePtr k)) = true := by
    simp only [State.inBuffer, Bool.and_eq_true, decide_eq_true_eq]
    omega
  have htable : s.inBrevTable (max (s.brevPtr e) (s.samplePtr k)) = true := by
    simp only [State.inBrevTable, Bool.and_eq_true, decide_eq_true_eq]
    exact ⟨⟨hbrev, by omega⟩, by omega⟩
  rw [(h _ hbuf).2] at htable
  cases htable

/-- The exchange leaves the table entries (R322), so a second `SWPT p` makes the same exchange. -/
theorem State.regionsApart.readHalf_exchange {s : State} (h : s.regionsApart) (hbrev : s.regs.brev = true) (e a b : Nat)
    (x y : Word) (he : e < s.regs.brevLen.toNat) (ha : a < s.fftN) (hb : b < s.fftN) :
    Memory.readHalf (Memory.exchange s.mem (s.samplePtr a) (s.samplePtr b) x y) (s.brevPtr e) =
      Memory.readHalf s.mem (s.brevPtr e) :=
  (Memory.readN_writeN_outside _ _ 4 _ _ 2 (h.entry_outside_sample hbrev e b he hb)).trans
    (Memory.readN_writeN_outside _ _ 4 _ _ 2 (h.entry_outside_sample hbrev e a he ha))

theorem State.samplePtr_congr {s t : State} (h : t.regs = s.regs) : t.samplePtr = s.samplePtr := by
  unfold State.samplePtr
  rw [h]

/-- Whether and what `SWPT p` exchanges depends on registers, parameters and the table entries alone. -/
theorem State.Swaps.congr {s t : State} {p : Half} {a b : Nat} (h : s.Swaps p a b) (hregs : t.regs = s.regs)
    (hparams : t.params = s.params)
    (hentry : ∀ e, e < s.regs.brevLen.toNat →
      Memory.readHalf t.mem (s.brevPtr e) = Memory.readHalf s.mem (s.brevPtr e)) :
    t.Swaps p a b := by
  have hbrev : t.brevPtr = s.brevPtr := by unfold State.brevPtr; rw [hregs]
  have hn : t.fftN = s.fftN := by unfold State.fftN; rw [hregs]
  have hsample := State.samplePtr_congr hregs
  obtain ⟨hadm, hv, ha, hb, hlta, hltb, hv'⟩ := h
  constructor <;> simpa only [hregs, hparams, hbrev, hsample, hn, hentry _ hadm,
    hentry (2 * p.toNat) (by omega)]

/-- Settles O25: the table entries stay, so the second `SWPT p` exchanges the same two samples; where the first
exchanges nothing, neither does the second. -/
theorem swapTwiceRestores : Obligations.SwapTwiceRestores := by
  intro s t u p hapart hbrev hst htu k
  obtain ⟨hregs, hparams, -⟩ := (execSwpt_effect s t p hst).microFrame
  by_cases hs : ∃ a b, s.Swaps p a b
  case neg =>
    have hmem := execSwpt_mem_of_not_swaps hs hst
    have ht : ¬ ∃ a b, t.Swaps p a b := fun ⟨a, b, ht⟩ =>
      hs ⟨a, b, ht.congr hregs.symm hparams.symm fun e _ => by rw [hmem]⟩
    rw [execSwpt_mem_of_not_swaps ht htu, hmem]
  case pos =>
    obtain ⟨a, b, hs⟩ := hs
    obtain ⟨x, y, hx, hy, hmem⟩ := hs.mem hst
    have ht : t.Swaps p a b := hs.congr hregs hparams fun e he => by
      rw [hmem, hapart.readHalf_exchange hbrev e a b x y he hs.ltA hs.ltB]
    have hpos : s.samplePtr a = s.samplePtr b ∨
        s.samplePtr a + 4 ≤ s.samplePtr b ∨ s.samplePtr b + 4 ≤ s.samplePtr a := by
      unfold State.samplePtr
      omega
    obtain ⟨x', y', hx', hy', hmem'⟩ := ht.mem htu
    rw [State.samplePtr_congr hregs, hmem] at hx' hy' hmem'
    obtain rfl : x' = y := Option.some.inj (hx'.symm.trans (Memory.readWord_exchange_left _ _ _ x y hx hy hpos))
    obtain rfl : y' = x := Option.some.inj (hy'.symm.trans (Memory.readWord_exchange_right _ _ _ x _))
    rw [hmem', Memory.read_exchange_exchange _ _ _ _ _ hx hy hpos]

end Sys2Proof.Machine

namespace Sys2Proof.Machine

open Sys2Proof

/-! ## `START`, accepted (45_launcher_and_host_commands.md R223 to R226) -/

section AcceptedStart

variable {s : State} (hctx : s.ctx = true) (hbusy : s.status.busy = false)
include hctx hbusy

theorem exec_start_of_configError {e : ErrCode} {info : Word} (h : configError s.params s.regs = some (e, info)) :
    exec .start s = .next (s.configRefused e info) := by
  simp [exec, execStart, hctx, hbusy, h, State.refuseConfig, State.acceptStart, State.configRefused]

theorem exec_start_of_inverse (h : configError s.params s.regs = none) (hinv : s.regs.inv = true) :
    exec .start s = .next s.acceptStart.inverseDone := by
  simp [exec, execStart, hctx, hbusy, h, hinv]

theorem exec_start_of_forward (h : configError s.params s.regs = none) (hinv : s.regs.inv = false) :
    exec .start s = .next s.acceptStart.fork := by
  simp [exec, execStart, hctx, hbusy, h, hinv]

end AcceptedStart

/-- Settles O28: each condition that `check_config()` tests is the failure of one check of R224, in R224's order. -/
theorem startReportsFirstConfigError : Obligations.StartReportsFirstConfigError := by
  classical
  intro s hctx hbusy r n c1 c2 c3 c4 c5 c6 c7 c8
  have refused {e : ErrCode} {info : Word} := exec_start_of_configError hctx hbusy (e := e) (info := info)
  have hpow : isPow2 n = false ↔ ¬ ∃ k, n = 2 ^ k := by rw [← isPow2_iff, Bool.not_eq_true]
  have hchecks : configError s.params s.regs =
      if ¬ c1 then some (.fftLen, r.fftLen) else if ¬ c2 then some (.nCores, r.ncores)
      else if ¬ c3 then some (.bufLen, r.bufLen) else if ¬ c4 then some (.twidLen, r.twidLen)
      else if ¬ c5 then some (.brevLen, r.brevLen) else if ¬ c6 then some (.addr, r.bufBase)
      else if ¬ c7 then some (.addr, r.twidBase) else if ¬ c8 then some (.addr, r.brevBase) else none := by
    have h1 : (n < 4 ∨ n > 2 ^ s.params.maxLog ∨ isPow2 n = false) ↔ ¬ c1 := by
      rw [hpow, not_and_or, not_and_or, not_le, not_le]
    have h2 : (r.ncores.toNat < 1 ∨ r.ncores.toNat > s.params.maxCores) ↔ ¬ c2 := by omega
    have h4 : r.twidLen.toNat < n / 2 ↔ ¬ c4 := not_le.symm
    have h5 : (r.brev = true ∧ (r.brevLen.toNat % 2 = 1 ∨ r.brevLen.toNat > n)) ↔ ¬ c5 := by
      rw [Classical.not_imp]
      exact and_congr_right fun _ => by omega
    have h6 : (r.bufBase.toNat % 4 ≠ 0 ∨ r.bufBase.toNat + 4 * n > 2 ^ 32) ↔ ¬ c6 := by omega
    have h7 : (r.twidBase.toNat % 4 ≠ 0 ∨ r.twidBase.toNat + 2 * n > 2 ^ 32) ↔ ¬ c7 := by omega
    have h8 : (r.brev = true ∧ (r.brevBase.toNat % 2 ≠ 0 ∨ r.brevBase.toNat + 2 * r.brevLen.toNat > 2 ^ 32)) ↔
        ¬ c8 := by
      rw [Classical.not_imp]
      exact and_congr_right fun _ => by omega
    simp only [← h1, ← h2, ← h4, ← h5, ← h6, ← h7, ← h8]
    rfl
  rw [hchecks] at refused
  -- In each clause the checks before the one that fails are passed by the clause's own hypotheses.
  and_intros <;> intros <;> exact refused (by simp only [*, not_true_eq_false, not_false_eq_true, if_true, if_false])

/-- Settles O30: the fork reaches the contexts `c < coreCount`, which exist because `check_config()` bounds
`coreCount`. -/
theorem startForks : Obligations.StartForks := by
  intro s hctx hbusy hlegal hinv hlen
  have hcores : s.cores ≤ s.workers.length := by
    obtain ⟨-, ⟨-, hmax⟩, -⟩ := hlegal
    exact hlen ▸ hmax
  refine ⟨s.acceptStart.fork, exec_start_of_forward hctx hbusy ((configError_none_iff _ _).2 hlegal) hinv, ?run, ?spare,
    rfl⟩
  case run =>
    exact fun c hc => State.worker_updateFirst_lt s _ _ _ c (State.fork_workers _) hc (hc.trans_le hcores)
  case spare =>
    exact fun c => State.worker_updateFirst_ge s _ _ _ c (State.fork_workers _)

/-- Settles O29: accepted, the checks pass, and no fork is made. -/
theorem inverseRequestCompletes : Obligations.InverseRequestCompletes := fun _ hctx hbusy hlegal hinv =>
  exec_start_of_inverse hctx hbusy ((configError_none_iff _ _).2 hlegal) hinv

/-! ## The commands, turned away or while idle (R221, R222, R230, R231, 30_encoding.md R101) -/

/-- Settles O26: the context check comes first. -/
theorem startWithoutContext : Obligations.StartWithoutContext := fun _ hctx => if_pos hctx

/-- A command is ignored while `BUSY`, but for a `START` that already the context check turns away (R222). -/
theorem exec_command_of_busy {s : State} {i : Instr} (hbusy : s.status.busy = true) (hi : i.isMicroOp = false)
    (hctx : i = .start → s.ctx = true) : exec i s = .next s.setOvr := by
  by_cases hs : i = .start
  · subst hs
    simp [exec, execStart, hctx rfl, hbusy]
  · rcases exec_command_cases s i hi hs with ⟨-, e⟩ | ⟨hidle, -⟩ | ⟨hidle, -⟩
    · exact e
    all_goals exact absurd hbusy (by simp [hidle])

/-- Settles O27: the four commands by one lemma. -/
theorem commandWhileBusySetsOvr : Obligations.CommandWhileBusySetsOvr := fun _ hbusy =>
  ⟨fun hctx => exec_command_of_busy hbusy rfl fun _ => hctx, exec_command_of_busy hbusy rfl nofun,
    exec_command_of_busy hbusy rfl nofun, exec_command_of_busy hbusy rfl nofun⟩

/-- Settles O31: while idle `BUSY` is 0 already, so every bit of `STATUS` is, and with it `irq`. -/
theorem clearCommand : Obligations.ClearCommand := by
  refine fun s => ⟨fun hbusy => exec_command_of_busy hbusy rfl nofun, fun hidle => ⟨?_, ?_⟩⟩
  · simp [exec, execClear, hidle, State.clearStatus]
  · simp [State.irq]

/-- Settles O32: either command is `NOP`'s busy check and nothing more. -/
theorem nopAndReservedCommands : Obligations.NopAndReservedCommands := by
  refine fun s => ⟨fun hidle => ?_, fun hbusy =>
    ⟨exec_command_of_busy hbusy rfl nofun, exec_command_of_busy hbusy rfl nofun⟩⟩
  simp [exec, execNop, execReservedCmd3, hidle]

/-- Settles O33: in every case of `execStart_cases` and `exec_command_cases` the next state is an update of fields that
the statement leaves open. -/
theorem commandFrame : Obligations.CommandFrame := by
  intro s i hi
  by_cases hs : i = .start
  · subst hs
    rcases execStart_cases s with ⟨-, e⟩ | ⟨-, -, e⟩ | ⟨-, -, ⟨_, _, -, e⟩ | ⟨-, -, e⟩ | ⟨-, -, e⟩⟩ <;>
      exact ⟨_, e, rfl, rfl, rfl, rfl, rfl, rfl, rfl, rfl, rfl, fun h => absurd rfl h⟩
  · rcases exec_command_cases s i hi hs with ⟨-, e⟩ | ⟨-, -, e⟩ | ⟨-, -, e⟩ <;>
      exact ⟨_, e, rfl, rfl, rfl, rfl, rfl, rfl, rfl, rfl, rfl, fun _ => ⟨rfl, rfl, rfl⟩⟩

/-! ## `END` and the join (R228, R229) -/

/-- Settles O16: nothing is issued to a worker that is not `RUN`. -/
theorem endCompletes : Obligations.EndCompletes := by
  refine fun s => ⟨rfl, fun hc => State.issued_none _ _ ?_⟩
  rw [State.worker_set_self s _ s.cur _ rfl hc]
  simp

/-- Settles O42: the hypotheses are what enables the join. -/
theorem joinCompletes : Obligations.JoinCompletes := fun s hbusy hended =>
  ⟨s.join, if_pos (s.joinEnabled_iff.2 ⟨hbusy, hended⟩), fun c => State.worker_map_idle s _ c (State.join_workers s),
    rfl, rfl⟩

end Sys2Proof.Machine

namespace Sys2Proof.Machine

open Sys2Proof

/-! ## The registers at their offsets (10_state.md R27, 45_launcher_and_host_commands.md R232, R233) -/

/-- Where a register stands in the window: `HostReg` lists the registers in the order of R27's table, a word each. -/
def HostReg.offset (r : HostReg) : Nat := 4 * r.ctorIdx

theorem HostReg.ofOffset_eq_some_iff (o : Nat) (r : HostReg) : HostReg.ofOffset o = some r ↔ o = r.offset := by
  constructor
  · intro h
    unfold HostReg.ofOffset at h
    split at h <;> cases h <;> rfl
  · rintro rfl
    cases r <;> rfl

/-- `FLAGS` keeps bits 1:0 of what is written (R36). -/
theorem Regs.flagsWord_written (r : Regs) (v : Word) :
    { r with inv := v.getLsbD 0, brev := v.getLsbD 1 }.flagsWord = v &&& 3 := by
  apply BitVec.eq_of_toNat_eq
  have hand : (v &&& 3).toNat = v.toNat % 4 := Nat.and_two_pow_sub_one_eq_mod v.toNat 2
  rw [Regs.toNat_flagsWord, hand]
  simp only [BitVec.getLsbD, Nat.toNat_testBit]
  omega

/-- `CTRL` keeps bit 0 of what is written (R39). -/
theorem Regs.ctrlWord_written (r : Regs) (v : Word) : { r with ie := v.getLsbD 0 }.ctrlWord = v &&& 1 := by
  apply BitVec.eq_of_toNat_eq
  have hand : (v &&& 1).toNat = v.toNat % 2 := Nat.and_two_pow_sub_one_eq_mod v.toNat 1
  rw [Regs.toNat_ctrlWord, hand]
  simp only [BitVec.getLsbD, Nat.toNat_testBit]
  omega

section AcceptedWrite

variable (s : State) (r : HostReg) (v : Word) (h : r = .ctrl ∨ s.status.busy = false)
include h

/-- A write that R40 does not lock out changes the registers alone. -/
theorem State.writeReg_regs_only : s.writeReg r v = { s with regs := (s.writeReg r v).regs } := by
  rcases h with rfl | hidle
  · rfl
  · cases r <;> simp [State.writeReg, s.lockedWrite_idle _ hidle]

theorem State.readReg_writeReg_ne (q : HostReg) (hq : q ≠ r) : (s.writeReg r v).readReg q = s.readReg q := by
  rcases h with rfl | hidle
  · cases q <;> simp_all [State.writeReg, State.readReg, Regs.flagsWord]
  · cases r <;> simp only [State.writeReg, s.lockedWrite_idle _ hidle] <;> cases q <;>
      simp_all [State.readReg, Regs.flagsWord, Regs.ctrlWord]

/-- A host write of a register other than `CMD`: the register at the offset takes it, no other changes (R233). -/
theorem State.regWrite_readBack (o : Nat) (ctx : Bool) (h4 : o % 4 = 0) (hlt : o < 64)
    (hr : HostReg.ofOffset o = some r) (hcmd : r ≠ .cmd) :
    ∃ t, takeTurn (.regWrite (s.params.regAddr o) 4 v ctx) s = .next t ∧ t.readOffset o = (s.writeReg r v).readReg r ∧
      (∀ q, q ≠ o → t.readOffset q = s.readOffset q) ∧ t = { s with regs := t.regs } := by
  refine ⟨s.writeReg r v, s.hostWrite_reg o v ctx r h4 hlt hr hcmd, ?same, ?others, s.writeReg_regs_only r v h⟩
  case same => rw [State.readOffset, hr]
  case others =>
    intro q hq
    unfold State.readOffset
    cases hx : HostReg.ofOffset q with
    | none => rfl
    | some x =>
      refine s.readReg_writeReg_ne r v h x ?_
      rintro rfl
      rw [HostReg.ofOffset_eq_some_iff] at hr hx
      exact hq (hx.trans hr.symm)

end AcceptedWrite

/-- What a configuration register reads back (R29 to R38). -/
theorem State.readReg_writeReg_config (o : Nat) (h4 : o % 4 = 0) (hlo : 4 ≤ o) (hhi : o ≤ 0x28) :
    ∃ r, HostReg.ofOffset o = some r ∧ r ≠ .cmd ∧ ∀ (s : State) (v : Word), s.status.busy = false →
      (s.writeReg r v).readReg r = if o = 0x20 then v &&& 3 else v := by
  obtain ⟨k, rfl⟩ : ∃ k, o = 4 * k := ⟨o / 4, by omega⟩
  obtain ⟨h1, h10⟩ : 1 ≤ k ∧ k ≤ 10 := by omega
  interval_cases k <;> refine ⟨_, rfl, by decide, fun s v hidle => ?_⟩ <;>
    simp only [State.writeReg, s.lockedWrite_idle _ hidle, State.readReg, Regs.flagsWord_written, Nat.reduceMul,
      Nat.reduceEqDiff, reduceIte]

/-- Settles O34: configuration registers, `CTRL`, and the offsets whose register ignores a write. -/
theorem registerWriteReadBack : Obligations.RegisterWriteReadBack := by
  intro s o v ctx h4
  refine ⟨fun hlo hhi hidle => ?config, ?ctrl, ?ignored⟩
  case config =>
    obtain ⟨r, hr, hcmd, hread⟩ := State.readReg_writeReg_config o h4 hlo hhi
    rw [← hread s v hidle]
    exact s.regWrite_readBack r v (.inr hidle) o ctx h4 (by omega) hr hcmd
  case ctrl =>
    rintro rfl
    rw [← s.regs.ctrlWord_written v]
    exact s.regWrite_readBack .ctrl v (.inl rfl) 0x2C ctx h4 (by decide) rfl (by decide)
  case ignored =>
    rintro (rfl | rfl | rfl | rfl)
    · exact s.hostWrite_reg 0 v ctx .cap h4 (by decide) rfl (by decide)
    · exact s.hostWrite_reg 0x34 v ctx .status h4 (by decide) rfl (by decide)
    · exact s.hostWrite_reg 0x38 v ctx .errInfo h4 (by decide) rfl (by decide)
    · change s.hostWrite _ 4 v ctx = _
      rw [State.hostWrite, s.withOffset_regAddr 0x3C _ (by decide) h4]
      rfl

/-- `CAP` shows the parameters, which R7's ranges keep within its two bytes (R28). -/
theorem Params.toNat_capWord (p : Params) (h : p.legal = true) : p.capWord.toNat = 256 * p.maxLog + p.maxCores := by
  simp only [Params.legal, Bool.and_eq_true, decide_eq_true_eq] at h
  simp only [Params.capWord, toNat_append_add, BitVec.toNat_ofNat]
  omega

/-- Settles O36: the access reaches its offset, and the table of R27 is read off. -/
theorem registerReads : Obligations.RegisterReads := fun s o h4 hlt =>
  ⟨s.withOffset_regAddr o (fun o => .next { s with rdata := s.readOffset o }) hlt h4, s.params.toNat_capWord,
    rfl, rfl, rfl, rfl, rfl, rfl, rfl, rfl, rfl, rfl, rfl, rfl, rfl, rfl, rfl⟩

end Sys2Proof.Machine

namespace Sys2Proof.Machine

open Sys2Proof

/-! ## The turns that run an operation, and those that pass (45_launcher_and_host_commands.md R227, R239) -/

theorem eq_barWord_iff {w : UWord} {i : Instr} (h : decode (.u w) = .ok i) : w = barWord ↔ i = .bar := by
  rw [← encode_eq_barWord, decodedMicroOpIsItsEncoding w i h, Code.u.injEq]

/-- A micro-op is encoded in format U (30_encoding.md R90). -/
theorem exists_encode_eq_u {i : Instr} (h : i.isMicroOp = true) : ∃ u, encode i = .u u := by
  cases i <;> simp_all [encode, Instr.isMicroOp]

theorem State.runWord_of_decode (s : State) (c : Nat) {w : UWord} {i : Instr} (h : decode (.u w) = .ok i) :
    s.runWord c w = exec i { s with cur := c, trace := s.trace ++ [(c, w)] } := by
  rw [State.runWord, h]

theorem State.workerTurn_of_issued (s : State) (c : Nat) {w : UWord} {i : Instr} (hw : s.issued c = some (.u w))
    (h : decode (.u w) = .ok i) (hi : i ≠ .bar) :
    s.workerTurn c = exec i { s with cur := c, trace := s.trace ++ [(c, w)] } := by
  rw [State.workerTurn, hw, ← s.runWord_of_decode c h]
  exact if_neg (mt (eq_barWord_iff h).1 hi)

theorem State.issueTurn_of_takesWord (s : State) (c : Nat) {w : UWord} {i : Instr} (ht : s.takesWord c = true)
    (h : decode (.u w) = .ok i) (hi : i ≠ .bar) :
    s.issueTurn c w = exec i { s with cur := c, trace := s.trace ++ [(c, w)] } :=
  (if_pos ⟨ht, mt (eq_barWord_iff h).1 hi⟩).trans (s.runWord_of_decode c h)

/-- A `CMD` write is a command (R41). -/
theorem State.hostWrite_cmd (s : State) (v : Word) (ctx : Bool) :
    s.hostWrite (s.params.regAddr 0x30) 4 v ctx = exec (decodeC v) { s with ctx := ctx } :=
  s.withOffset_regAddr 0x30 _ (by decide) rfl

/-- Settles O40: the turn is taken off the list, and each kind of turn runs its word. -/
theorem stepRunsDecodedInstruction : Obligations.StepRunsDecodedInstruction := by
  intro s rest c w v x i j
  refine ⟨fun ht hw h hi => ?issued, fun ht hr hn hi => ?scheduled, step_cons s _ rest, fun ht h => ?command,
    fun ht hr hn hj h hi => ?handed⟩
  case issued =>
    rw [step_cons s _ rest ht]
    exact State.workerTurn_of_issued _ c hw h hi
  case scheduled =>
    obtain ⟨u, hu⟩ := exists_encode_eq_u (s.isMicroOp_of_nextOp c i hn)
    refine ⟨u, hu, ?_⟩
    rw [step_cons s _ rest ht]
    have hissued : s.issued c = some (.u u) := (s.issued_run c i hr hn).trans (congrArg some hu)
    exact State.workerTurn_of_issued _ c hissued (hu ▸ decode_encode_op i) hi
  case command =>
    obtain rfl : decodeC v = i := Except.ok.inj h
    rw [step_cons s _ rest ht]
    exact State.hostWrite_cmd _ v x
  case handed =>
    rw [step_cons s _ rest ht]
    exact State.issueTurn_of_takesWord _ c ((s.takesWord_iff c).2 ⟨hr, j, hn, hj⟩) h hi

/-- A worker that is not `RUN`, or that stands at `BAR`, is not enabled (R227). -/
theorem State.workerTurn_of_disabled (s : State) (c : Nat) (h : (s.worker c).ws ≠ .run ∨ s.nextOp c = some .bar) :
    s.workerTurn c = .next s := by
  by_cases hr : (s.worker c).ws = .run
  · have hbar : s.nextOp c = some .bar := h.resolve_left (not_not_intro hr)
    rw [State.workerTurn, s.issued_run c .bar hr hbar]
    rfl
  · rw [State.workerTurn, s.issued_none c hr]

/-- Settles O41: no turn that names an agent that is not enabled meets its guard. -/
theorem disabledAgentsTakeNoStep : Obligations.DisabledAgentsTakeNoStep := by
  intro s c w
  refine ⟨fun h => ⟨s.workerTurn_of_disabled c h, if_neg ?handed⟩, fun h => if_neg ?bar, fun h => if_neg ?join⟩
  case handed =>
    rintro ⟨ht, -⟩
    obtain ⟨hr, j, hj, hmem⟩ := (s.takesWord_iff c).1 ht
    obtain rfl : j = .bar := Option.some.inj (hj.symm.trans (h.resolve_left (not_not_intro hr)))
    cases hmem
  case bar => exact fun hw => hw.2 ((eq_barWord_iff h).2 rfl)
  case join =>
    rw [s.joinEnabled_iff]
    rintro ⟨hbusy, hended⟩
    rcases h with hidle | ⟨d, hd, hne⟩
    · simp [hidle] at hbusy
    · exact hne (hended d hd)

end Sys2Proof.Machine

namespace Sys2Proof.Machine

open Sys2Proof

/-! ## The partition of a stage's work (42_stage_scheduler.md R162, 48_invariants_and_properties.md R251) -/

theorem ceilDiv_pos {n p x : Nat} (hp : 1 ≤ p) (hx : x < n) : 0 < ceilDiv n p := by
  have h := le_mul_ceilDiv n p hp
  exact Nat.pos_of_ne_zero fun h0 => by rw [h0] at h; omega

/-- The owner of an item is its quotient by the block size. -/
theorem mem_owned_iff_div (c n p x : Nat) (hp : 1 ≤ p) : x ∈ owned c n p ↔ x < n ∧ x / ceilDiv n p = c := by
  rw [mem_owned]
  constructor
  · rintro ⟨hlo, hhi, hx⟩
    exact ⟨hx, Nat.div_eq_of_lt_le hlo hhi⟩
  · rintro ⟨hx, rfl⟩
    exact ⟨Nat.div_mul_le_self x _, Nat.lt_mul_of_div_lt (Nat.lt_succ_self _) (ceilDiv_pos hp hx), hx⟩

/-- Settles O46: the owner of an item, its quotient by the block size, is one of the `P` workers. -/
theorem blockPartitionCovers : Obligations.BlockPartitionCovers := by
  intro n p hp
  simp only [mem_owned_iff_div _ n p _ hp]
  refine ⟨fun x => ⟨fun hx => ⟨_, ?owner, hx, rfl⟩, fun ⟨_, _, hx, _⟩ => hx⟩, fun _ _ _ hc hd => hc.2.symm.trans hd.2⟩
  case owner => exact Nat.div_lt_of_lt_mul (Nat.lt_of_lt_of_le hx (Nat.mul_comm p _ ▸ le_mul_ceilDiv n p hp))

/-- The shares of the first `q` workers, one after the other, are the items up to the `q`-th block's bound. -/
theorem flatMap_owned_range (n p q : Nat) :
    ((List.range q).flatMap fun c => owned c n p) = List.range (min (q * ceilDiv n p) n) := by
  induction q with
  | zero => simp
  | succ q ih =>
    have hbound : (q + 1) * ceilDiv n p = q * ceilDiv n p + ceilDiv n p := Nat.succ_mul _ _
    rw [List.range_succ, List.flatMap_append, ih, List.flatMap_singleton, owned, block]
    by_cases hq : n ≤ q * ceilDiv n p
    · rw [if_pos hq, Nat.sub_self, List.range'_zero, List.append_nil, Nat.min_eq_right hq, Nat.min_eq_right (by omega)]
    · rw [if_neg hq, Nat.min_eq_left (Nat.le_of_not_le hq), List.range_eq_range', List.range_eq_range']
      have happend := List.range'_append_1 (s := 0) (m := q * ceilDiv n p)
        (n := min ((q + 1) * ceilDiv n p) n - q * ceilDiv n p)
      rwa [Nat.zero_add, Nat.add_sub_cancel' (by omega)] at happend

/-- The shares of all workers, one after the other, are all items in order (R162, R251). -/
theorem flatMap_owned (n p : Nat) (hp : 1 ≤ p) : ((List.range p).flatMap fun c => owned c n p) = List.range n := by
  rw [flatMap_owned_range, Nat.min_eq_right (le_mul_ceilDiv n p hp)]

/-- A worker alone owns every item (R162). -/
theorem owned_one (n : Nat) : owned 0 n 1 = List.range n := by
  simpa using flatMap_owned n 1 (Nat.le_refl 1)

/-! ## A stage's work does not depend on the core count (R254) -/

/-- Whatever each item stands for, the shares one after the other are the share of a worker alone. -/
theorem flatMap_owned_flatMap {α : Type} (n p : Nat) (hp : 1 ≤ p) (f : Nat → List α) :
    ((List.range p).flatMap fun c => (owned c n p).flatMap f) = (owned 0 n 1).flatMap f := by
  rw [← List.flatMap_assoc, flatMap_owned n p hp, owned_one]

theorem flatMap_owned_map {α : Type} (n p : Nat) (hp : 1 ≤ p) (f : Nat → α) :
    ((List.range p).flatMap fun c => (owned c n p).map f) = (owned 0 n 1).map f := by
  rw [← List.map_flatMap, flatMap_owned n p hp, owned_one]

/-- Settles O50: each body is a list over the worker's share, and the shares one after the other are one worker's. -/
theorem stageWorkIndependentOfCoreCount : Obligations.StageWorkIndependentOfCoreCount := by
  intro n n1 mod l p brev hp
  refine ⟨flatMap_owned_flatMap (n1 / 2) p hp _, flatMap_owned_map (n / 2) p hp _, ?brev⟩
  case brev =>
    cases brev with
    | false => simp [brevBody]
    | true => exact flatMap_owned_map (l / 2) p hp _

/-! ## Every sample index is named once in a stage (R252, R253) -/

theorem length_samples_le (i : Instr) : i.samples.length ≤ 2 := by
  cases i <;> simp [Instr.samples]

/-- Half as many butterflies as samples that leave no sample out name each exactly once. -/
theorem samples_perm_range (l : List Instr) (n : Nat) (hlen : l.length * 2 ≤ n)
    (hcover : ∀ x, x < n → ∃ i ∈ l, x ∈ i.samples) : (l.flatMap Instr.samples).Perm (List.range n) := by
  have hsub : List.range n ⊆ l.flatMap Instr.samples := fun x hx =>
    List.mem_flatMap.2 (hcover x (List.mem_range.1 hx))
  have hcount : (l.flatMap Instr.samples).length ≤ (List.range n).length := by
    rw [List.length_flatMap, List.length_range]
    refine Nat.le_trans (List.sum_le_card_nsmul _ 2 fun k hk => ?_) (by simpa using hlen)
    obtain ⟨i, -, rfl⟩ := List.mem_map.1 hk
    exact length_samples_le i
  exact ((List.subperm_of_subset List.nodup_range hsub).perm_of_length_le hcount).symm

/-- One worker's twiddle stage with group size `2e` over `2eq` samples has the butterfly of every factor in every group
(42_stage_scheduler.md R163). -/
theorem bfly_mem_stageBody {e q mod j t : Nat} (hj : j < e) (ht : t < q) :
    .bfly (idx (j + 2 * e * t)) (idx (j + 2 * e * t + e)) (idx (mod * j)) ∈ stageBody (2 * e * q) (2 * e) mod 0 1 := by
  have hhalf : 2 * e / 2 = e := Nat.mul_div_cancel_left e (by decide)
  refine (mem_stageBody _ _ _ _ _ _).2 ⟨j, ?owned, (mem_groupOps _ _ _ _ _).2 ⟨j + 2 * e * t, ?start, by rw [hhalf]⟩⟩
  case owned => rwa [hhalf, owned_one, List.mem_range]
  case start =>
    have hgroups := le_mul_ceilDiv (2 * e * q - j) (2 * e) (by omega)
    have hlast : 2 * e * (t + 1) ≤ 2 * e * q := Nat.mul_le_mul_left _ ht
    rw [Nat.mul_succ] at hlast
    exact List.mem_range'.2 ⟨t, Nat.lt_of_mul_lt_mul_left (a := 2 * e) (by omega), rfl⟩

/-- Its butterflies leave no sample out: a sample lies in the lower or the upper half of its group. -/
theorem exists_mem_stageBody_samples {e q mod x : Nat} (hn : 2 * e * q ≤ 2 ^ 16) (hx : x < 2 * e * q) :
    ∃ i ∈ stageBody (2 * e * q) (2 * e) mod 0 1, x ∈ i.samples := by
  have he : 0 < 2 * e := Nat.pos_of_mul_pos_right (Nat.zero_lt_of_lt hx)
  have ht : x / (2 * e) < q := Nat.div_lt_of_lt_mul hx
  have hsum := Nat.mod_add_div x (2 * e)
  have hlt := Nat.mod_lt x he
  by_cases hlow : x % (2 * e) < e
  · refine ⟨_, bfly_mem_stageBody hlow ht, ?_⟩
    simp [Instr.samples, hsum, idx_toNat x (by omega)]
  · refine ⟨_, bfly_mem_stageBody (j := x % (2 * e) - e) (by omega) ht, ?_⟩
    have hup : x % (2 * e) - e + 2 * e * (x / (2 * e)) + e = x := by omega
    simp [Instr.samples, hup, idx_toNat x (by omega)]

theorem exists_mem_finalBody_samples {n x : Nat} (hn : n ≤ 2 ^ 16) (heven : n % 2 = 0) (hx : x < n) :
    ∃ i ∈ finalBody n 0 1, x ∈ i.samples := by
  have hpair : x / 2 ∈ owned 0 (n / 2) 1 := by rw [owned_one, List.mem_range]; omega
  refine ⟨_, (mem_finalBody _ _ _ _).2 ⟨_, hpair, rfl⟩, ?_⟩
  simp only [Instr.samples, List.mem_cons, List.not_mem_nil, or_false]
  rw [idx_toNat (2 * (x / 2)) (by omega), idx_toNat (2 * (x / 2) + 1) (by omega)]
  omega

/-- Settles O49: the workers' butterflies of a stage are one worker's, `N / 2` in number, and leave no sample out. -/
theorem stageTouchesEachSampleOnce : Obligations.StageTouchesEachSampleOnce := by
  intro m p hm hm16 hp
  have hn : 2 ^ m ≤ 2 ^ 16 := Nat.pow_le_pow_right (by decide) hm16
  refine ⟨fun k hk hkm => ?twiddle, ?final⟩
  case twiddle =>
    obtain ⟨k, rfl⟩ : ∃ j, k = j + 1 := ⟨k - 1, by omega⟩
    rw [(stageWorkIndependentOfCoreCount _ _ _ 0 p false hp).1]
    have hgroup : 2 ^ (k + 1) = 2 * 2 ^ k := pow_succ' 2 k
    have hsize : 2 ^ m = 2 * 2 ^ k * 2 ^ (m - (k + 1)) := by rw [← hgroup, ← pow_add, Nat.add_sub_cancel' hkm]
    generalize 2 ^ (m - (k + 1)) = q at hsize ⊢
    rw [hgroup, hsize]
    rw [hsize] at hn
    refine samples_perm_range _ _ ?_ fun x hx => exists_mem_stageBody_samples hn hx
    have hlen := length_stageBody_le (2 * 2 ^ k) q q 0 1 (by positivity)
    rw [Nat.mul_div_cancel_left _ (by decide)] at hlen
    exact (Nat.mul_le_mul_right 2 hlen).trans_eq (by ring)
  case final =>
    rw [(stageWorkIndependentOfCoreCount _ 0 0 0 p false hp).2.1]
    have heven : 2 ^ m % 2 = 0 := Nat.mod_eq_zero_of_dvd (dvd_pow_self 2 (by omega))
    refine samples_perm_range _ _ ?_ fun x hx => exists_mem_finalBody_samples hn heven hx
    rw [finalBody, List.length_map, owned_one, List.length_range]
    exact Nat.div_mul_le_self _ 2
end Sys2Proof.Machine

namespace Sys2Proof.Machine

open Sys2Proof

/-! ## Who writes memory (20_memory.md R60, 48_invariants_and_properties.md R255) -/

/-- A byte outside the SampleBuffer is a byte of no sample (10_state.md R43). -/
theorem State.outside_sample_of_outside_buffer {s : State} {x k : Nat} (hx : s.inBuffer x = false) (hk : k < s.fftN) :
    x < s.samplePtr k ∨ s.samplePtr k + 4 ≤ x := by
  rw [State.inBuffer, ← Bool.not_eq_true, Bool.and_eq_true, decide_eq_true_eq, decide_eq_true_eq] at hx
  unfold State.samplePtr at *
  omega

/-- A micro-op stores samples and nothing else: a byte outside the SampleBuffer stays. -/
theorem MemoryEffect.read_outside_buffer {s t : State} (h : MemoryEffect s t) (x : Nat) (hx : s.inBuffer x = false) :
    Memory.read t.mem x = Memory.read s.mem x := by
  cases h with
  | fault l e v _ _ h => rw [h, State.raiseFault_mem]
  | stores l a b u v w ha hb _ _ _ _ _ h =>
    rw [h, Memory.read_writeN_outside 4 _ _ _ _ (State.outside_sample_of_outside_buffer hx hb),
      Memory.read_writeN_outside 4 _ _ _ _ (State.outside_sample_of_outside_buffer hx ha)]

/-- What a worker executes in its turn is a micro-op that accesses memory, or `END` (42_stage_scheduler.md R160). -/
theorem State.accesses_or_end_of_nextOp {s : State} {c : Nat} {i : Instr} (h : s.nextOp c = some i) (hbar : i ≠ .bar) :
    i.accessesMemory = true ∨ i = .endOp := by
  rcases mem_prog _ _ _ _ _ i (List.mem_of_getElem? h) with h | h | h
  · exact absurd h hbar
  · exact .inr h
  · exact .inl h

theorem State.workerTurn_read_outside_buffer {s t : State} {c : Nat} (h : s.workerTurn c = .next t) (x : Nat)
    (hx : s.inBuffer x = false) : Memory.read t.mem x = Memory.read s.mem x := by
  rcases s.workerTurn_next t c h with rfl | ⟨i, w, -, hi, hbar, h⟩
  · rfl
  rcases State.accesses_or_end_of_nextOp hi hbar with hmem | rfl
  · exact (exec_memory_effect _ t i hmem h).read_outside_buffer x hx
  · cases h
    rfl

theorem exec_bar_mem {s t : State} (h : exec .bar s = .next t) : t.mem = s.mem := by
  by_cases hen : s.releaseEnabled = true
  · rw [exec_bar_of_releaseEnabled hen] at h
    cases h
    exact State.release_mem s
  · rw [exec_bar_of_not_releaseEnabled hen] at h
    cases h
    rfl

theorem State.joinTurn_mem {s t : State} (h : s.joinTurn = .next t) : t.mem = s.mem := by
  unfold State.joinTurn at h
  split at h <;> cases h
  · exact State.join_mem s
  · rfl

/-- Settles O57: a worker's turn runs `END` or a micro-op whose stores are samples; the other two turns store nothing. -/
theorem workersWriteOnlyTheBuffer : Obligations.WorkersWriteOnlyTheBuffer := fun _ _ _ x =>
  ⟨fun h hx => State.workerTurn_read_outside_buffer h x hx, fun h => h.elim exec_bar_mem State.joinTurn_mem⟩

end Sys2Proof.Machine

namespace Sys2Proof.Machine

open Sys2Proof

/-! ## Conflicts between two workers' accesses (20_memory.md R71) -/

theorem Access.conflicts_comm (x y : Access) : x.conflicts y = y.conflicts x := by
  simp only [Access.conflicts, Access.overlaps, bne_comm, Bool.or_comm, Bool.and_comm]

/-- No access of the one list conflicts with an access of the other. -/
def ConflictFree (acc acc' : List Access) : Prop := ∀ x ∈ acc, ∀ y ∈ acc', x.conflicts y = false

theorem ConflictFree.symm {acc acc' : List Access} (h : ConflictFree acc acc') : ConflictFree acc' acc :=
  fun x hx y hy => (x.conflicts_comm y).trans (h y hy x hx)

theorem State.races_eq_false_iff (s : State) (acc : List Access) :
    s.races acc = false ↔ s.overlapRace = false ∧ ConflictFree acc s.log := by
  simp only [State.races, ConflictFree, Bool.or_eq_false_iff, List.any_eq_false, Bool.not_eq_true]

/-- More in the record is no race exactly when none of it conflicts. -/
theorem State.races_log_append (s : State) (acc l : List Access) :
    ({ s with log := l ++ s.log } : State).races acc = false ↔ ConflictFree acc l ∧ s.races acc = false := by
  rw [State.races_eq_false_iff, State.races_eq_false_iff]
  simp only [ConflictFree, List.forall_mem_append, forall₂_and]
  exact and_left_comm

theorem State.races_append (s : State) (acc acc' : List Access) :
    s.races (acc ++ acc') = false ↔ s.races acc = false ∧ s.races acc' = false := by
  simp only [State.races_eq_false_iff, ConflictFree, List.forall_mem_append]
  exact and_and_left

/-- Without a conflict no byte of an access is in a word another worker writes. -/
theorem Access.outside_of_not_conflicts {x y : Access} {k : Nat} (h : x.conflicts y = false) (hne : x.worker ≠ y.worker)
    (hw : y.write = true) (hk : x.addr ≤ k ∧ k < x.addr + x.size) : k < y.addr ∨ y.addr + y.size ≤ k := by
  by_contra hin
  rw [(Access.conflicts_iff x y (by omega) (by omega)).2 ⟨hne, .inr hw, k, hk, by omega⟩] at h
  cases h

/-! ## What a completed micro-op depends on (20_memory.md R60) -/

/-- The memories hold the same bytes where the accesses reach. -/
def AgreeOn (acc : List Access) (m m' : Memory) : Prop :=
  ∀ x ∈ acc, ∀ k, x.addr ≤ k ∧ k < x.addr + x.size → Memory.read m' k = Memory.read m k

theorem AgreeOn.readN {acc : List Access} {m m' : Memory} (h : AgreeOn acc m m') {x : Access} (hx : x ∈ acc) :
    Memory.readN m' x.addr x.size = Memory.readN m x.addr x.size :=
  Memory.readN_congr _ _ _ _ fun i hi => h x hx _ (by omega)

theorem AgreeOn.readWord {acc : List Access} {m m' : Memory} (h : AgreeOn acc m m') (x : Access) (hx : x ∈ acc)
    (hsize : x.size = 4) : Memory.readWord m' x.addr = Memory.readWord m x.addr := by
  rw [Memory.readWord, Memory.readWord, ← hsize, h.readN hx]

/-- What a completed micro-op leaves: the accesses recorded, the two words stored, and the worker's context before `pc`
grows. -/
structure Footprint where
  acc : List Access
  pa : Nat
  pb : Nat
  u : Word
  v : Word
  w : Worker

/-- The memory with the two words of a footprint stored. -/
def Footprint.store (e : Footprint) (m : Memory) : Memory :=
  Memory.writeN (Memory.writeN m e.pa 4 e.u.toNat) e.pb 4 e.v.toNat

/-- `s` once worker `cur` has completed a micro-op with the footprint `e`. -/
def State.leave (s : State) (e : Footprint) : State :=
  { s with
    mem := e.store s.mem
    workers := s.workers.set s.cur { e.w with pc := e.w.pc + 1 }
    log := e.acc ++ s.log }

/-- `s` after other workers' steps, which may have changed memory, their contexts and the detector's record. -/
def State.moved (s : State) (m : Memory) (ws : List Worker) (l : List Access) : State :=
  { s with mem := m, workers := ws, log := l }

/-- Worker `cur` completes `i` with the footprint `e`, and does so in every state that shows it the same context and the
same bytes and has no race for it. -/
structure State.Performs (s : State) (i : Instr) (e : Footprint) : Prop where
  own : ∀ x ∈ e.acc, x.worker = s.cur
  /-- The detector is shown both stores. -/
  writeA : s.wr e.pa 4 ∈ e.acc
  writeB : s.wr e.pb 4 ∈ e.acc
  /-- The stores lie in the space of `2^32` bytes (20_memory.md R75). -/
  boundA : e.pa + 4 ≤ 2 ^ 32
  boundB : e.pb + 4 ≤ 2 ^ 32
  clear : s.races e.acc = false
  runs : ∀ m ws l, (s.moved m ws l).worker s.cur = s.worker s.cur → AgreeOn e.acc s.mem m →
    (s.moved m ws l).races e.acc = false → exec i (s.moved m ws l) = .next ((s.moved m ws l).leave e)

/-- A worker that has a context is `FAULTED` by its fault (60_exceptions.md R280). -/
theorem State.raiseFault_ws (s : State) (e : ErrCode) (x : Word) (hc : s.cur < s.workers.length) :
    ((s.raiseFault e x).worker s.cur).ws = .faulted := by
  rw [State.worker_set_self s _ s.cur _ (State.raiseFault_workers s e x) hc]

/-! ### `BFLY` (41_butterfly_unit.md R141) -/

/-- What `BFLY a, b, ic` leaves for the operands `x`, `y` and `w`. -/
def State.bflyFootprint (s : State) (a b ic : Half) (x y w : Word) : Footprint where
  acc := [s.rd (s.samplePtr a.toNat) 4, s.rd (s.samplePtr b.toNat) 4, s.rd (s.twidPtr ic.toNat) 4,
    s.wr (s.samplePtr a.toNat) 4, s.wr (s.samplePtr b.toNat) 4]
  pa := s.samplePtr a.toNat
  pb := s.samplePtr b.toNat
  u := (bf x y w).1
  v := (bf x y w).2
  w := { s.worker s.cur with ra := x, rb := y, rw := w, rt := bfDiff x y }

theorem State.bflyFootprint_moved (s : State) (a b ic : Half) (x y w : Word) {m : Memory} {ws : List Worker}
    {l : List Access} (h : (s.moved m ws l).worker s.cur = s.worker s.cur) :
    (s.moved m ws l).bflyFootprint a b ic x y w = s.bflyFootprint a b ic x y w := by
  rw [State.bflyFootprint, State.bflyFootprint, ← h]
  rfl

/-- Every guard of `BFLY` passes. -/
theorem execBfly_leaves (s : State) (a b ic : Half) (x y w : Word)
    (hadm : (Instr.bfly a b ic).admitted s.regs.fftLen.toNat s.regs.brevLen.toNat = true)
    (hv : s.params.firstInvalid [(s.samplePtr a.toNat, 4), (s.samplePtr b.toNat, 4), (s.twidPtr ic.toNat, 4)] = none)
    (hclear : s.races (s.bflyFootprint a b ic x y w).acc = false)
    (hx : Memory.readWord s.mem (s.samplePtr a.toNat) = some x)
    (hy : Memory.readWord s.mem (s.samplePtr b.toNat) = some y)
    (hw : Memory.readWord s.mem (s.twidPtr ic.toNat) = some w) :
    exec (.bfly a b ic) s = .next (s.leave (s.bflyFootprint a b ic x y w)) :=
  (s.ifAdmitted_pos _ _ hadm).trans <|
  (s.withBus_valid _ _ ((Params.firstInvalid_none _ _).1 hv)).trans <|
  (s.withAccess_clear _ _ hclear).trans <|
  (State.withWord_some _ _ x _ hx).trans <|
  (State.withWord_some _ _ y _ hy).trans <|
  State.withWord_some _ _ w _ hw

theorem execBfly_performs {s t : State} {a b ic : Half} (hc : s.cur < s.workers.length)
    (h : execBfly a b ic s = .next t) (hlive : (t.worker s.cur).ws ≠ .faulted) :
    ∃ e, s.Performs (.bfly a b ic) e ∧ t = s.leave e := by
  obtain ⟨hadm, ⟨_, -, rfl⟩ | ⟨hv, hr, x, y, w, hx, hy, hw, rfl⟩⟩ := execBfly_next s t a b ic h
  · exact absurd (s.raiseFault_ws _ _ hc) hlive
  have hvalid := (Params.firstInvalid_none _ _).1 hv
  have hva : s.params.memValid (s.samplePtr a.toNat) 4 = true := hvalid (s.samplePtr a.toNat, 4) (by simp)
  have hvb : s.params.memValid (s.samplePtr b.toNat) 4 = true := hvalid (s.samplePtr b.toNat, 4) (by simp)
  refine ⟨s.bflyFootprint a b ic x y w, ?_, rfl⟩
  constructor
  case own => simp [State.bflyFootprint, State.rd, State.wr]
  case writeA => simp [State.bflyFootprint]
  case writeB => simp [State.bflyFootprint]
  case boundA => exact Params.memValid_bound _ _ _ hva (by decide)
  case boundB => exact Params.memValid_bound _ _ _ hvb (by decide)
  case clear => exact hr
  case runs =>
    intro m ws l hworker hagree hclear
    have hx' := (hagree.readWord (s.rd (s.samplePtr a.toNat) 4) (by simp [State.bflyFootprint]) rfl).trans hx
    have hy' := (hagree.readWord (s.rd (s.samplePtr b.toNat) 4) (by simp [State.bflyFootprint]) rfl).trans hy
    have hw' := (hagree.readWord (s.rd (s.twidPtr ic.toNat) 4) (by simp [State.bflyFootprint]) rfl).trans hw
    rw [← s.bflyFootprint_moved a b ic x y w hworker]
    exact execBfly_leaves (s.moved m ws l) a b ic x y w hadm hv hclear hx' hy' hw'

/-! ### `BFLYN` (R142) -/

/-- What `BFLYN a, b` leaves for the operands `x` and `y`. -/
def State.bflynFootprint (s : State) (a b : Half) (x y : Word) : Footprint where
  acc := [s.rd (s.samplePtr a.toNat) 4, s.rd (s.samplePtr b.toNat) 4, s.wr (s.samplePtr a.toNat) 4,
    s.wr (s.samplePtr b.toNat) 4]
  pa := s.samplePtr a.toNat
  pb := s.samplePtr b.toNat
  u := (bfn x y).1
  v := (bfn x y).2
  w := { s.worker s.cur with ra := x, rb := y, rt := bfDiff x y }

theorem State.bflynFootprint_moved (s : State) (a b : Half) (x y : Word) {m : Memory} {ws : List Worker}
    {l : List Access} (h : (s.moved m ws l).worker s.cur = s.worker s.cur) :
    (s.moved m ws l).bflynFootprint a b x y = s.bflynFootprint a b x y := by
  rw [State.bflynFootprint, State.bflynFootprint, ← h]
  rfl

/-- Every guard of `BFLYN` passes. -/
theorem execBflyn_leaves (s : State) (a b : Half) (x y : Word)
    (hadm : (Instr.bflyn a b).admitted s.regs.fftLen.toNat s.regs.brevLen.toNat = true)
    (hv : s.params.firstInvalid [(s.samplePtr a.toNat, 4), (s.samplePtr b.toNat, 4)] = none)
    (hclear : s.races (s.bflynFootprint a b x y).acc = false)
    (hx : Memory.readWord s.mem (s.samplePtr a.toNat) = some x)
    (hy : Memory.readWord s.mem (s.samplePtr b.toNat) = some y) :
    exec (.bflyn a b) s = .next (s.leave (s.bflynFootprint a b x y)) :=
  (s.ifAdmitted_pos _ _ hadm).trans <|
  (s.withBus_valid _ _ ((Params.firstInvalid_none _ _).1 hv)).trans <|
  (s.withAccess_clear _ _ hclear).trans <|
  (State.withWord_some _ _ x _ hx).trans <|
  State.withWord_some _ _ y _ hy

theorem execBflyn_performs {s t : State} {a b : Half} (hc : s.cur < s.workers.length)
    (h : execBflyn a b s = .next t) (hlive : (t.worker s.cur).ws ≠ .faulted) :
    ∃ e, s.Performs (.bflyn a b) e ∧ t = s.leave e := by
  obtain ⟨hadm, ⟨_, -, rfl⟩ | ⟨hv, hr, x, y, hx, hy, rfl⟩⟩ := execBflyn_next s t a b h
  · exact absurd (s.raiseFault_ws _ _ hc) hlive
  have hvalid := (Params.firstInvalid_none _ _).1 hv
  have hva : s.params.memValid (s.samplePtr a.toNat) 4 = true := hvalid (s.samplePtr a.toNat, 4) (by simp)
  have hvb : s.params.memValid (s.samplePtr b.toNat) 4 = true := hvalid (s.samplePtr b.toNat, 4) (by simp)
  refine ⟨s.bflynFootprint a b x y, ?_, rfl⟩
  constructor
  case own => simp [State.bflynFootprint, State.rd, State.wr]
  case writeA => simp [State.bflynFootprint]
  case writeB => simp [State.bflynFootprint]
  case boundA => exact Params.memValid_bound _ _ _ hva (by decide)
  case boundB => exact Params.memValid_bound _ _ _ hvb (by decide)
  case clear => exact hr
  case runs =>
    intro m ws l hworker hagree hclear
    have hx' := (hagree.readWord (s.rd (s.samplePtr a.toNat) 4) (by simp [State.bflynFootprint]) rfl).trans hx
    have hy' := (hagree.readWord (s.rd (s.samplePtr b.toNat) 4) (by simp [State.bflynFootprint]) rfl).trans hy
    rw [← s.bflynFootprint_moved a b x y hworker]
    exact execBflyn_leaves (s.moved m ws l) a b x y hadm hv hclear hx' hy'

/-! ### `SWPT` (44_bit_reversal_engine.md R207) -/

/-- The two table reads of `SWPT p`. -/
def State.entryReads (s : State) (p : Half) : List Access :=
  [s.rd (s.brevPtr (2 * p.toNat)) 2, s.rd (s.brevPtr (2 * p.toNat + 1)) 2]

/-- What `SWPT p` leaves for the table entries `a` and `b` and the samples `x` and `y` there. -/
def State.swptFootprint (s : State) (p : Half) (a b : Nat) (x y : Word) : Footprint where
  acc := [s.rd (s.samplePtr a) 4, s.rd (s.samplePtr b) 4, s.wr (s.samplePtr a) 4, s.wr (s.samplePtr b) 4] ++
    s.entryReads p
  pa := s.samplePtr a
  pb := s.samplePtr b
  u := y
  v := x
  w := { s.worker s.cur with ra := x, rb := y }

theorem State.swptFootprint_moved (s : State) (p : Half) (a b : Nat) (x y : Word) {m : Memory} {ws : List Worker}
    {l : List Access} (h : (s.moved m ws l).worker s.cur = s.worker s.cur) :
    (s.moved m ws l).swptFootprint p a b x y = s.swptFootprint p a b x y := by
  rw [State.swptFootprint, State.swptFootprint, ← h]
  rfl

/-- Every guard of `SWPT` passes, the two table reads being no race with the same worker's sample accesses. -/
theorem execSwpt_leaves (s : State) (p : Half) (a b : Nat) (x y : Word)
    (hadm : (Instr.swpt p).admitted s.regs.fftLen.toNat s.regs.brevLen.toNat = true)
    (hve : s.params.firstInvalid [(s.brevPtr (2 * p.toNat), 2), (s.brevPtr (2 * p.toNat + 1), 2)] = none)
    (hv : s.params.firstInvalid [(s.samplePtr a, 4), (s.samplePtr b, 4)] = none)
    (hclear : s.races (s.swptFootprint p a b x y).acc = false)
    (ha : Memory.readHalf s.mem (s.brevPtr (2 * p.toNat)) = some a)
    (hb : Memory.readHalf s.mem (s.brevPtr (2 * p.toNat + 1)) = some b) (hlta : a < s.fftN) (hltb : b < s.fftN)
    (hx : Memory.readWord s.mem (s.samplePtr a) = some x) (hy : Memory.readWord s.mem (s.samplePtr b) = some y) :
    exec (.swpt p) s = .next (s.leave (s.swptFootprint p a b x y)) := by
  obtain ⟨hclear, hclearEntries⟩ := (s.races_append _ _).1 hclear
  have hclear' := s.races_own_log _ (s.entryReads p) (by simp [State.rd, State.wr]) (by simp [State.entryReads, State.rd])
    hclear
  exact (s.ifAdmitted_pos _ _ hadm).trans <|
    (s.withBus_valid _ _ ((Params.firstInvalid_none _ _).1 hve)).trans <|
    (s.withAccess_clear _ _ hclearEntries).trans <|
    ((s.noted p).withHalf_some _ a _ ha).trans <|
    ((s.noted p).withHalf_some _ b _ hb).trans <|
    (if_neg (Nat.not_le.2 hlta)).trans <|
    (if_neg (Nat.not_le.2 hltb)).trans <|
    ((s.noted p).withBus_valid _ _ ((Params.firstInvalid_none _ _).1 hv)).trans <|
    ((s.noted p).withAccess_clear _ _ hclear').trans <|
    (State.withWord_some _ _ x _ hx).trans <|
    State.withWord_some _ _ y _ hy

theorem execSwpt_performs {s t : State} {p : Half} (hc : s.cur < s.workers.length)
    (h : execSwpt p s = .next t) (hlive : (t.worker s.cur).ws ≠ .faulted) :
    ∃ e, s.Performs (.swpt p) e ∧ t = s.leave e := by
  obtain ⟨hadm, ⟨_, -, rfl⟩ | ⟨hve, hre, a, b, ha, hb, hcases⟩⟩ := execSwpt_next s t p h
  · exact absurd (s.raiseFault_ws _ _ hc) hlive
  rcases hcases with ⟨-, rfl⟩ | ⟨-, -, rfl⟩ | ⟨-, -, _, -, rfl⟩ | ⟨hlta, hltb, hv, hr, x, y, hx, hy, rfl⟩
  · exact absurd ((s.noted p).raiseFault_ws _ _ hc) hlive
  · exact absurd ((s.noted p).raiseFault_ws _ _ hc) hlive
  · exact absurd ((s.noted p).raiseFault_ws _ _ hc) hlive
  have hvalid := (Params.firstInvalid_none _ _).1 hv
  have hva : s.params.memValid (s.samplePtr a) 4 = true := hvalid (s.samplePtr a, 4) (by simp)
  have hvb : s.params.memValid (s.samplePtr b) 4 = true := hvalid (s.samplePtr b, 4) (by simp)
  refine ⟨s.swptFootprint p a b x y, ?_, rfl⟩
  constructor
  case own => simp [State.swptFootprint, State.entryReads, State.rd, State.wr]
  case writeA => simp [State.swptFootprint]
  case writeB => simp [State.swptFootprint]
  case boundA => exact Params.memValid_bound _ _ _ hva (by decide)
  case boundB => exact Params.memValid_bound _ _ _ hvb (by decide)
  case clear => exact (s.races_append _ _).2 ⟨((s.races_log_append _ _).1 hr).2, hre⟩
  case runs =>
    intro m ws l hworker hagree hclear
    have hentry : ∀ z ∈ s.entryReads p, z ∈ (s.swptFootprint p a b x y).acc := fun z hz => List.mem_append_right _ hz
    have ha' := (hagree.readN (hentry (s.rd (s.brevPtr (2 * p.toNat)) 2) (by simp [State.entryReads]))).trans ha
    have hb' := (hagree.readN (hentry (s.rd (s.brevPtr (2 * p.toNat + 1)) 2) (by simp [State.entryReads]))).trans hb
    have hx' := (hagree.readWord (s.rd (s.samplePtr a) 4) (by simp [State.swptFootprint]) rfl).trans hx
    have hy' := (hagree.readWord (s.rd (s.samplePtr b) 4) (by simp [State.swptFootprint]) rfl).trans hy
    rw [← s.swptFootprint_moved p a b x y hworker]
    exact execSwpt_leaves (s.moved m ws l) p a b x y hadm hve hv hclear ha' hb' hlta hltb hx' hy'

/-- A micro-op that completes without a worker fault has a footprint. -/
theorem exec_performs {s t : State} {i : Instr} (hi : i.accessesMemory = true) (hc : s.cur < s.workers.length)
    (h : exec i s = .next t) (hlive : (t.worker s.cur).ws ≠ .faulted) : ∃ e, s.Performs i e ∧ t = s.leave e := by
  cases i with
  | bfly a b ic => exact execBfly_performs hc h hlive
  | bflyn a b => exact execBflyn_performs hc h hlive
  | swpt p => exact execSwpt_performs hc h hlive
  | _ => cases hi

/-! ## Two completed micro-ops of different workers (45_launcher_and_host_commands.md R240) -/

theorem State.leave_worker_ne (s : State) (e : Footprint) {c : Nat} (h : c ≠ s.cur) :
    (s.leave e).worker c = s.worker c :=
  State.worker_set_ne s _ s.cur c { e.w with pc := e.w.pc + 1 } rfl h

/-- What two completed micro-ops leave, worker `c`'s first. -/
theorem State.leave_leave (s : State) (e f : Footprint) (c d : Nat) :
    State.leave { State.leave { s with cur := c } e with cur := d } f = { s with
      mem := f.store (e.store s.mem)
      workers := (s.workers.set c { e.w with pc := e.w.pc + 1 }).set d { f.w with pc := f.w.pc + 1 }
      log := f.acc ++ (e.acc ++ s.log)
      cur := d } := rfl

/-- Two workers' writes without a conflict are words apart. -/
theorem State.words_apart_of_not_conflicts {s r : State} {p q : Nat} (hne : s.cur ≠ r.cur)
    (h : (s.wr p 4).conflicts (r.wr q 4) = false) : p + 4 ≤ q ∨ q + 4 ≤ p := by
  have outside : ∀ k, p ≤ k ∧ k < p + 4 → k < q ∨ q + 4 ≤ k := fun k hk =>
    Access.outside_of_not_conflicts h hne rfl hk
  have hfirst := outside p (by omega)
  have hlast := outside (p + 3) (by omega)
  omega

section Apart

variable {s r : State} {i j : Instr} {e f : Footprint} (he : s.Performs i e) (hf : r.Performs j f)
  (hne : s.cur ≠ r.cur) (hfree : ConflictFree e.acc f.acc)
include he hf hne hfree

/-- The one worker's stores leave every byte the other accesses. -/
theorem State.Performs.agreeOn_store (m : Memory) : AgreeOn e.acc m (f.store m) := by
  intro x hx k hk
  have outside : ∀ p, r.wr p 4 ∈ f.acc → k < p ∨ p + 4 ≤ k := fun p hp =>
    Access.outside_of_not_conflicts (hfree x hx _ hp) (he.own x hx ▸ hne) rfl hk
  rw [Footprint.store, Memory.read_writeN_outside 4 _ _ _ _ (outside _ hf.writeB),
    Memory.read_writeN_outside 4 _ _ _ _ (outside _ hf.writeA)]

/-- Their stores commute: each of the one's two words moves past both of the other's. -/
theorem State.Performs.store_comm {m : Memory} (hm : Memory.wf m) : e.store (f.store m) = f.store (e.store m) := by
  have past : ∀ m q v, Memory.wf m → r.wr q 4 ∈ f.acc → q + 4 ≤ 2 ^ 32 →
      e.store (Memory.writeN m q 4 v) = Memory.writeN (e.store m) q 4 v := by
    intro m q v hm hq hbound
    have hA := State.words_apart_of_not_conflicts hne (hfree _ he.writeA _ hq)
    have hB := State.words_apart_of_not_conflicts hne (hfree _ he.writeB _ hq)
    rw [Footprint.store, Footprint.store, Memory.writeN_comm m q e.pa 4 4 _ _ hm hbound he.boundA hA.symm,
      Memory.writeN_comm _ q e.pb 4 4 _ _ (Memory.wf_writeN _ _ _ _ hm he.boundA) hbound he.boundB hB.symm]
  calc e.store (f.store m)
      = Memory.writeN (e.store (Memory.writeN m f.pa 4 f.u.toNat)) f.pb 4 f.v.toNat :=
        past _ f.pb _ (Memory.wf_writeN _ _ _ _ hm hf.boundA) hf.writeB hf.boundB
    _ = f.store (e.store m) :=
        congrArg (Memory.writeN · f.pb 4 f.v.toNat) (past m f.pa _ hm hf.writeA hf.boundA)

end Apart

section Swap

variable {s : State} {c d : Nat} {i j : Instr} {e f : Footprint} (hne : c ≠ d)
  (he : State.Performs { s with cur := c } i e)
  (hf : State.Performs { State.leave { s with cur := c } e with cur := d } j f)

include hf in
/-- What worker `d` accesses after worker `c` conflicts neither with worker `c`'s accesses nor with those before. -/
theorem State.Performs.conflictFree : ConflictFree f.acc e.acc ∧ s.races f.acc = false :=
  (s.races_log_append f.acc e.acc).1 hf.clear

include hne he hf

/-- Worker `d`'s micro-op runs the same without worker `c`'s before it. -/
theorem State.Performs.runs_first : exec j { s with cur := d } = .next (State.leave { s with cur := d } f) := by
  obtain ⟨hfree, hclear⟩ := hf.conflictFree
  have hworker : s.worker d = (State.leave { s with cur := c } e).worker d :=
    (State.leave_worker_ne { s with cur := c } e hne.symm).symm
  have hagree : AgreeOn f.acc (e.store s.mem) s.mem := fun x hx k hk =>
    (hf.agreeOn_store he hne.symm hfree s.mem x hx k hk).symm
  exact hf.runs s.mem s.workers s.log hworker hagree hclear

/-- Worker `c`'s micro-op runs the same with worker `d`'s before it. -/
theorem State.Performs.runs_second : exec i { State.leave { s with cur := d } f with cur := c } =
    .next (State.leave { State.leave { s with cur := d } f with cur := c } e) := by
  obtain ⟨hfree, -⟩ := hf.conflictFree
  have hworker : (State.leave { s with cur := d } f).worker c = s.worker c :=
    State.leave_worker_ne { s with cur := d } f hne
  have hclear := (s.races_log_append e.acc f.acc).2 ⟨hfree.symm, he.clear⟩
  exact he.runs (f.store s.mem) _ (f.acc ++ s.log) hworker (he.agreeOn_store hf hne hfree.symm s.mem) hclear

/-- Either order leaves the same but for the record's order and the last executing worker. -/
theorem State.Performs.leave_comm (hm : Memory.wf s.mem) :
    { State.leave { State.leave { s with cur := d } f with cur := c } e with
      log := f.acc ++ (e.acc ++ s.log), cur := d } =
      State.leave { State.leave { s with cur := c } e with cur := d } f := by
  rw [State.leave_leave, State.leave_leave, he.store_comm hf hne hf.conflictFree.1.symm hm, List.set_comm _ _ hne.symm]

end Swap

/-- Settles O58: both micro-ops have footprints, free of conflicts with each other, so each runs the same in the other
order. -/
theorem workerStepsCommute : Obligations.WorkerStepsCommute := by
  intro s s1 u c d i j hne hc hd hwf hi hj hexec hexec' hlive hlive'
  obtain ⟨-, -, -, -, -, -, -, -, -, hlength, -⟩ := (exec_memory_effect _ _ i hi hexec).microFrame
  obtain ⟨-, -, -, -, -, -, -, -, -, -, hother, -⟩ := (exec_memory_effect _ _ j hj hexec').microFrame
  have hlive1 : (s1.worker c).ws ≠ .faulted := (congrArg Worker.ws (hother c hne)).symm.trans_ne hlive
  obtain ⟨e, he, rfl⟩ := exec_performs hi hc hexec hlive1
  obtain ⟨f, hf, rfl⟩ := exec_performs hj (hlength ▸ hd) hexec' hlive'
  exact ⟨_, _, State.Performs.runs_first hne he hf, State.Performs.runs_second hne he hf,
    List.perm_append_comm_assoc _ _ _, State.Performs.leave_comm hne he hf hwf⟩

end Sys2Proof.Machine

namespace Sys2Proof.Machine

open Sys2Proof

/-! ## The first access that is not valid (20_memory.md R75, 60_exceptions.md R272, R282) -/

section FirstInvalid

variable (p : Params) (a n : Nat) (l : List (Nat × Nat))

theorem Params.firstInvalid_cons_of_valid (h : p.memValid a n = true) :
    p.firstInvalid ((a, n) :: l) = p.firstInvalid l := if_pos h

theorem Params.firstInvalid_cons_of_invalid (h : p.memValid a n = false) : p.firstInvalid ((a, n) :: l) = some a := by
  rw [Params.firstInvalid, h]
  rfl

/-- With the default `MemValid` every access within the space is valid (00_scope.md R7). -/
theorem Params.memValid_of_no_holes (hholes : p.holes = []) (hspace : a + n ≤ 2 ^ 32) : p.memValid a n = true := by
  rw [Params.memValid_iff]
  intro i hi
  have hlt : a + i < 2 ^ 32 := by omega
  rw [Params.backed, hholes, decide_eq_true hlt]
  rfl

end FirstInvalid

theorem State.withBus_raises (s : State) (l : List (Nat × Nat)) (k : Out) {a : Nat}
    (h : s.params.firstInvalid l = some a) : s.withBus l k = .next (s.raiseFault .bus (BitVec.ofNat 32 a)) := by
  rw [State.withBus, h]

theorem exec_bfly_raises (s : State) (a b ic : Half) {q : Nat}
    (hadm : a.toNat < b.toNat ∧ b.toNat < s.regs.fftLen.toNat ∧ ic.toNat < s.regs.fftLen.toNat / 2)
    (h : s.params.firstInvalid [(s.samplePtr a.toNat, 4), (s.samplePtr b.toNat, 4), (s.twidPtr ic.toNat, 4)] = some q) :
    exec (.bfly a b ic) s = .next (s.raiseFault .bus (BitVec.ofNat 32 q)) :=
  (s.ifAdmitted_pos _ _ (by simpa [Instr.admitted, and_assoc] using hadm)).trans (s.withBus_raises _ _ h)

theorem exec_bflyn_raises (s : State) (a b : Half) {q : Nat}
    (hadm : a.toNat % 2 = 0 ∧ b.toNat = a.toNat + 1 ∧ b.toNat < s.regs.fftLen.toNat)
    (h : s.params.firstInvalid [(s.samplePtr a.toNat, 4), (s.samplePtr b.toNat, 4)] = some q) :
    exec (.bflyn a b) s = .next (s.raiseFault .bus (BitVec.ofNat 32 q)) :=
  (s.ifAdmitted_pos _ _ (by simpa [Instr.admitted, and_assoc] using hadm)).trans (s.withBus_raises _ _ h)

theorem exec_swpt_raises (s : State) (p : Half) {q : Nat} (hadm : 2 * p.toNat + 1 < s.regs.brevLen.toNat)
    (h : s.params.firstInvalid [(s.brevPtr (2 * p.toNat), 2), (s.brevPtr (2 * p.toNat + 1), 2)] = some q) :
    exec (.swpt p) s = .next (s.raiseFault .bus (BitVec.ofNat 32 q)) :=
  (s.ifAdmitted_pos _ _ (by simpa [Instr.admitted] using hadm)).trans (s.withBus_raises _ _ h)

/-! ## `SWPT` once its table entries are read (44_bit_reversal_engine.md R207, R208) -/

section EntriesRead

variable {s : State} {p : Half} {x y : Nat}
  (hadm : 2 * p.toNat + 1 < s.regs.brevLen.toNat)
  (h0 : s.params.memValid (s.brevPtr (2 * p.toNat)) 2 = true)
  (h1 : s.params.memValid (s.brevPtr (2 * p.toNat + 1)) 2 = true)
  (hclear : s.races [s.rd (s.brevPtr (2 * p.toNat)) 2, s.rd (s.brevPtr (2 * p.toNat + 1)) 2] = false)
  (hx : Memory.readHalf s.mem (s.brevPtr (2 * p.toNat)) = some x)
  (hy : Memory.readHalf s.mem (s.brevPtr (2 * p.toNat + 1)) = some y)
include hadm h0 h1 hclear hx hy

/-- The entries are checked first, in the table's order; then the samples they name. -/
theorem exec_swpt_of_entries : ∃ k : Out, exec (.swpt p) s =
    if s.fftN ≤ x then .next ((s.noted p).raiseFault .brevIdx (BitVec.ofNat 32 x))
    else if s.fftN ≤ y then .next ((s.noted p).raiseFault .brevIdx (BitVec.ofNat 32 y))
    else (s.noted p).withBus [(s.samplePtr x, 4), (s.samplePtr y, 4)] k :=
  ⟨_, (s.ifAdmitted_pos _ _ (by simpa [Instr.admitted] using hadm)).trans <|
    (s.withBus_valid _ _ (by simpa using ⟨h0, h1⟩)).trans <|
    (s.withAccess_clear _ _ hclear).trans <|
    ((s.noted p).withHalf_some _ x _ hx).trans <|
    (s.noted p).withHalf_some _ y _ hy⟩

theorem exec_swpt_of_entries_in_range (hxn : x < s.fftN) (hyn : y < s.fftN) {q : Nat}
    (h : s.params.firstInvalid [(s.samplePtr x, 4), (s.samplePtr y, 4)] = some q) :
    exec (.swpt p) s = .next ((s.noted p).raiseFault .bus (BitVec.ofNat 32 q)) := by
  obtain ⟨k, hk⟩ := exec_swpt_of_entries hadm h0 h1 hclear hx hy
  rw [hk, if_neg (Nat.not_le.2 hxn), if_neg (Nat.not_le.2 hyn)]
  exact (s.noted p).withBus_raises _ k h

end EntriesRead

/-- Settles O21: what `SWPT` does once it has read its two entries. -/
theorem brevIndexFault : Obligations.BrevIndexFault := by
  intro s p x y e0 e1 noted hadm h0 h1 hclear hx hy
  obtain ⟨k, hk⟩ := exec_swpt_of_entries hadm h0 h1 hclear hx hy
  rw [hk]
  exact ⟨fun hxn => if_pos hxn, fun hxn hyn => (if_neg (Nat.not_le.2 hxn)).trans (if_pos hyn)⟩

/-- Settles O20: each clause names the first access of its check list that is not valid. -/
theorem busFaultReportsFirstInvalid : Obligations.BusFaultReportsFirstInvalid := by
  intro s a b ic p x y n pa pb pw e0 e1 noted v
  have found {q k : Nat} (l : List (Nat × Nat)) : v q k = false → s.params.firstInvalid ((q, k) :: l) = some q :=
    s.params.firstInvalid_cons_of_invalid q k l
  have passed {q k : Nat} {l : List (Nat × Nat)} {r : Nat} (hq : v q k = true) (hr : s.params.firstInvalid l = some r) :
      s.params.firstInvalid ((q, k) :: l) = some r := (s.params.firstInvalid_cons_of_valid q k l hq).trans hr
  refine ⟨fun hholes q k => s.params.memValid_of_no_holes q k hholes, fun hadm => ⟨?_, ?_, ?_⟩, fun hadm => ⟨?_, ?_⟩,
    fun hadm => ⟨?_, ?_, ?_⟩⟩
  · exact fun ha => exec_bfly_raises s a b ic hadm (found _ ha)
  · exact fun ha hb => exec_bfly_raises s a b ic hadm (passed ha (found _ hb))
  · exact fun ha hb hw => exec_bfly_raises s a b ic hadm (passed ha (passed hb (found _ hw)))
  · exact fun ha => exec_bflyn_raises s a b hadm (found _ ha)
  · exact fun ha hb => exec_bflyn_raises s a b hadm (passed ha (found _ hb))
  · exact fun h0 => exec_swpt_raises s p hadm (found _ h0)
  · exact fun h0 h1 => exec_swpt_raises s p hadm (passed h0 (found _ h1))
  · intro h0 h1 hclear hx hy hxn hyn
    have raises {q : Nat} := exec_swpt_of_entries_in_range hadm h0 h1 hclear hx hy hxn hyn (q := q)
    exact ⟨fun hvx => raises (found _ hvx), fun hvx hvy => raises (passed hvx (found _ hvy))⟩

end Sys2Proof.Machine

namespace Sys2Proof.Machine

open Sys2Proof

/-! ## A worker fault and the interrupt line (60_exceptions.md R280, R284, R286) -/

theorem State.raiseFault_irq (s : State) (e : ErrCode) (info : Word) : (s.raiseFault e info).irq = s.regs.ie := by
  rw [State.irq, State.raiseFault_err, Bool.or_true, Bool.and_true, State.raiseFault_regs]

/-- Settles O22: a worker that is not `RUN` is issued nothing, so it is at no barrier. -/
theorem workerFaultMechanism : Obligations.WorkerFaultMechanism := by
  intro s e info hc t
  have hworkers : t.workers = s.workers.set s.cur { s.worker s.cur with ws := .faulted } := s.raiseFault_workers e info
  have hself : t.worker s.cur = { s.worker s.cur with ws := .faulted } := s.worker_set_self t s.cur _ hworkers hc
  have hissued : t.issued s.cur = none := t.issued_none s.cur (by simp [hself])
  have hbar : t.atBar s.cur = false := by
    rw [State.atBar, hissued]
    rfl
  exact ⟨s.raiseFault_mem e info, hself, fun d hd => s.worker_set_ne t s.cur d _ hworkers hd,
    s.raiseFault_regs e info, s.raiseFault_params e info, s.raiseFault_log e info, s.raiseFault_epoch e info,
    s.raiseFault_status_first e info, s.raiseFault_status_later e info, s.raiseFault_irq e info, hissued, hbar⟩

/-- An accepted `START` with `IE` leaves `irq` high exactly when it has not forked: a configuration error sets `ERR`, an
inverse completion `DONE`, and the fork leaves both clear (R223 to R226). -/
theorem exec_start_irq {s t : State} (hie : s.regs.ie = true) (hctx : s.ctx = true) (hidle : s.status.busy = false)
    (h : exec .start s = .next t) : t.irq = !t.status.busy := by
  replace h : execStart s = .next t := h
  rcases execStart_cases s with ⟨hno, -⟩ | ⟨-, hbusy, -⟩ | ⟨-, -, ⟨e, info, -, hs⟩ | ⟨-, -, hs⟩ | ⟨-, -, hs⟩⟩
  · simp [hctx] at hno
  · simp [hidle] at hbusy
  all_goals
    rw [hs] at h
    cases h
    simp [State.irq, hie, hidle]

/-- Settles O45: each clause by the next state of its step. -/
theorem interruptLine : Obligations.InterruptLine := by
  intro s t e info
  refine ⟨rfl, fun h => ?disabled, fun h => ?reset, fun hie => ⟨fun hen h => ?join, fun hctx hidle h hend => ?ended,
    fun hctx hidle h hrun => ?forked, (s.raiseFault_irq e info).trans hie, fun hidle h => ?clear, fun hctx h => ?unsup,
    fun hbusy h => ?ovr⟩⟩
  case disabled =>
    have hw := s.hostWrite_reg 0x2C 0 true .ctrl rfl (by decide) rfl (by decide)
    cases hw.symm.trans h
    rfl
  case reset =>
    cases h
    rfl
  case join =>
    cases (if_pos hen).symm.trans h
    simp [State.irq, hie]
  case ended => rw [exec_start_irq hie hctx hidle h, hend, Bool.not_false]
  case forked => rw [exec_start_irq hie hctx hidle h, hrun, Bool.not_true]
  case clear =>
    obtain ⟨hclear, hirq⟩ := (clearCommand s).2 hidle
    cases hclear.symm.trans h
    exact hirq
  case unsup =>
    cases (startWithoutContext s hctx).symm.trans h
    rfl
  case ovr =>
    cases (exec_command_of_busy hbusy rfl nofun : exec .clear s = _).symm.trans h
    rfl

end Sys2Proof.Machine

namespace Sys2Proof.Machine

open Sys2Proof

/-! ## What stays once a worker has faulted (60_exceptions.md R293) -/

/-- `BUSY`, `DONE`, the registers but for `CTRL.IE`, the epoch, and worker `c`: what no step but a reset changes once `c` has
faulted. -/
def State.held (s : State) (c : Nat) : Bool × Bool × Regs × Nat × Worker :=
  (s.status.busy, s.status.done, { s.regs with ie := false }, s.epoch, s.worker c)

/-- The registers are the same but for `CTRL.IE`. -/
theorem State.held_eq_iff {s t : State} {c : Nat} : t.held c = s.held c ↔
    t.status.busy = s.status.busy ∧ t.status.done = s.status.done ∧ t.regs = { s.regs with ie := t.regs.ie } ∧
      t.epoch = s.epoch ∧ t.worker c = s.worker c := by
  have hregs : { t.regs with ie := false } = { s.regs with ie := false } ↔ t.regs = { s.regs with ie := t.regs.ie } :=
    ⟨congrArg fun r : Regs => { r with ie := t.regs.ie }, congrArg fun r : Regs => { r with ie := false }⟩
  simp only [State.held, Prod.mk.injEq, hregs]

/-- What `microFrame` leaves of every worker but the one that executes. -/
theorem held_of_microFrame {s t : State} {c : Nat} (h : microFrame s t) (hc : c ≠ s.cur) : t.held c = s.held c := by
  obtain ⟨hregs, -, hepoch, -, -, -, -, -, -, -, hothers, hbusy, hdone, -⟩ := h
  rw [State.held, hbusy, hdone, hregs, hepoch, hothers c hc, State.held]

/-- A micro-op that one worker executes holds another's context. -/
theorem exec_microOp_held {s t : State} {c : Nat} {i : Instr} (hi : i.accessesMemory = true ∨ i = .endOp)
    (hc : c ≠ s.cur) (h : exec i s = .next t) : t.held c = s.held c := by
  rcases hi with hmem | rfl
  · exact held_of_microFrame (exec_memory_effect s t i hmem h).microFrame hc
  · cases h
    rw [State.held, s.worker_set_ne _ s.cur c _ rfl hc]
    rfl

/-- While `BUSY` a command sets `OVR`, or `UNSUP`, and nothing else (R221, R222). -/
theorem exec_command_held {s t : State} (c : Nat) {i : Instr} (hbusy : s.status.busy = true) (hi : i.isMicroOp = false)
    (h : exec i s = .next t) : t.held c = s.held c := by
  by_cases hstart : i = .start ∧ s.ctx = false
  · obtain ⟨rfl, hctx⟩ := hstart
    cases (startWithoutContext s hctx).symm.trans h
    rfl
  · have hctx : i = .start → s.ctx = true := fun e => by simpa [e] using hstart
    cases (exec_command_of_busy hbusy hi hctx).symm.trans h
    rfl

theorem State.hostWrite_held {s t : State} (c : Nat) {addr : Word} {n : Nat} {v : Word} {ctx : Bool}
    (hbusy : s.status.busy = true) (h : s.hostWrite addr n v ctx = .next t) : t.held c = s.held c := by
  rcases s.hostWrite_cases addr n v ctx with e | e | e | ⟨r, e⟩ <;> rw [e] at h
  · cases h
  · cases h
    rfl
  · exact exec_command_held (s := { s with ctx := ctx }) c hbusy (decodeC_isMicroOp v) h
  · cases h
    rcases s.writeReg_cases r v with e | e | ⟨-, e⟩ | ⟨hidle, -⟩
    · rw [e]
    · rw [e]
      rfl
    · rw [e]
      rfl
    · simp [hidle] at hbusy

/-- A word that decodes and is not `BAR`'s is that of a micro-op that accesses memory, or `END`'s (30_encoding.md R91). -/
theorem accesses_or_end_of_decode {w : UWord} {i : Instr} (h : decode (.u w) = .ok i) (hw : w ≠ barWord) :
    i.accessesMemory = true ∨ i = .endOp := by
  have henc : encode i = .u w := decodedMicroOpIsItsEncoding w i h
  cases i with
  | bfly a b ic => exact .inl rfl
  | bflyn a b => exact .inl rfl
  | bar => exact absurd ((eq_barWord_iff h).2 rfl) hw
  | swpt p => exact .inl rfl
  | endOp => exact .inr rfl
  | _ => cases henc

theorem State.workerTurn_held {s t : State} {c d : Nat} (hc : (s.worker c).ws ≠ .run) (h : s.workerTurn d = .next t) :
    t.held c = s.held c := by
  rcases s.workerTurn_next t d h with rfl | ⟨i, w, hr, hi, hbar, h⟩
  · rfl
  · have hne : c ≠ d := by
      rintro rfl
      exact hc hr
    exact exec_microOp_held (s := { s with cur := d, trace := s.trace ++ [(d, w)] })
      (State.accesses_or_end_of_nextOp hi hbar) hne h

theorem State.issueTurn_held {s t : State} {c d : Nat} {w : UWord} (hc : (s.worker c).ws ≠ .run)
    (h : s.issueTurn d w = .next t) : t.held c = s.held c := by
  unfold State.issueTurn at h
  split at h
  · rename_i hgiven
    obtain ⟨htakes, hw⟩ := hgiven
    obtain ⟨hr, -⟩ := (s.takesWord_iff d).1 htakes
    have hne : c ≠ d := by
      rintro rfl
      exact hc hr
    unfold State.runWord at h
    split at h
    · rename_i i hi
      exact exec_microOp_held (s := { s with cur := d, trace := s.trace ++ [(d, w)] })
        (accesses_or_end_of_decode hi hw) hne h
    · cases h
  · cases h
    rfl

/-- A participant that has faulted keeps the release and the join from being enabled (R192, R229), and every other turn but a
reset holds what it must. -/
theorem takeTurn_held {s t : State} {c : Nat} {turn : Turn} (hbusy : s.status.busy = true) (hc : c < s.cores)
    (hws : (s.worker c).ws = .faulted) (hreset : turn ≠ .reset) (h : takeTurn turn s = .next t) :
    t.held c = s.held c := by
  have hrun : (s.worker c).ws ≠ .run := by simp [hws]
  cases turn with
  | regRead addr n =>
    obtain ⟨v, rfl⟩ := s.hostRead_next t addr n h
    rfl
  | regWrite addr n v ctx => exact State.hostWrite_held c hbusy h
  | memRead addr =>
    obtain ⟨v, rfl⟩ := s.hostMemRead_next t addr h
    rfl
  | memWrite addr v =>
    obtain rfl := s.hostMemWrite_next t addr v h
    rfl
  | reset => exact absurd rfl hreset
  | worker d => exact State.workerTurn_held hrun h
  | release =>
    have hdisabled : ¬ s.releaseEnabled = true := fun hen => hrun ((s.releaseEnabled_iff.1 hen).2 c hc).1
    cases (exec_bar_of_not_releaseEnabled hdisabled).symm.trans h
    rfl
  | join =>
    have hdisabled : ¬ s.joinEnabled = true := fun hen => by simpa [hws] using (s.joinEnabled_iff.1 hen).2 c hc
    cases (if_neg hdisabled).symm.trans h
    rfl
  | issue d w => exact State.issueTurn_held hrun h

/-- Taking a turn off the list, or counting a free one, is no step of the block (log 2). -/
theorem State.popTurn_held (s : State) (c : Nat) : s.popTurn.2.held c = s.held c := by
  cases h : s.turns with
  | nil => rw [s.popTurn_nil h]; rfl
  | cons turn rest => rw [s.popTurn_cons turn rest h]; rfl

/-- `NCORES` is one of the registers. -/
theorem State.cores_of_held {s t : State} {c : Nat} (h : t.held c = s.held c) : t.cores = s.cores := by
  obtain ⟨-, -, hregs, -, -⟩ := State.held_eq_iff.1 h
  rw [State.cores, hregs, State.cores]

/-- Settles O55: taking the turn off the list holds the invocation, and so does what the turn does. -/
theorem faultedInvocationNeverCompletes : Obligations.FaultedInvocationNeverCompletes := by
  intro s t c hbusy hc hws h hreset
  have hpop : s.popTurn.2.held c = s.held c := s.popTurn_held c
  obtain ⟨hbusy', -, -, -, hworker'⟩ := State.held_eq_iff.1 hpop
  have hheld : t.held c = s.held c :=
    (takeTurn_held (hbusy'.trans hbusy) (State.cores_of_held hpop ▸ hc) (hworker' ▸ hws) hreset h).trans hpop
  obtain ⟨hbusy'', hdone, hregs, hepoch, hworker⟩ := State.held_eq_iff.1 hheld
  exact ⟨hbusy''.trans hbusy, State.cores_of_held hheld ▸ hc, hworker ▸ hws, hdone, hregs, hepoch⟩

end Sys2Proof.Machine

namespace Sys2Proof.Machine

open Sys2Proof

/-! ## Reset (70_reset_and_hazards.md R310) -/

/-- Reset returns the block to the state after power-up, which it leaves as it is. -/
theorem State.doReset_reset : State.reset.doReset = State.reset := rfl

theorem State.doReset_worker (s : State) (c : Nat) : s.doReset.worker c = Worker.reset :=
  s.doReset.worker_replicate _ c s.doReset_workers

/-- No bit of `STATUS`, `FLAGS` or `CTRL` is set in the reset values. -/
theorem statusFlagsCtrl_reset :
    Status.reset.toWord = 0 ∧ Regs.reset.flagsWord = 0 ∧ Regs.reset.ctrlWord = 0 := by
  decide

/-- `CAP` shows the parameters, which are not reset. -/
theorem State.doReset_readReg (s : State) (r : HostReg) (hr : r ≠ .cap) : s.doReset.readReg r = 0 := by
  obtain ⟨hstatus, hflags, hctrl⟩ := statusFlagsCtrl_reset
  cases r with
  | cap => exact absurd rfl hr
  | status => exact hstatus
  | flags => exact hflags
  | ctrl => exact hctrl
  | _ => rfl

theorem State.doReset_readOffset (s : State) (o : Nat) (ho : o ≠ 0) : s.doReset.readOffset o = 0 := by
  unfold State.readOffset
  split
  · next r hr =>
    refine s.doReset_readReg r ?_
    rintro rfl
    exact ho ((HostReg.ofOffset_eq_some_iff o .cap).1 hr)
  · rfl

/-- `FFTLEN` is 0 after reset, which the first check of R224 turns away. -/
theorem configError_reset (p : Params) : configError p Regs.reset = some (.fftLen, 0) := by
  have hlen : Regs.reset.fftLen.toNat < 4 := by decide
  unfold configError
  exact if_pos (Or.inl hlen)

/-- Settles O44: the launcher is idle after reset, so a `START` comes to the configuration checks. -/
theorem resetRecovers : Obligations.ResetRecovers := by
  intro s
  have hidle (c : Nat) : (s.doReset.worker c).ws = .idle := by rw [s.doReset_worker c, Worker.reset]
  have hcontexts : s.doReset.workers.length = s.params.maxCores := List.length_replicate
  have hstart : exec .start { s.doReset with ctx := true } =
      .next ({ s.doReset with ctx := true }.configRefused .fftLen 0) :=
    exec_start_of_configError rfl rfl (configError_reset s.params)
  exact ⟨s.doReset, rfl, s.doReset_readOffset, rfl, rfl, hidle, hcontexts, rfl, rfl, rfl, hstart⟩

/-- Settles O43: the state after power-up is the reset of itself; its parameters are the defaults of R7. -/
theorem resetState : Obligations.ResetState := by
  obtain ⟨t, ht, hregs, -, hls, hidle, -, harrived, hirq, -, hstart⟩ := resetRecovers State.reset
  obtain rfl : State.reset = t := Host.Outcome.next.inj ht
  exact ⟨hregs, rfl, hidle, List.length_replicate, hls, harrived, hirq, hstart⟩

/-- Settles O53: nothing runs after power-up, nothing is recorded, and memory is empty. -/
theorem invariantAtReset : Obligations.InvariantAtReset := by
  have hidle (c : Nat) : (State.reset.worker c).ws = .idle := by
    rw [← State.doReset_reset, State.reset.doReset_worker c, Worker.reset]
  have hmem : Memory.wf State.reset.mem := ⟨.nil, nofun⟩
  exact Inv.of_idle (by decide) List.length_replicate hmem (fun _ _ => List.not_mem_nil) rfl hidle rfl
    (fun _ => ⟨rfl, rfl, rfl⟩) nofun

/-! ## The host's memory accesses (20_memory.md R73, 70_reset_and_hazards.md R321) -/

section HostMemory

variable (s : State) (a : Word)

theorem State.hostMemRead_of_allowed {b : Byte} (h : s.status.busy = false ∨ s.inBuffer a.toNat = false)
    (hb : Memory.read s.mem a.toNat = some b) : s.hostMemRead a = .next { s with rdata := b.setWidth 32 } := by
  rw [State.hostMemRead, Bool.and_eq_false_iff.2 h, hb]
  rfl

theorem State.hostMemRead_race (hbusy : s.status.busy = true) (hbuf : s.inBuffer a.toNat = true) :
    s.hostMemRead a = .fault .hostRace := by
  rw [State.hostMemRead, hbusy, hbuf]
  rfl

/-- What is allowed is what R321's race excludes: nothing runs, or the byte is in no region in use. -/
theorem State.hostMemWrite_of_allowed (v : Byte) (h : s.status.busy = false ∨
      (s.inBuffer a.toNat = false ∧ s.inTwiddles a.toNat = false ∧ s.inBrevTable a.toNat = false)) :
    s.hostMemWrite a v = .next { s with mem := Memory.write s.mem a.toNat v } := by
  have hfree : (s.status.busy && (s.inBuffer a.toNat || s.inTwiddles a.toNat || s.inBrevTable a.toNat)) = false := by
    simpa only [Bool.and_eq_false_iff, Bool.or_eq_false_iff, and_assoc] using h
  rw [State.hostMemWrite, hfree]
  rfl

theorem State.hostMemWrite_race (v : Byte) (hbusy : s.status.busy = true)
    (h : s.inBuffer a.toNat = true ∨ s.inTwiddles a.toNat = true ∨ s.inBrevTable a.toNat = true) :
    s.hostMemWrite a v = .fault .hostRace := by
  have hused : (s.inBuffer a.toNat || s.inTwiddles a.toNat || s.inBrevTable a.toNat) = true := by
    simpa only [Bool.or_eq_true, or_assoc] using h
  rw [State.hostMemWrite, hbusy, hused]
  rfl

end HostMemory

/-- Settles O38: a read or a write made, or stopped; a write that is made changes the one byte. -/
theorem hostMemoryAccess : Obligations.HostMemoryAccess := fun s a v _ =>
  ⟨s.hostMemRead_of_allowed a, s.hostMemRead_race a, s.hostMemWrite_race a v, fun h =>
    ⟨_, s.hostMemWrite_of_allowed a v h, Memory.read_write_self _ _ v, fun x hx => Memory.read_write_ne _ _ x v hx, rfl⟩⟩

end Sys2Proof.Machine
